-- ==== Sys2Proof/Word.lean ====
section
/-! DEFINITION. The bit vectors of the block: only what the spec itself treats as bits. -/

namespace Sys2Proof

/-- A byte of the input stream, of SUF, of OUT or of a response (R38). -/
abbrev Byte := BitVec 8

/-- A code, zero-extended to 12 bits (R71); also an entry of PRE (R40). -/
abbrev Code := BitVec 12

/-- The bit accumulator's word, exactly 32 bits (R5, R20). -/
abbrev AccWord := BitVec 32

/-- A host command word (R73). -/
abbrev CmdWord := BitVec 32

end Sys2Proof
end

