-- ==== Sys2Proof/Config.lean ====
section
/-! DEFINITION. The fixed parameters of the block (R5), the parameter type SrcErr (R7) and the free values. -/

namespace Sys2Proof

namespace Config

/-- The parameter behind SrcErr (R7, D5, I7): which numbers name a payload beside the first. It has no body (log 6). -/
opaque isSrcErr (n : Nat) : Bool

end Config

/-- The error payload of the byte source (R7, R79), left open as D5 says: a first payload, and one for each number of a
set nothing is known of, so any nonempty type whose values can be written down (log 6). The Decoder stores and returns it
and never looks inside. -/
inductive SrcErr where
  | first
  | other (n : Nat) (legal : Config.isSrcErr n = true)
  deriving DecidableEq, Repr, Inhabited

namespace Config

/-- Largest code width (R5). -/
def maxWidth : Nat := 12

/-- Entries of each table array, 2^maxWidth (R5). -/
def tableSize : Nat := 4096

/-- Bytes of the scratch region OUT, 2 * 2^maxWidth (R5). -/
def outSize : Nat := 8192

/-- The flush threshold, 2^maxWidth (R5, R107). -/
def flushThreshold : Nat := 4096

/-- A FREE VALUE (log 5): the k-th value of w bits that the spec leaves unspecified (R25, R36, R37, I8, I10).
It has no body, so nothing can be proved of it. -/
opaque freeValue (w : Nat) (k : Nat) : BitVec w

/-- A FREE VALUE (log 5): the k-th error payload that the spec leaves unspecified (R36, R37, I11). -/
opaque freeErr (k : Nat) : SrcErr

/-- A FREE VALUE (log 8): byte i of the k-th unspecified contents of OUT (R35, R36, R129, I9, I12). -/
opaque freeByte (k i : Nat) : BitVec 8

end Config

end Sys2Proof
end

