-- ==== Sys2Proof/Syntax.lean ====
section
/-! DEFINITION. The syntax: one constructor of Instr per row of spec/opcode_table.json, and the values that
travel on the byte-source interface. -/

namespace Sys2Proof

/-- The bit ordering of a stream (R16). -/
inductive Order where
  | lsb
  | msb
  deriving DecidableEq, Repr, Inhabited

/-- The six code classes of the stream (R62) and the four kinds of command word (R73, R77). -/
inductive Instr where
  /-- LITERAL (R63, R99): the literal byte, which is the code value zero-extended (R71). -/
  | literal (byte : Byte)
  /-- CLEAR (R64, R100). -/
  | clear
  /-- EOF (R65, R101). -/
  | eof
  /-- KWKWK (R67, R116): the code, equal to hi when it is read. -/
  | kwkwk (code : Code)
  /-- DICT (R66, R115): the table index. -/
  | dict (code : Code)
  /-- INVALID (R68, R102): a code above hi. -/
  | invalid (code : Code)
  /-- INIT (R74, R133): word[4] and word[11:8]. -/
  | init (order : Order) (litWidth : BitVec 4)
  /-- READ (R75, R136): word[31:16]. -/
  | read (n : BitVec 16)
  /-- CLOSE (R76, R144). -/
  | close
  /-- A reserved command word (R77, R147). -/
  | reserved (word : CmdWord)
  deriving DecidableEq, Repr

/-- What the byte source puts on its interface for one Fetch: a 2-bit tag and data (R79). -/
structure SourceWord where
  tag  : BitVec 2
  byte : Byte
  err  : SrcErr
  deriving DecidableEq, Repr

/-- The meaning of a Fetch answer (R9, R79). -/
inductive Answer where
  | byte (b : Byte)
  | endOfInput
  | err (e : SrcErr)
  /-- tag 3: a source-contract violation. -/
  | reservedTag
  deriving DecidableEq, Repr

/-- What the classification of a code reads of the state (R62): the registers clear, eof, hi, width and last_valid. -/
structure CodeCtx where
  clear     : Nat
  eof       : Nat
  width     : Nat
  hi        : Nat
  lastValid : Bool
  deriving DecidableEq, Repr

/-- The two forms an instruction is encoded in: a code of `width` bits of the stream (R60) or a command word (R73). -/
inductive Encoded where
  | code (width : Nat) (value : Code)
  | command (word : CmdWord)
  deriving DecidableEq, Repr

/-- Why the decoder rejects a piece of code stream. -/
inductive DecodeError where
  /-- The bytes end before `width` bits are gathered (R91). -/
  | truncated
  deriving DecidableEq, Repr

/-- A line of the code-stream notation (R81). -/
inductive AsmLine where
  | lit (v : Byte)
  | clr
  | eoi
  | code (n : Code)
  deriving DecidableEq, Repr

/-- A line of the host-program notation (R82). -/
inductive HostLine where
  | init (order : Order) (litWidth : BitVec 4)
  | read (n : BitVec 16)
  | close
  deriving DecidableEq, Repr

end Sys2Proof
end

