-- ==== Sys2Proof/WellFormed.lean ====
section
/-! DEFINITION. When an instruction is one the classification can produce, in the context its code is read in. -/

namespace Sys2Proof

/-- A command word whose opcode or reserved bits make it none of INIT, READ, CLOSE (R77, masks of R74 to R76). -/
def isReservedWord (w : CmdWord) : Bool :=
  w &&& 0xFFFFF0EF#32 != 0x00000001#32 &&
  w &&& 0x0000FFFF#32 != 0x00000002#32 &&
  w != 0x00000003#32

/-- The conditions of the classification table R62, and R77 for a reserved word. -/
def wellFormed (c : CodeCtx) : Instr → Bool
  | .literal b  => decide (b.toNat < c.clear)
  | .clear      => decide (c.clear < 2 ^ c.width)
  | .eof        => decide (c.eof < 2 ^ c.width)
  | .kwkwk code => decide (c.eof < code.toNat ∧ code.toNat = c.hi ∧ c.lastValid = true ∧ code.toNat < 2 ^ c.width)
  | .dict code  => decide (c.eof < code.toNat ∧ code.toNat ≤ c.hi ∧ ¬ (code.toNat = c.hi ∧ c.lastValid = true)
                     ∧ code.toNat < 2 ^ c.width)
  | .invalid code => decide (c.hi < code.toNat ∧ code.toNat < 2 ^ c.width)
  | .init _ _   => true
  | .read _     => true
  | .close      => true
  | .reserved w => isReservedWord w

/-- A context the Decoder can classify in between steps: R18, R19, R22, R33(a). -/
def CodeCtx.legal (c : CodeCtx) : Bool :=
  decide (4 ≤ c.clear ∧ c.clear ≤ 256 ∧ c.eof = c.clear + 1 ∧ c.width ≤ Config.maxWidth ∧ c.eof ≤ c.hi ∧ c.hi < 2 ^ c.width)

end Sys2Proof
end

