-- ==== Sys2Proof/Decode.lean ====
section
/-! DEFINITION. Encodings: the bit extractor's arithmetic, the classification of codes, command words, Fetch
answers; then the encoder and the two notations of 30_encoding section 5. -/

namespace Sys2Proof

/-- `order` as the 1-bit field of R16 and R73: 0 LSB, 1 MSB. -/
def orderOfBit (b : BitVec 1) : Order := if b = 0#1 then .lsb else .msb

/-- The inverse of `orderOfBit`. -/
def orderBit : Order → BitVec 1
  | .lsb => 0#1
  | .msb => 1#1

/-! ## The bit extractor's arithmetic (40_bit_extractor) -/

/-- The accumulator after INSERT: R87 in LSB order, R88 in MSB order. -/
def insertBits (ord : Order) (bits : AccWord) (nBits : Nat) (b : Byte) : AccWord :=
  match ord with
  | .lsb => bits ||| (b.setWidth 32 <<< nBits)
  | .msb => bits ||| (b.setWidth 32 <<< (24 - nBits))

/-- The code EXTRACT takes, zero-extended to 12 bits: R89, R90, R71. -/
def extractCode (ord : Order) (bits : AccWord) (width : Nat) : Code :=
  match ord with
  | .lsb => (bits &&& BitVec.ofNat 32 (2 ^ width - 1)).setWidth 12
  | .msb => (bits >>> (32 - width)).setWidth 12

/-- The accumulator EXTRACT leaves: R89, R90 (the left shift keeps the low 32 bits, R20). -/
def extractRest (ord : Order) (bits : AccWord) (width : Nat) : AccWord :=
  match ord with
  | .lsb => bits >>> width
  | .msb => bits <<< width

/-- The fill loop R86 over bytes already at hand: the accumulator with at least `width` bits and the bytes left. -/
def fillBits (ord : Order) (width : Nat) : AccWord → Nat → List Byte → Except DecodeError (AccWord × Nat × List Byte)
  | bits, nBits, [] => if nBits < width then .error .truncated else .ok (bits, nBits, [])
  | bits, nBits, b :: bs =>
    if nBits < width then fillBits ord width (insertBits ord bits nBits b) (nBits + 8) bs
    else .ok (bits, nBits, b :: bs)

/-! ## Decoding -/

/-- The classification of R62, tested in its order; every value has exactly one class. -/
def classify (c : CodeCtx) (code : Code) : Instr :=
  if code.toNat < c.clear then .literal (code.setWidth 8)
  else if code.toNat = c.clear then .clear
  else if code.toNat = c.eof then .eof
  else if code.toNat ≤ c.hi then
    if code.toNat = c.hi ∧ c.lastValid = true then .kwkwk code else .dict code
  else .invalid code

/-- The command word R73: the rows of R74, R75 and R76, and R77 for every other word. -/
def decodeCommand (w : CmdWord) : Instr :=
  if w &&& 0xFFFFF0EF#32 = 0x00000001#32 then .init (orderOfBit (w.extractLsb' 4 1)) (w.extractLsb' 8 4)
  else if w &&& 0x0000FFFF#32 = 0x00000002#32 then .read (w.extractLsb' 16 16)
  else if w &&& 0xFFFFFFFF#32 = 0x00000003#32 then .close
  else .reserved w

/-- A Fetch answer (R79): tag 0 BYTE, 1 END, 2 ERR, 3 reserved. -/
def decodeAnswer (a : SourceWord) : Answer :=
  if a.tag = 0#2 then .byte a.byte
  else if a.tag = 1#2 then .endOfInput
  else if a.tag = 2#2 then .err a.err
  else .reservedTag

/-- NEXT_CODE (R83) and the classification over bytes at hand, from any accumulator: the instruction, the
accumulator left and the bytes left; rejected by name where the bytes run out. -/
def decodeCodeBytes (ord : Order) (c : CodeCtx) (bits : AccWord) (nBits : Nat) (bytes : List Byte) :
    Except DecodeError (Instr × AccWord × Nat × List Byte) :=
  match fillBits ord c.width bits nBits bytes with
  | .error e => .error e
  | .ok (acc, n, rest) =>
    .ok (classify c (extractCode ord acc c.width), extractRest ord acc c.width, n - c.width, rest)

/-- The instruction of an encoded form: the inverse of `encode` on well-formed instructions. -/
def decode (c : CodeCtx) : Encoded → Instr
  | .code _ v    => classify c v
  | .command w   => decodeCommand w

/-- The classification context right after INIT with this literal width (R36). -/
def CodeCtx.afterInit (litWidth : Nat) : CodeCtx :=
  { clear := 2 ^ litWidth, eof := 2 ^ litWidth + 1, width := litWidth + 1, hi := 2 ^ litWidth + 1, lastValid := false }

/-- The opcode table's numbering (log 14): a row of at most 16 bits is a code in the table's own setting
(litWidth 8, width 9, here LSB order right after INIT), its two bytes in stream order; a row of up to 32 bits is
a command word, which is one transaction and has no byte order (log 19). -/
def decodeTableWord (nbits w : Nat) : Option Instr :=
  if nbits ≤ 16 then
    match decodeCodeBytes .lsb (CodeCtx.afterInit 8) 0#32 0
        [BitVec.ofNat 8 (w % 2 ^ nbits), BitVec.ofNat 8 (w % 2 ^ nbits / 256)] with
    | .ok (i, _) => some i
    | .error _ => none
  else if nbits ≤ 32 then some (decodeCommand (BitVec.ofNat 32 (w % 2 ^ nbits)))
  else none

/-! ## Encoding -/

/-- INIT's word (R73, R74). -/
def encodeInit (ord : Order) (litWidth : BitVec 4) : CmdWord :=
  0x00000001#32 ||| ((orderBit ord).setWidth 32 <<< 4) ||| (litWidth.setWidth 32 <<< 8)

/-- READ's word (R73, R75). -/
def encodeRead (n : BitVec 16) : CmdWord := 0x00000002#32 ||| (n.setWidth 32 <<< 16)

/-- CLOSE's word (R76). -/
def encodeClose : CmdWord := 0x00000003#32

/-- The code or command word of an instruction (R63 to R68, R74 to R77). -/
def encode (c : CodeCtx) : Instr → Encoded
  | .literal b    => .code c.width (b.setWidth 12)
  | .clear        => .code c.width (BitVec.ofNat 12 c.clear)
  | .eof          => .code c.width (BitVec.ofNat 12 c.eof)
  | .kwkwk code   => .code c.width code
  | .dict code    => .code c.width code
  | .invalid code => .code c.width code
  | .init ord w   => .command (encodeInit ord w)
  | .read n       => .command (encodeRead n)
  | .close        => .command encodeClose
  | .reserved w   => .command w

/-- A Fetch answer on the interface (R79); the data fields its tag does not use are 0 here. -/
def encodeAnswer : Answer → SourceWord
  | .byte b      => { tag := 0#2, byte := b, err := default }
  | .endOfInput  => { tag := 1#2, byte := 0#8, err := default }
  | .err e       => { tag := 2#2, byte := 0#8, err := e }
  | .reservedTag => { tag := 3#2, byte := 0#8, err := default }

/-! ## The stream as bits (R47, R48) -/

/-- The 8 stream bits of a byte in stream order: bit 0 first in LSB order, bit 7 first in MSB order. -/
def byteBits (ord : Order) (b : Byte) : List Bool :=
  match ord with
  | .lsb => (List.range 8).map fun j => b.getLsbD j
  | .msb => (List.range 8).map fun j => b.getLsbD (7 - j)

/-- The `width` stream bits of a code in stream order: least significant first in LSB order, most significant
first in MSB order. -/
def codeBits (ord : Order) (width : Nat) (code : Code) : List Bool :=
  match ord with
  | .lsb => (List.range width).map fun j => code.getLsbD j
  | .msb => (List.range width).map fun j => code.getLsbD (width - 1 - j)

/-- The valid bits of the accumulator in stream order (R20). -/
def accBits (ord : Order) (bits : AccWord) (nBits : Nat) : List Bool :=
  match ord with
  | .lsb => (List.range nBits).map fun j => bits.getLsbD j
  | .msb => (List.range nBits).map fun j => bits.getLsbD (31 - j)

/-- The number whose bits, least significant first, are given. -/
def natOfBits : List Bool → Nat
  | [] => 0
  | b :: bs => (if b then 1 else 0) + 2 * natOfBits bs

/-- The byte whose stream bits begin with those given (at most 8), the rest padding of 0 (R81). -/
def byteOfBits (ord : Order) (l : List Bool) : Byte :=
  match ord with
  | .lsb => BitVec.ofNat 8 (natOfBits l)
  | .msb => BitVec.ofNat 8 (natOfBits (l ++ List.replicate (8 - l.length) false).reverse)

/-- Pack stream bits into bytes; `part` holds the bits of the byte in progress, fewer than 8. -/
def packBits (ord : Order) : List Bool → List Bool → List Byte
  | [], [] => []
  | [], p :: ps => [byteOfBits ord (p :: ps)]
  | b :: bs, part =>
    if part.length = 7 then byteOfBits ord (part ++ [b]) :: packBits ord bs [] else packBits ord bs (part ++ [b])

/-! ## The notations of R81 and R82 -/

/-- The code value of a line. -/
def asmCode (c : CodeCtx) : AsmLine → Code
  | .lit v  => v.setWidth 12
  | .clr    => BitVec.ofNat 12 c.clear
  | .eoi    => BitVec.ofNat 12 c.eof
  | .code n => n

/-- The width tracking a producer must do (R81, R181): what the decoder's context is after this code (R100, R103 to
R105, and unchanged after EOF or an invalid code). -/
def trackCode (c : CodeCtx) (code : Code) : CodeCtx :=
  match classify c code with
  | .clear => { c with width := Nat.log2 c.clear + 1, hi := c.eof, lastValid := false }
  | .literal _ | .dict _ | .kwkwk _ =>
    if c.hi + 1 < 2 ^ c.width then { c with hi := c.hi + 1, lastValid := true }
    else if c.width = Config.maxWidth then { c with lastValid := false }
    else { c with hi := c.hi + 1, width := c.width + 1, lastValid := true }
  | _ => c

/-- The stream bits of the lines, each code at the width in force for it. -/
def asmBits (ord : Order) : CodeCtx → List AsmLine → List Bool
  | _, [] => []
  | c, l :: ls => codeBits ord c.width (asmCode c l) ++ asmBits ord (trackCode c (asmCode c l)) ls

/-- The bytes of a code stream written in the notation R81, with the directives .order and .litwidth. -/
def assemble (ord : Order) (litWidth : Nat) (ls : List AsmLine) : List Byte :=
  packBits ord (asmBits ord (CodeCtx.afterInit litWidth) ls) []

/-- The command word of a line of a host program (R82). -/
def hostWord : HostLine → CmdWord
  | .init ord w => encodeInit ord w
  | .read n     => encodeRead n
  | .close      => encodeClose

end Sys2Proof
end

