-- ==== Sys2Proof/Machine/State.lean ====
section
/-! DEFINITION. The state of the block as plain data, and its value after power-on reset. -/

namespace Sys2Proof.Machine

/-- The state-machine state (R27). Codes 6 and 7 are never written (I18), so they have no constructor. -/
inductive Phase where
  | unconfigured
  | decoding
  | cleared
  | eofSeen
  | errored
  | closed
  deriving DecidableEq, Repr

/-- The status codes (R80). Codes 10 to 15 are never produced (I19), so they have no constructor. -/
inductive Status where
  | ok
  | eof
  | unexpectedEof
  | invalidCode
  | sourceError
  | closed
  | badLitWidth
  | notConfigured
  | illegalCmd
  | internalFault
  deriving DecidableEq, Repr

/-- The response of a command (R78): a status, and for READ the count k, the k data bytes and, with
SOURCE_ERROR, the payload. -/
inductive Response where
  | status (st : Status)
  | read (st : Status) (k : BitVec 16) (data : List Byte) (payload : Option SrcErr)
  deriving DecidableEq, Repr

/-- What the host does next on its command port. -/
inductive HostAct where
  /-- Presents the word after the response to the command before it (R132, R176). -/
  | issue (w : CmdWord)
  /-- Presents the word while the command before it has not responded: the use R146 and R176 forbid. -/
  | overlap (w : CmdWord)
  deriving DecidableEq, Repr

/-- What can be observed of the block (R14). -/
inductive Event where
  | command (w : CmdWord)
  | response (r : Response)
  | fetch (a : Answer)
  deriving DecidableEq, Repr

/-- An array of elements: (index, element) pairs, indexes strictly rising. An index not listed has not been written: in
SUF and PRE it holds no value (R46), in OUT any value (I12; log 8). -/
abbrev Memory (α : Type) := List (Nat × α)

/-- Why the machine stops with a fault. Every one is SAFE: it stops where the block has no behaviour the spec
gives, and no run from reset reaches one. -/
inductive Fault where
  /-- A read of a SUF or PRE entry not written in the current epoch (R46, I2). Raised by the walk of DICT and KWKWK. Safe. -/
  | unwrittenEntry
  /-- hi exceeds overflow in the trailer (R106, R160, D15). Raised by LITERAL, DICT and KWKWK. Safe. -/
  | internalFault
  /-- A prefix chain of more than 4096 entries, which no table of 4096 entries without a loop has (R111; log 10).
  Raised by the walk of DICT and KWKWK. Safe. -/
  | chainUnterminated
  /-- A SUF or PRE index above 4095 (R38; log 11). Raised by the walk and the seal. Safe. -/
  | tableRange
  /-- An OUT index above 8191 (R38, R42; log 11). Raised by every OUT access. Safe. -/
  | scratchRange
  deriving DecidableEq, Repr

/-- Why an instruction or an input has no meaning. Every one is SAFE: the run stops. -/
inductive Refusal where
  /-- An arm of exec without a meaning yet. Safe. -/
  | notModelled (mnemonic : String)
  /-- A command presented while another has not responded (R146, I3). Raised by step and by every command. Safe. -/
  | overlappingCommand
  /-- A Fetch answer with the reserved tag 3 (R79, I4). Raised by the Fetch transaction. Safe. -/
  | reservedAnswer
  deriving DecidableEq, Repr

/-- Everything the spec gives the machine. The counters are exact naturals, as 10_state's preamble allows (log 7). -/
structure State where
  /-- R16. -/
  order : Order
  /-- R17. -/
  litWidth : Nat
  /-- R18. -/
  clear : Nat
  /-- R19. -/
  eof : Nat
  /-- R20. -/
  bits : AccWord
  /-- R21. -/
  nBits : Nat
  /-- R22. -/
  width : Nat
  /-- R23. -/
  hi : Nat
  /-- R24. -/
  overflow : Nat
  /-- R25, R31: last_valid. -/
  lastValid : Bool
  /-- R25. -/
  last : Nat
  /-- R26. -/
  o : Nat
  /-- R29: pend_pos. -/
  pendPos : Nat
  /-- R29: pend_end. -/
  pendEnd : Nat
  /-- R27. -/
  phase : Phase
  /-- R28. -/
  cond : Status
  /-- R28: cond_payload. -/
  condPayload : SrcErr
  /-- SUF (R39). -/
  suf : Memory Byte
  /-- PRE (R40). -/
  pre : Memory Code
  /-- OUT (R41): the bytes written since the contents were last unspecified. -/
  out : Memory Byte
  /-- The model's own (I9, I12; log 8): which free contents OUT has where it is not written. -/
  outFree : Nat
  /-- The model's own (R46, I2; log 9): slots of SUF written in the current epoch, strictly rising. -/
  sufFresh : List Nat
  /-- The model's own (R46, I2; log 9): slots of PRE written in the current epoch, strictly rising. -/
  preFresh : List Nat
  /-- The READ in service, with its n, while its decode pass runs (R136, R142). -/
  busy : Option (BitVec 16)
  /-- What the host has still to present, in order (R132; log 2). -/
  host : List HostAct
  /-- The Fetch answers the byte source has still to give, in order (R44, R79; log 2). -/
  source : List SourceWord
  /-- The answers the byte source gives after those, over and over without end (R180, I6; log 2); with none here it never
  answers again (R177, I5). -/
  sourceLoop : List SourceWord
  /-- What has been observed, newest first (R14; log 13). -/
  trace : List Event
  /-- The model's own: how many free values have been drawn (log 5). -/
  freeCtr : Nat
  deriving DecidableEq, Repr

/-- Power-on reset (R35, R171): phase UNCONFIGURED, cond OK, the pending queue empty. Every other register is
unspecified there and 0 here (DESIGN CHOICE, log 4); nothing is written in the arrays. -/
def State.reset : State where
  order := .lsb
  litWidth := 0
  clear := 0
  eof := 0
  bits := 0#32
  nBits := 0
  width := 0
  hi := 0
  overflow := 0
  lastValid := false
  last := 0
  o := 0
  pendPos := 0
  pendEnd := 0
  phase := .unconfigured
  cond := .ok
  condPayload := .first
  suf := []
  pre := []
  out := []
  outFree := 0
  sufFresh := []
  preFresh := []
  busy := none
  host := []
  source := []
  sourceLoop := []
  trace := []
  freeCtr := 1

end Sys2Proof.Machine
end

