-- ==== Sys2Proof/Machine/Ops.lean ====
section
/-! DEFINITION. The named operations: arrays, the access primitives of R43, the response, entering a terminal
condition (R98) and leaving one (R166). -/

namespace Sys2Proof.Machine

/-! ## Arrays -/

/-- The element at index `a`, none where nothing is listed. -/
def Memory.read {α : Type} : Memory α → Nat → Option α
  | [], _ => none
  | (b, v) :: m, a => if a = b then some v else Memory.read m a

/-- Write `v` at index `a`, keeping the indexes strictly rising. -/
def Memory.write {α : Type} : Memory α → Nat → α → Memory α
  | [], a, v => [(a, v)]
  | (b, w) :: m, a, v =>
    if a < b then (a, v) :: (b, w) :: m
    else if a = b then (a, v) :: m
    else (b, w) :: Memory.write m a v

/-- Indexes strictly rising from `lo` on and below `size`. -/
def Memory.wfFrom {α : Type} (size : Nat) : Nat → Memory α → Bool
  | _, [] => true
  | lo, (a, _) :: m => decide (lo ≤ a ∧ a < size) && Memory.wfFrom size (a + 1) m

/-- The canonical form of an array of `size` elements. -/
def Memory.wf {α : Type} (size : Nat) (m : Memory α) : Bool := Memory.wfFrom size 0 m

/-- Put `c` into a strictly rising list. -/
def markSlot (c : Nat) : List Nat → List Nat
  | [] => [c]
  | d :: ds => if c < d then c :: d :: ds else if c = d then d :: ds else d :: markSlot c ds

/-- Strictly rising from `lo` on and below `size`. -/
def risingFrom (size : Nat) : Nat → List Nat → Bool
  | _, [] => true
  | lo, c :: cs => decide (lo ≤ c ∧ c < size) && risingFrom size (c + 1) cs

/-! ## Access primitives (R43) -/

/-- SufRead(c): a value only where the current epoch wrote one (R46, I2). -/
def sufRead (s : State) (c : Nat) : Except Fault Byte :=
  if Config.tableSize ≤ c then .error .tableRange
  else if s.sufFresh.contains c then
    match Memory.read s.suf c with
    | some v => .ok v
    | none => .error .unwrittenEntry
  else .error .unwrittenEntry

/-- PreRead(c): a value only where the current epoch wrote one (R46, I2). -/
def preRead (s : State) (c : Nat) : Except Fault Code :=
  if Config.tableSize ≤ c then .error .tableRange
  else if s.preFresh.contains c then
    match Memory.read s.pre c with
    | some v => .ok v
    | none => .error .unwrittenEntry
  else .error .unwrittenEntry

/-- SUF[c] <- v[7:0], and slot c of SUF belongs to the current epoch (log 9). -/
def State.putSuf (s : State) (c v : Nat) : State :=
  { s with suf := Memory.write s.suf c (BitVec.ofNat 8 v), sufFresh := markSlot c s.sufFresh }

/-- PRE[c] <- v[11:0], and slot c of PRE belongs to the current epoch (log 9). -/
def State.putPre (s : State) (c v : Nat) : State :=
  { s with pre := Memory.write s.pre c (BitVec.ofNat 12 v), preFresh := markSlot c s.preFresh }

/-- OUT[i] <- v[7:0]. -/
def State.putOut (s : State) (i v : Nat) : State :=
  { s with out := Memory.write s.out i (BitVec.ofNat 8 v) }

/-- SufWrite(c, v). -/
def sufWrite (s : State) (c v : Nat) : Except Fault State :=
  if Config.tableSize ≤ c then .error .tableRange else .ok (s.putSuf c v)

/-- PreWrite(c, v). -/
def preWrite (s : State) (c v : Nat) : Except Fault State :=
  if Config.tableSize ≤ c then .error .tableRange else .ok (s.putPre c v)

/-- OUT[i]: the byte written there, and a free value where none has been (R35, R36, R129, I12; log 8). -/
def outByte (s : State) (i : Nat) : Byte :=
  match Memory.read s.out i with
  | some v => v
  | none => Config.freeByte s.outFree i

/-- OutRead(i). -/
def outRead (s : State) (i : Nat) : Except Fault Byte :=
  if Config.outSize ≤ i then .error .scratchRange else .ok (outByte s i)

/-- OutWrite(i, v). -/
def outWrite (s : State) (i v : Nat) : Except Fault State :=
  if Config.outSize ≤ i then .error .scratchRange else .ok (s.putOut i v)

/-! ## Responses -/

/-- The one response of a command (R78); no command is in service after it. -/
def State.respond (s : State) (r : Response) : State :=
  { s with busy := none, trace := .response r :: s.trace }

/-! ## Terminal conditions (the analogue of taking an exception, R162) -/

/-- terminate(c [, e]) (R98): stores the condition and its payload, enters EOF_SEEN or ERRORED, writes nothing else.
The STOP it ends with is `endPass` (Machine/Delivery.lean). -/
def State.terminate (s : State) (c : Status) (e : Option SrcErr) : State :=
  { s with cond := c, condPayload := e.getD s.condPayload, phase := if c = .eof then .eofSeen else .errored }

/-- Leaving a terminal phase (R166): the registers a successful INIT writes (R36, R133). `last` and `cond_payload`
are unspecified after it, so they take free values (log 5); no entry of SUF or PRE holds a value, and OUT has new free
contents (log 8). -/
def State.startStream (s : State) (ord : Order) (w : Nat) : State :=
  { s with
    pendPos := 0, pendEnd := 0, o := 0
    order := ord, litWidth := w
    clear := 2 ^ w, eof := 2 ^ w + 1
    bits := 0#32, nBits := 0
    width := w + 1, overflow := 2 ^ (w + 1), hi := 2 ^ w + 1
    lastValid := false
    last := (Config.freeValue 12 s.freeCtr).toNat
    suf := [], pre := [], out := [], outFree := s.freeCtr, sufFresh := [], preFresh := []
    phase := .cleared, cond := .ok
    condPayload := Config.freeErr s.freeCtr
    freeCtr := s.freeCtr + 1 }

/-- The registers a failed INIT writes (R37, R133, R134): ERRORED with BAD_LITWIDTH, the queue and o at 0; every
other register is unspecified after it, so it takes a free value (log 5, log 16). -/
def State.failStream (s : State) : State :=
  { s with
    pendPos := 0, pendEnd := 0, o := 0
    phase := .errored, cond := .badLitWidth
    order := orderOfBit (Config.freeValue 1 s.freeCtr)
    litWidth := (Config.freeValue 4 (s.freeCtr + 1)).toNat
    clear := (Config.freeValue 9 (s.freeCtr + 2)).toNat
    eof := (Config.freeValue 9 (s.freeCtr + 3)).toNat
    bits := Config.freeValue 32 (s.freeCtr + 4)
    nBits := (Config.freeValue 5 (s.freeCtr + 5)).toNat
    width := (Config.freeValue 4 (s.freeCtr + 6)).toNat
    hi := (Config.freeValue 13 (s.freeCtr + 7)).toNat
    overflow := (Config.freeValue 13 (s.freeCtr + 8)).toNat
    lastValid := decide (Config.freeValue 1 (s.freeCtr + 9) = 1#1)
    last := (Config.freeValue 12 (s.freeCtr + 10)).toNat
    condPayload := Config.freeErr (s.freeCtr + 11)
    freeCtr := s.freeCtr + 12 }

/-! ## Outcomes -/

/-- An operation's result as the outcome of a step. -/
def finish : Except Fault State → Host.Outcome State Fault Refusal
  | .ok s => .next s
  | .error f => .fault f

/-- A command is served only while no other is in service (R132, R146). -/
def whenIdle (s : State) (k : Host.Outcome State Fault Refusal) : Host.Outcome State Fault Refusal :=
  if s.busy.isSome then .refused .overlappingCommand else k

end Sys2Proof.Machine
end

