-- ==== Sys2Proof/Machine/Flags.lean ====
section
/-! DEFINITION. The flag-like state (R31): the phase, last_valid, and the codes of phase and status. -/

namespace Sys2Proof.Machine

/-- The 3-bit code of a phase (R27). -/
def Phase.code : Phase → BitVec 3
  | .unconfigured => 0#3
  | .decoding => 1#3
  | .cleared => 2#3
  | .eofSeen => 3#3
  | .errored => 4#3
  | .closed => 5#3

/-- Live: DECODING or CLEARED (R27). -/
def Phase.live : Phase → Bool
  | .decoding | .cleared => true
  | _ => false

/-- Terminal: EOF_SEEN, ERRORED or CLOSED (R12, R27). -/
def Phase.terminal : Phase → Bool
  | .eofSeen | .errored | .closed => true
  | _ => false

/-- The 4-bit code of a status (R80). -/
def Status.code : Status → BitVec 4
  | .ok => 0#4
  | .eof => 1#4
  | .unexpectedEof => 2#4
  | .invalidCode => 3#4
  | .sourceError => 4#4
  | .closed => 5#4
  | .badLitWidth => 6#4
  | .notConfigured => 7#4
  | .illegalCmd => 8#4
  | .internalFault => 9#4

/-- The sentinel (R25, D7): last_valid <- 0; `last` is unspecified while it is 0, so it takes a free value (log 5). -/
def State.invalidateLast (s : State) : State :=
  { s with lastValid := false, last := (Config.freeValue 12 s.freeCtr).toNat, freeCtr := s.freeCtr + 1 }

/-- last <- code; last_valid <- 1 (R103). -/
def State.setLast (s : State) (code : Nat) : State :=
  { s with last := code, lastValid := true }

/-- phase <- DECODING (R97, R108). -/
def State.setDecoding (s : State) : State := { s with phase := .decoding }

end Sys2Proof.Machine
end

