-- ==== Sys2Proof/Machine/Operands.lean ====
section
/-! DEFINITION. The operand forms: a literal byte as a code, a code as a table index, INIT's litWidth, READ's n,
and the context a code is classified in. -/

namespace Sys2Proof.Machine

/-- The code value of a LITERAL, its byte (R63, R71). -/
def literalCode (b : Byte) : Nat := b.toNat

/-- The code value of a DICT, KWKWK or INVALID code, a table index (R66, R71). -/
def codeIndex (c : Code) : Nat := c.toNat

/-- Whether INIT's 4-bit litWidth is legal, 2 to 8 (R6, R17, R134). -/
def legalLitWidth (w : BitVec 4) : Bool := decide (2 ≤ w.toNat ∧ w.toNat ≤ 8)

/-- How many bytes a READ of n delivers from the queue: min(n, pend_end - pend_pos) (R136). -/
def deliverCount (s : State) (n : BitVec 16) : Nat := min n.toNat (s.pendEnd - s.pendPos)

/-- What the classification reads of the state (R62). -/
def State.codeCtx (s : State) : CodeCtx :=
  { clear := s.clear, eof := s.eof, width := s.width, hi := s.hi, lastValid := s.lastValid }

end Sys2Proof.Machine
end

