-- ==== Sys2Proof/Machine/Delivery.lean ====
section
/-! DEFINITION. The stream adapter's read contract: delivery, the loop of READ, the flush and the end of a pass. -/

namespace Sys2Proof.Machine

/-- [OutRead(p), ..., OutRead(p + k - 1)] (R136). -/
def outWindow (s : State) : Nat → Nat → Except Fault (List Byte)
  | _, 0 => .ok []
  | p, k + 1 =>
    match outRead s p with
    | .error f => .error f
    | .ok b =>
      match outWindow s (p + 1) k with
      | .error f => .error f
      | .ok bs => .ok (b :: bs)

/-- pend_pos <- pend_pos + k (R136). -/
def State.takePending (s : State) (k : Nat) : State := { s with pendPos := s.pendPos + k }

/-- READ's delivery step (R136): k bytes of the queue, status OK. -/
def deliver (n : BitVec 16) (s : State) : Except Fault State :=
  match outWindow s s.pendPos (deliverCount s n) with
  | .error f => .error f
  | .ok data =>
    .ok ((s.takePending (deliverCount s n)).respond (.read .ok (BitVec.ofNat 16 (deliverCount s n)) data none))

/-- READ's terminal step (R137): the stored condition, no bytes, and the payload with SOURCE_ERROR. -/
def respondStored (s : State) : State :=
  s.respond (.read s.cond 0#16 [] (if s.cond = .sourceError then some s.condPayload else none))

/-- A decode pass is in service for a READ of n (R138, R142). -/
def State.startPass (s : State) (n : BitVec 16) : State := { s with busy := some n }

/-- One turn of READ's loop (R136 to R138, R165): deliver, else report, else a decode pass is in service. -/
def readLoop (n : BitVec 16) (s : State) : Except Fault State :=
  if s.pendPos < s.pendEnd then deliver n s
  else if s.phase.terminal then .ok (respondStored s)
  else .ok (s.startPass n)

/-- FLUSH (R127). -/
def State.flush (s : State) : State :=
  { s with pendPos := 0, pendEnd := s.o, o := 0 }

/-- The end of a decode pass (R142): the flush, then the READ in service turns its loop again (R138). -/
def endPass (s : State) : Except Fault State :=
  match s.busy with
  | some n => readLoop n s.flush
  | none => .ok s.flush

/-- The flush check after a trailer (R107): STOP when o has reached the threshold. -/
def flushCheck (s : State) : Except Fault State :=
  if Config.flushThreshold ≤ s.o then endPass s else .ok s

end Sys2Proof.Machine
end

