-- ==== Sys2Proof/Machine/Extractor.lean ====
section
/-! DEFINITION. The bit extractor on the state (40_bit_extractor): one Fetch transaction, and EXTRACT. -/

namespace Sys2Proof.Machine

/-- NEXT_CODE needs another byte (R86). -/
def needsFetch (s : State) : Bool := decide (s.nBits < s.width)

/-- INSERT (R87, R88). -/
def State.insertByte (s : State) (b : Byte) : State :=
  { s with bits := insertBits s.order s.bits s.nBits b, nBits := s.nBits + 8 }

/-- The code EXTRACT takes (R89, R90). -/
def State.nextCode (s : State) : Code := extractCode s.order s.bits s.width

/-- The accumulator after EXTRACT (R89, R90). -/
def State.dropCode (s : State) : State :=
  { s with bits := extractRest s.order s.bits s.width, nBits := s.nBits - s.width }

/-- A Fetch answered with `a`, the answers left being `rest` (R44, R14). -/
def State.answered (s : State) (a : Answer) (rest : List SourceWord) : State :=
  { s with source := rest, trace := .fetch a :: s.trace }

/-- The byte source's next answer and what it has to give after it before it starts over (R44; log 2): the next of
`source`, else the first of `sourceLoop`. -/
def State.nextAnswer (s : State) : Option (SourceWord × List SourceWord) :=
  match s.source with
  | w :: rest => some (w, rest)
  | [] =>
    match s.sourceLoop with
    | w :: rest => some (w, rest)
    | [] => none

/-- One Fetch transaction (R86, R91, R97). With no answer yet the READ waits (R177): the state stays. -/
def fetchByte (s : State) : Host.Outcome State Fault Refusal :=
  match s.nextAnswer with
  | none => .next s
  | some (w, rest) =>
    match decodeAnswer w with
    | .byte b => .next ((s.answered (.byte b) rest).insertByte b)
    | .endOfInput => finish (endPass ((s.answered .endOfInput rest).terminate .unexpectedEof none))
    | .err e => finish (endPass ((s.answered (.err e) rest).terminate .sourceError (some e)))
    | .reservedTag => .refused .reservedAnswer

/-- The host's next word is taken for service (R132). -/
def State.takeCommand (s : State) (w : CmdWord) (rest : List HostAct) : State :=
  { s with host := rest, trace := .command w :: s.trace }

end Sys2Proof.Machine
end

