-- ==== Sys2Proof/Machine/Table.lean ====
section
/-! DEFINITION. The code table (41_code_table): the trailer, and LITERAL, CLEAR, EOF and INVALID. -/

namespace Sys2Proof.Machine

/-- SEAL (R124), which is also LITERAL's table write (R99, R125): when last_valid, SUF[hi] <- head, PRE[hi] <- last. -/
def sealEntry (head : Nat) (s : State) : Except Fault State :=
  if s.lastValid then
    match sufWrite s s.hi head with
    | .error f => .error f
    | .ok s' => preWrite s' s'.hi s'.last
  else .ok s

/-- hi <- hi + 1 (R103). -/
def State.bumpHi (s : State) : State := { s with hi := s.hi + 1 }

/-- Width growth (R104). -/
def State.grow (s : State) : State := { s with width := s.width + 1, overflow := 2 ^ (s.width + 1) }

/-- The table is full (R105): last_valid <- 0, hi <- hi - 1. -/
def State.rollBack (s : State) : State := { s.invalidateLast with hi := s.hi - 1 }

/-- The trailer after its increment of hi (R103): growth, roll-back, or the internal fault (R106, D15; log 12). -/
def growthCheck (s : State) : Except Fault State :=
  if s.overflow ≤ s.hi then
    if s.overflow < s.hi then .error .internalFault
    else if s.width = Config.maxWidth then .ok s.rollBack
    else .ok s.grow
  else .ok s

/-- TRAILER (R103). -/
def trailer (code : Nat) (s : State) : Except Fault State := growthCheck (s.setLast code).bumpHi

/-- The end of a LITERAL, DICT or KWKWK step (R97): phase <- DECODING, the trailer, the flush check. -/
def endStep (code : Nat) (s : State) : Except Fault State :=
  match trailer code s.setDecoding with
  | .error f => .error f
  | .ok s' => flushCheck s'

/-- o <- o + n (R99, R122). -/
def State.advanceO (s : State) (n : Nat) : State := { s with o := s.o + n }

/-- OutWrite(o, v); o <- o + 1 (R99). -/
def putByte (v : Nat) (s : State) : Except Fault State :=
  match outWrite s s.o v with
  | .error f => .error f
  | .ok s' => .ok (s'.advanceO 1)

/-- LITERAL as an operation (R99, R97). -/
def literalStep (code : Nat) (s : State) : Except Fault State :=
  match putByte code s with
  | .error f => .error f
  | .ok s₁ =>
    match sealEntry code s₁ with
    | .error f => .error f
    | .ok s₂ => endStep code s₂

/-- LITERAL (R99). -/
def execLiteral (b : Byte) (s : State) : Host.Outcome State Fault Refusal :=
  finish (literalStep (literalCode b) s)

/-- The registers CLEAR writes (R100); the entries of the arrays stay and are stale from now on (R46; log 9). -/
def State.clearTable (s : State) : State :=
  { s.invalidateLast with
    width := s.litWidth + 1, hi := s.eof, overflow := 2 ^ (s.litWidth + 1), phase := .cleared
    sufFresh := [], preFresh := [] }

/-- CLEAR (R100): no trailer, no flush check. -/
def execClear (s : State) : Host.Outcome State Fault Refusal := .next s.clearTable

/-- EOF (R101): terminate(EOF), which ends the pass. -/
def execEof (s : State) : Host.Outcome State Fault Refusal := finish (endPass (s.terminate .eof none))

/-- INVALID (R102): terminate(INVALID_CODE); the code is not recorded (R154). -/
def execInvalid (_code : Code) (s : State) : Host.Outcome State Fault Refusal :=
  finish (endPass (s.terminate .invalidCode none))

end Sys2Proof.Machine
end

