-- ==== Sys2Proof/Machine/Expansion.lean ====
section
/-! DEFINITION. Code expansion and output assembly (42_expansion): WALK, HEAD, ASSEMBLE, DICT and KWKWK. -/

namespace Sys2Proof.Machine

/-- The most entries a chain can have: one per slot of the table (R111; log 10). -/
def chainFuel : Nat := Config.tableSize

/-- WALK (R117): from code c, writing at OUT[i] and down; answers the literal it ends on, the index of that byte, and
the state. Fuel stands for the bound R111. -/
def walk : Nat → Nat → Nat → State → Except Fault (Nat × Nat × State)
  | fuel, c, i, s =>
    if c < s.clear then
      match outWrite s i c with
      | .error f => .error f
      | .ok s' => .ok (c, i, s')
    else
      match fuel with
      | 0 => .error .chainUnterminated
      | fuel' + 1 =>
        match sufRead s c with
        | .error f => .error f
        | .ok b =>
          match outWrite s i b.toNat with
          | .error f => .error f
          | .ok s' =>
            match preRead s' c with
            | .error f => .error f
            | .ok p => walk fuel' p.toNat (i - 1) s'

/-- HEAD (R118): the literal at the bottom of c's chain; reads PRE only. -/
def headOf (s : State) : Nat → Nat → Except Fault Nat
  | fuel, c =>
    if c < s.clear then .ok c
    else
      match fuel with
      | 0 => .error .chainUnterminated
      | fuel' + 1 =>
        match preRead s c with
        | .error f => .error f
        | .ok p => headOf s fuel' p.toNat

/-- exp(c), the definition R120: what WALK writes and ASSEMBLE copies, oldest byte first. No meaning calls it; it is the
clear form that claims about DICT and KWKWK are stated with. -/
def expansion (s : State) : Nat → Nat → Except Fault (List Byte)
  | fuel, c =>
    if c < s.clear then .ok [BitVec.ofNat 8 c]
    else
      match fuel with
      | 0 => .error .chainUnterminated
      | fuel' + 1 =>
        match sufRead s c with
        | .error f => .error f
        | .ok b =>
          match preRead s c with
          | .error f => .error f
          | .ok p =>
            match expansion s fuel' p.toNat with
            | .error f => .error f
            | .ok bs => .ok (bs ++ [b])

/-- The copy of ASSEMBLE (R122), ascending: n bytes from src on to dst on. -/
def copyUp : Nat → Nat → Nat → State → Except Fault State
  | 0, _, _, s => .ok s
  | n + 1, src, dst, s =>
    match outRead s src with
    | .error f => .error f
    | .ok b =>
      match outWrite s dst b.toNat with
      | .error f => .error f
      | .ok s' => copyUp n (src + 1) (dst + 1) s'

/-- ASSEMBLE (R122): the tail from i on is copied to o, and o advances. -/
def assembleTail (i : Nat) (s : State) : Except Fault State :=
  match copyUp (Config.outSize - i) i s.o s with
  | .error f => .error f
  | .ok s' => .ok (s'.advanceO (Config.outSize - i))

/-- What DICT and KWKWK end with: the walk from c at index i, ASSEMBLE, SEAL, and the end of the step (R115, R116, R97). -/
def expandStep (code c i : Nat) (s : State) : Except Fault State :=
  match walk chainFuel c i s with
  | .error f => .error f
  | .ok (head, top, s₁) =>
    match assembleTail top s₁ with
    | .error f => .error f
    | .ok s₂ =>
      match sealEntry head s₂ with
      | .error f => .error f
      | .ok s₃ => endStep code s₃

/-- DICT as an operation (R115): the walk starts at OUT[8191] (R119). -/
def dictStep (code : Nat) (s : State) : Except Fault State := expandStep code code (Config.outSize - 1) s

/-- KWKWK as an operation (R116): the head byte of last at OUT[8191], then last's chain below it. -/
def kwkwkStep (code : Nat) (s : State) : Except Fault State :=
  match headOf s chainFuel s.last with
  | .error f => .error f
  | .ok h =>
    match outWrite s (Config.outSize - 1) h with
    | .error f => .error f
    | .ok s₁ => expandStep code s₁.last (Config.outSize - 2) s₁

/-- DICT (R115). -/
def execDict (code : Code) (s : State) : Host.Outcome State Fault Refusal := finish (dictStep (codeIndex code) s)

/-- KWKWK (R116). -/
def execKwkwk (code : Code) (s : State) : Host.Outcome State Fault Refusal := finish (kwkwkStep (codeIndex code) s)

end Sys2Proof.Machine
end

