-- ==== Sys2Proof/Machine/Commands.lean ====
section
/-! DEFINITION. The host commands (43_stream_adapter): INIT, READ, CLOSE and the reserved words. -/

namespace Sys2Proof.Machine

/-- INIT (R133, R134), accepted in every phase. -/
def execInit (ord : Order) (w : BitVec 4) (s : State) : Host.Outcome State Fault Refusal :=
  whenIdle s <| .next <|
    if legalLitWidth w then (s.startStream ord w.toNat).respond (.status .ok)
    else s.failStream.respond (.status .badLitWidth)

/-- READ (R136 to R139): NOT_CONFIGURED before any INIT, else the first turn of its loop. -/
def execRead (n : BitVec 16) (s : State) : Host.Outcome State Fault Refusal :=
  whenIdle s <|
    if s.phase = .unconfigured then .next (s.respond (.read .notConfigured 0#16 [] none))
    else finish (readLoop n s)

/-- phase <- CLOSED; cond <- CLOSED (R144). -/
def State.setClosed (s : State) : State := { s with phase := .closed, cond := .closed }

/-- CLOSE (R144): phase and cond, the queue kept. -/
def execClose (s : State) : Host.Outcome State Fault Refusal :=
  whenIdle s <| .next <| s.setClosed.respond (.status .ok)

/-- A reserved command word (R147): ILLEGAL_CMD and no state change. -/
def execReserved (_word : CmdWord) (s : State) : Host.Outcome State Fault Refusal :=
  whenIdle s <| .next <| s.respond (.status .illegalCmd)

end Sys2Proof.Machine
end

