-- ==== Sys2Proof/Machine/Dispatch.lean ====
section
/-! DEFINITION. exec: one arm per constructor of Instr. -/

namespace Sys2Proof.Machine

def exec (i : Instr) (s : State) : Host.Outcome State Fault Refusal :=
  match i with
  | .literal b => Sys2Proof.Machine.execLiteral b s
  | .clear => Sys2Proof.Machine.execClear s
  | .eof => Sys2Proof.Machine.execEof s
  | .kwkwk code => Sys2Proof.Machine.execKwkwk code s
  | .dict code => Sys2Proof.Machine.execDict code s
  | .invalid code => Sys2Proof.Machine.execInvalid code s
  | .init ord w => Sys2Proof.Machine.execInit ord w s
  | .read n => Sys2Proof.Machine.execRead n s
  | .close => Sys2Proof.Machine.execClose s
  | .reserved w => Sys2Proof.Machine.execReserved w s

end Sys2Proof.Machine
end

