-- ==== Sys2Proof/Machine/Step.lean ====
section
/-! DEFINITION. One step of the machine, and the word of an instruction put where the next step fetches it. -/

namespace Sys2Proof.Machine

/-- One step: a host word presented over an unfinished command has no meaning (R146); while a READ is in service, one
Fetch transaction (R86), or EXTRACT and the meaning of the code (R97); otherwise the host's next command (R132); with
nothing presented the block is idle and stays as it is. -/
def step (s : State) : Host.Outcome State Fault Refusal :=
  match s.host with
  | .overlap _ :: _ => .refused .overlappingCommand
  | acts =>
    match s.busy with
    | some _ =>
      if needsFetch s then fetchByte s
      else exec (classify s.codeCtx s.nextCode) s.dropCode
    | none =>
      match acts with
      | .issue w :: rest => exec (decodeCommand w) (s.takeCommand w rest)
      | _ => .next s

/-- The host queue without overlapping words at its head. -/
def dropOverlaps : List HostAct → List HostAct
  | .overlap _ :: rest => dropOverlaps rest
  | acts => acts

/-- s with the instruction of a table word where step fetches next (log 14). A row of more than 16 bits is the host's next
command. A row of at most 16 bits is a code: the block stands right after INIT LSB, 8, a READ 1 and the two Fetches that
delivered the code's bytes, so it is the next code. -/
def State.withFetchWord (s : State) (nbits w : Nat) : State :=
  if nbits ≤ 16 then
    { s with
      order := .lsb, litWidth := 8, clear := 256, eof := 257, width := 9, hi := 257, overflow := 512
      lastValid := false, o := 0, pendPos := 0, pendEnd := 0, phase := .cleared, cond := .ok
      suf := [], pre := [], out := [], sufFresh := [], preFresh := []
      bits := BitVec.ofNat 32 (w % 2 ^ nbits), nBits := 16
      busy := some 1#16, host := dropOverlaps s.host }
  else
    { s with busy := none, host := .issue (BitVec.ofNat 32 (w % 2 ^ nbits)) :: s.host }

end Sys2Proof.Machine
end

