-- ==== Sys2Proof/Safety.lean ====
section
/-! DEFINITION. What counts as a safe run, the situations a claim about a run speaks of (R14, R186), the invariant of
the block (R15, R20 to R33), and the frames that claims about single instructions are stated with. -/

namespace Sys2Proof.Machine

/-- An outcome that is no fault. -/
def NoFault (r : Host.Outcome State Fault Refusal) : Prop := ∀ f, r ≠ .fault f

/-- Idle: no command is in service (R14, R132). -/
def State.idle (s : State) : Bool := s.busy.isNone

/-- A READ waits on a Fetch the byte source has not answered (R14, R177): not a final state. -/
def State.waiting (s : State) : Bool := s.busy.isSome && needsFetch s && s.nextAnswer.isNone

/-- The byte source's next answer is `a`, and `rest` stands before it starts over (R44; log 2). -/
def Offers (s : State) (a : SourceWord) (rest : List SourceWord) : Prop :=
  s.source = a :: rest ∨ (s.source = [] ∧ s.sourceLoop = a :: rest)

/-- The run has ended (R186): idle, the last response is a READ's with a status other than OK and NOT_CONFIGURED, and
the host issues no further command. -/
def State.ended (s : State) : Bool :=
  s.idle && s.host.isEmpty &&
  match s.trace with
  | .response (.read st _ _ _) :: _ => decide (st ≠ .ok ∧ st ≠ .notConfigured)
  | _ => false

/-- The bytes of the READ responses observed, oldest first (R130, R148). -/
def deliveredBytes : List Event → List Byte
  | [] => []
  | .response (.read _ _ data _) :: es => deliveredBytes es ++ data
  | _ :: es => deliveredBytes es

/-- How many responses have been observed (R78). -/
def responseCount : List Event → Nat
  | [] => 0
  | .response _ :: es => responseCount es + 1
  | _ :: es => responseCount es

/-- How many Fetches have been answered (R14, R85). -/
def fetchCount : List Event → Nat
  | [] => 0
  | .fetch _ :: es => fetchCount es + 1
  | _ :: es => fetchCount es

/-! ## The invariant -/

/-- Every byte of [lo, hi) is written. -/
def Listed (m : Memory Byte) (lo hi : Nat) : Prop := ∀ i, lo ≤ i → i < hi → ∃ b, Memory.read m i = some b

/-- The bytes of `bs` stand in OUT from p on. -/
def HoldsBytes (s : State) (p : Nat) (bs : List Byte) : Prop :=
  ∀ k b, bs[k]? = some b → outByte s (p + k) = b

/-- Every register fits its width (R15). -/
structure Widths (s : State) : Prop where
  litWidth : s.litWidth < 2 ^ 4
  clear    : s.clear < 2 ^ 9
  eof      : s.eof < 2 ^ 9
  nBits    : s.nBits < 2 ^ 5
  width    : s.width < 2 ^ 4
  hi       : s.hi < 2 ^ 13
  overflow : s.overflow < 2 ^ 13
  last     : s.last < 2 ^ 12
  o        : s.o < 2 ^ 13
  pendPos  : s.pendPos < 2 ^ 13
  pendEnd  : s.pendEnd < 2 ^ 13

/-- The arrays are in canonical form and inside their spaces (R38). -/
structure ArraysOk (s : State) : Prop where
  suf      : Memory.wf Config.tableSize s.suf = true
  pre      : Memory.wf Config.tableSize s.pre = true
  out      : Memory.wf Config.outSize s.out = true
  sufFresh : risingFrom Config.tableSize 0 s.sufFresh = true
  preFresh : risingFrom Config.tableSize 0 s.preFresh = true

/-- The stored condition of each phase (R28; UNCONFIGURED by R35). -/
def condOk : Phase → Status → Prop
  | .unconfigured, c => c = .ok
  | .decoding, c => c = .ok
  | .cleared, c => c = .ok
  | .eofSeen, c => c = .eof
  | .closed, c => c = .closed
  | .errored, c => c = .unexpectedEof ∨ c = .invalidCode ∨ c = .sourceError ∨ c = .badLitWidth ∨ c = .internalFault

/-- The accumulator's bits outside the valid ones are 0 (R20, R93). -/
def AccOk (ord : Order) (bits : AccWord) (nBits : Nat) : Prop :=
  match ord with
  | .lsb => bits.toNat < 2 ^ nBits
  | .msb => bits.toNat % 2 ^ (32 - nBits) = 0

/-- The pending queue (R29): its bounds, and every byte of it is written. -/
structure QueueOk (s : State) : Prop where
  order  : s.pendPos ≤ s.pendEnd
  bound  : s.pendEnd ≤ 8186
  listed : Listed s.out s.pendPos s.pendEnd

/-- A slot written in the current epoch, whose chain goes on below it (R33(c)). -/
structure EntryOk (s : State) (c : Nat) : Prop where
  sufFresh : c ∈ s.sufFresh
  preFresh : c ∈ s.preFresh
  suf      : ∃ b, Memory.read s.suf c = some b
  pre      : ∃ p, Memory.read s.pre c = some p ∧ p.toNat < c ∧ p.toNat ≠ s.clear ∧ p.toNat ≠ s.eof

/-- The slots of the current epoch end here: at hi, or after slot hi when the table is full (R33(c), R105). -/
def tableEnd (s : State) : Nat :=
  if s.lastValid then s.hi else if s.hi = s.eof then s.hi else s.hi + 1

/-- What holds in a live phase, between the transactions of the block (R17 to R25, R33, R69, R92, R93). -/
structure StreamOk (s : State) : Prop where
  litWidth : 2 ≤ s.litWidth ∧ s.litWidth ≤ 8
  clear    : s.clear = 2 ^ s.litWidth
  eof      : s.eof = s.clear + 1
  width    : s.litWidth + 1 ≤ s.width ∧ s.width ≤ Config.maxWidth
  overflow : s.overflow = 2 ^ s.width
  hi       : s.eof ≤ s.hi ∧ s.hi < s.overflow
  hiLow    : 2 ^ (s.width - 1) ≤ s.hi
  epoch    : s.phase = .cleared ↔ s.hi = s.eof
  sentinel : s.lastValid = false → s.hi = s.eof ∨ (s.hi = 4095 ∧ s.width = 12)
  valid    : s.lastValid = true → s.eof < s.hi ∧ s.last < s.hi ∧ s.last ≠ s.clear ∧ s.last ≠ s.eof
  acc      : AccOk s.order s.bits s.nBits
  nBits    : s.nBits ≤ s.width + 7
  nBitsIdle : s.busy = none → s.nBits ≤ 7
  table    : ∀ c, s.clear + 2 ≤ c → c < tableEnd s → EntryOk s c

/-- What holds while a decode pass is in service (R26, R29, R142). -/
structure PassOk (s : State) : Prop where
  live   : s.phase.live = true
  empty  : s.pendPos = s.pendEnd
  o      : s.o ≤ 4095
  listed : Listed s.out 0 s.o

/-- The invariant of the block. -/
structure Inv (s : State) : Prop where
  widths : Widths s
  arrays : ArraysOk s
  cond   : condOk s.phase s.cond
  queue  : QueueOk s
  idle   : s.busy = none → s.o = 0
  pass   : s.busy.isSome = true → PassOk s
  stream : s.phase.live = true → StreamOk s

/-! ## What a claim about every error payload, every scratch byte or an endless input speaks of -/

/-- A next state changed by g; a fault or a refusal as it is. -/
def mapNext (g : State → State) : Host.Outcome State Fault Refusal → Host.Outcome State Fault Refusal
  | .next s => .next (g s)
  | .fault r => .fault r
  | .refused r => .refused r

/-- A Fetch answer on the interface with its payload renamed. -/
def renameWord (f : SrcErr → SrcErr) (a : SourceWord) : SourceWord := { a with err := f a.err }

/-- An observation with its payload renamed. -/
def renameEvent (f : SrcErr → SrcErr) : Event → Event
  | .fetch (.err e) => .fetch (.err (f e))
  | .response (.read st k data payload) => .response (.read st k data (payload.map f))
  | e => e

/-- The state with every error payload in it renamed (R7). -/
def State.rename (f : SrcErr → SrcErr) (s : State) : State :=
  { s with
    condPayload := f s.condPayload, source := s.source.map (renameWord f), sourceLoop := s.sourceLoop.map (renameWord f)
    trace := s.trace.map (renameEvent f) }

/-- The live bytes of OUT (R129): [0, o) of a pass, and the pending window. -/
def LiveByte (s : State) (i : Nat) : Prop := i < s.o ∨ (s.pendPos ≤ i ∧ i < s.pendEnd)

/-- The k-th answer the byte source has still to give, none where it never gives one. -/
def State.answerAt (s : State) (k : Nat) : Option SourceWord :=
  match s.source[k]? with
  | some a => some a
  | none => s.sourceLoop[(k - s.source.length) % s.sourceLoop.length]?

/-- The j-th stream bit the block has still to turn into codes: the accumulator's, then the bytes to come; none where no byte
comes. -/
def State.streamBit (s : State) (j : Nat) : Option Bool :=
  if j < s.nBits then (accBits s.order s.bits s.nBits)[j]?
  else
    match s.answerAt ((j - s.nBits) / 8) with
    | some a => if a.tag = 0#2 then (byteBits s.order a.byte)[(j - s.nBits) % 8]? else none
    | none => none

/-- A READ is in service right after a CLEAR, and from here on the input supplies CLEAR codes without end (R180). -/
structure Flooded (s : State) : Prop where
  service  : s.busy.isSome = true
  host     : ∀ w rest, s.host ≠ .overlap w :: rest
  litWidth : 2 ≤ s.litWidth ∧ s.litWidth ≤ 8
  clear    : s.clear = 2 ^ s.litWidth
  width    : s.width = s.litWidth + 1
  acc      : AccOk s.order s.bits s.nBits
  nBits    : s.nBits ≤ s.width + 7
  bits     : ∀ j, s.streamBit j = (codeBits s.order s.width (BitVec.ofNat 12 s.clear))[j % s.width]?

/-! ## Frames and results -/

/-- The configuration registers are unchanged (R16 to R19), and OUT keeps its free contents where it is not written (log 8). -/
abbrev SameConfig (s t : State) : Prop :=
  t.order = s.order ∧ t.litWidth = s.litWidth ∧ t.clear = s.clear ∧ t.eof = s.eof ∧ t.outFree = s.outFree

/-- The accumulator is unchanged. -/
abbrev SameAcc (s t : State) : Prop := t.bits = s.bits ∧ t.nBits = s.nBits

/-- The pending queue's pointers are unchanged. -/
abbrev SameQueue (s t : State) : Prop := t.pendPos = s.pendPos ∧ t.pendEnd = s.pendEnd

/-- The stored condition and payload are unchanged. -/
abbrev SameCond (s t : State) : Prop := t.cond = s.cond ∧ t.condPayload = s.condPayload

/-- SUF, PRE and which of their slots are of the current epoch are unchanged. -/
abbrev SameArrays (s t : State) : Prop :=
  t.suf = s.suf ∧ t.pre = s.pre ∧ t.sufFresh = s.sufFresh ∧ t.preFresh = s.preFresh

/-- The table's registers are unchanged, and no free value is drawn. -/
abbrev SameTable (s t : State) : Prop :=
  t.width = s.width ∧ t.hi = s.hi ∧ t.overflow = s.overflow ∧ t.lastValid = s.lastValid ∧ t.last = s.last ∧
  t.freeCtr = s.freeCtr

/-- What the host and the byte source have still to do is unchanged. -/
abbrev SameAgents (s t : State) : Prop := t.host = s.host ∧ t.source = s.source ∧ t.sourceLoop = s.sourceLoop

/-- No READ begins or ends and nothing is observed. -/
abbrev SameService (s t : State) : Prop := t.busy = s.busy ∧ t.trace = s.trace

/-- What SEAL and LITERAL's table write leave (R99, R124, R125): with last_valid, slot hi of both arrays and nothing else;
without it, nothing. -/
def Sealed (s t : State) (v : Byte) : Prop :=
  if s.lastValid = true then
    Memory.read t.suf s.hi = some v ∧ Memory.read t.pre s.hi = some (BitVec.ofNat 12 s.last) ∧
    s.hi ∈ t.sufFresh ∧ s.hi ∈ t.preFresh ∧
    ∀ c, c ≠ s.hi → Memory.read t.suf c = Memory.read s.suf c ∧ Memory.read t.pre c = Memory.read s.pre c ∧
      (c ∈ t.sufFresh ↔ c ∈ s.sufFresh) ∧ (c ∈ t.preFresh ↔ c ∈ s.preFresh)
  else SameArrays s t

/-- What the trailer leaves where hi < overflow before it (R103 to R105). -/
def TrailerDone (s t : State) (code : Nat) : Prop :=
  if s.hi + 1 < s.overflow then
    t.hi = s.hi + 1 ∧ t.lastValid = true ∧ t.last = code ∧ t.width = s.width ∧ t.overflow = s.overflow ∧
    t.freeCtr = s.freeCtr
  else if s.width = 12 then
    t.hi = s.hi ∧ t.lastValid = false ∧ t.width = s.width ∧ t.overflow = s.overflow ∧ t.freeCtr = s.freeCtr + 1
  else
    t.hi = s.hi + 1 ∧ t.lastValid = true ∧ t.last = code ∧ t.width = s.width + 1 ∧ t.overflow = 2 ^ (s.width + 1) ∧
    t.freeCtr = s.freeCtr

/-- A READ of n answered with the first bytes of a queue of `len` bytes that stands at OUT[0] in t (R127, R136): what the
end of a pass leaves of it. -/
def QueueServed (s t : State) (n : BitVec 16) (len : Nat) : Prop :=
  t.o = 0 ∧ t.pendEnd = len ∧ t.pendPos = min n.toNat len ∧ t.busy = none ∧
  ∃ data, data.length = min n.toNat len ∧ HoldsBytes t 0 data ∧
    t.trace = .response (.read .ok (BitVec.ofNat 16 (min n.toNat len)) data none) :: s.trace

/-- A READ of n ended by a terminal condition (R98, R127, R137, R141): the bytes of OUT[0 : o] are flushed and served
with OK if there are any, else the condition is reported. -/
def PassEnded (s t : State) (n : BitVec 16) (c : Status) (payload : Option SrcErr) : Prop :=
  t.cond = c ∧ t.out = s.out ∧
  (if 0 < s.o then QueueServed s t n s.o
   else t.o = 0 ∧ t.pendPos = 0 ∧ t.pendEnd = 0 ∧ t.busy = none ∧
     t.trace = .response (.read c 0#16 [] payload) :: s.trace) ∧
  SameConfig s t ∧ SameTable s t ∧ SameArrays s t

end Sys2Proof.Machine
end

