-- ==== Sys2Proof/Certificates/Slice0/Obligations.lean ====
section
/-! DEFINITION. The statements for the provers. Each docstring names the rules of spec/ it formalises. -/

open Sys2Proof Sys2Proof.Machine

/-! ## Encodings -/

/-- R63 to R65, R74 to R76: a few words written out from the spec. -/
def Obligations.TableWordsDecode : Prop :=
  decodeTableWord 16 0x068 = some (.literal 0x68#8) ∧ decodeTableWord 16 0x100 = some .clear ∧
  decodeTableWord 16 0x101 = some .eof ∧ decodeTableWord 32 0x00000801 = some (.init .lsb 8#4) ∧
  decodeTableWord 32 0x00000211 = some (.init .msb 2#4) ∧ decodeTableWord 32 0x000A0002 = some (.read 10#16) ∧
  decodeTableWord 32 0x00000003 = some .close ∧ decodeTableWord 32 0x00000012 = some (.reserved 0x00000012#32)

/-- Decode and encode agree on every instruction (R62 to R68, R73 to R77). -/
def Obligations.DecodeOfEncode : Prop :=
  ∀ (c : CodeCtx) (i : Instr), c.legal = true → wellFormed c i = true → decode c (encode c i) = i

/-- No bit of a command word is dropped: every word is the encoding of what it decodes to, and that is well-formed (R73 to R77). -/
def Obligations.EncodeOfDecodedCommand : Prop :=
  ∀ (c : CodeCtx) (w : CmdWord), encode c (decodeCommand w) = .command w ∧ wellFormed c (decodeCommand w) = true

/-- R62: the classes are disjoint and cover every value of width bits. -/
def Obligations.ClassesCoverAndExclude : Prop :=
  ∀ (c : CodeCtx) (code : Code), c.legal = true → code.toNat < 2 ^ c.width →
    wellFormed c (classify c code) = true ∧ encode c (classify c code) = .code c.width code ∧
    ∀ i, wellFormed c i = true → encode c i = .code c.width code → i = classify c code

/-- R63: the LITERAL class is the mask/match of the rule, and its operand the low litWidth bits, zero-extended. -/
def Obligations.LiteralMaskMatch : Prop :=
  ∀ (c : CodeCtx) (litWidth : Nat) (code : Code), 2 ≤ litWidth → litWidth ≤ 8 → litWidth < c.width → c.width ≤ 12 →
    c.clear = 2 ^ litWidth → code.toNat < 2 ^ c.width →
    ((code &&& BitVec.ofNat 12 ((2 ^ c.width - 1) - (2 ^ litWidth - 1)) = 0#12 →
        classify c code = .literal ((code &&& BitVec.ofNat 12 (2 ^ litWidth - 1)).setWidth 8)) ∧
     (code &&& BitVec.ofNat 12 ((2 ^ c.width - 1) - (2 ^ litWidth - 1)) ≠ 0#12 → ∀ b, classify c code ≠ .literal b))

/-- R68, V-T7: with hi = 4095 no 12-bit code is INVALID. -/
def Obligations.FullTableHasNoInvalid : Prop :=
  ∀ (c : CodeCtx) (code code' : Code), c.hi = 4095 → classify c code ≠ .invalid code'

/-! ## The bit extractor -/

/-- R47, R48, R87, R88: INSERT appends the byte's 8 bits, in stream order, to the accumulator's valid bits. -/
def Obligations.InsertAppendsByteBits : Prop :=
  ∀ (ord : Order) (bits : AccWord) (nBits : Nat) (b : Byte), nBits ≤ 24 → AccOk ord bits nBits →
    accBits ord (insertBits ord bits nBits b) (nBits + 8) = accBits ord bits nBits ++ byteBits ord b

/-- R47, R48, R89, R90: EXTRACT takes the next width stream bits as the code and leaves the rest. -/
def Obligations.ExtractTakesCodeBits : Prop :=
  ∀ (ord : Order) (bits : AccWord) (nBits width : Nat), width ≤ 12 → width ≤ nBits → nBits ≤ 32 →
    codeBits ord width (extractCode ord bits width) = (accBits ord bits nBits).take width ∧
    accBits ord (extractRest ord bits width) (nBits - width) = (accBits ord bits nBits).drop width

/-- R93: INSERT and EXTRACT keep the bits outside the valid ones at 0. -/
def Obligations.AccumulatorStaysClean : Prop :=
  ∀ (ord : Order) (bits : AccWord) (nBits : Nat), AccOk ord bits nBits →
    (∀ b, nBits ≤ 24 → AccOk ord (insertBits ord bits nBits b) (nBits + 8)) ∧
    (∀ width, width ≤ nBits → nBits ≤ 32 → AccOk ord (extractRest ord bits width) (nBits - width))

/-- R60, R81, R83: the bytes that pack an instruction's code, and whatever follows it, decode to the instruction, and the bits
left over are those that followed and the zero padding of the last byte. -/
def Obligations.PackedStreamDecodes : Prop :=
  ∀ (ord : Order) (c : CodeCtx) (i : Instr) (v : Code) (rest : List Bool), c.legal = true → wellFormed c i = true →
    encode c i = .code c.width v →
    ∃ bits nBits bytes k,
      decodeCodeBytes ord c 0#32 0 (packBits ord (codeBits ord c.width v ++ rest) []) = .ok (i, bits, nBits, bytes) ∧
      k < 8 ∧ accBits ord bits nBits ++ bytes.flatMap (byteBits ord) = rest ++ List.replicate k false

/-! ## Steps -/

/-- A step runs the decoded code (R97): with a READ in service and the code's bits at hand, the step is the meaning of the
classified code on the state after EXTRACT. -/
def Obligations.StepRunsDecodedCode : Prop :=
  ∀ (s : State) (n : BitVec 16), (∀ w rest, s.host ≠ .overlap w :: rest) → s.busy = some n → s.width ≤ s.nBits →
    step s = exec (classify s.codeCtx (extractCode s.order s.bits s.width))
      { s with bits := extractRest s.order s.bits s.width, nBits := s.nBits - s.width }

/-- A step runs the decoded command (R132): with no command in service, the step is the meaning of the host's next word, taken
off the host's list and observed. -/
def Obligations.StepRunsDecodedCommand : Prop :=
  ∀ (s : State) (w : CmdWord) (rest : List HostAct), s.busy = none → s.host = .issue w :: rest →
    step s = exec (decodeCommand w) { s with host := rest, trace := .command w :: s.trace }

/-- The word of the opcode table's numbering that decodes to i runs as i on the very next step (the model's convention, log 14). -/
def Obligations.TableWordRunsNext : Prop :=
  ∀ (s : State) (nbits w : Nat) (i : Instr), decodeTableWord nbits w = some i →
    (nbits ≤ 16 → step (s.withFetchWord nbits w) = exec i (s.withFetchWord nbits w).dropCode) ∧
    (16 < nbits → step (s.withFetchWord nbits w) =
      exec i (({ s with busy := none } : State).takeCommand (BitVec.ofNat 32 (w % 2 ^ nbits)) s.host))

/-- R86 to R88: a Fetch answered BYTE(b) is one step: it consumes the answer, inserts the byte and changes nothing else. -/
def Obligations.FetchInsertsByte : Prop :=
  ∀ (s : State) (n : BitVec 16) (b : Byte) (a : SourceWord) (rest : List SourceWord),
    (∀ w acts, s.host ≠ .overlap w :: acts) → s.busy = some n → s.nBits < s.width → Offers s a rest →
    a.tag = 0#2 → a.byte = b →
    step s = .next { s with
      bits := match s.order with
        | .lsb => s.bits ||| (b.setWidth 32 <<< s.nBits)
        | .msb => s.bits ||| (b.setWidth 32 <<< (24 - s.nBits))
      nBits := s.nBits + 8
      source := rest
      trace := .fetch (.byte b) :: s.trace }

/-- R91, R97, R98, R153: a Fetch answered END is UNEXPECTED_EOF, whatever bits are gathered; they stay in the accumulator. -/
def Obligations.FetchEndTerminates : Prop :=
  ∀ (s : State) (n : BitVec 16) (a : SourceWord) (rest : List SourceWord),
    (∀ w acts, s.host ≠ .overlap w :: acts) → s.busy = some n → s.nBits < s.width → Offers s a rest →
    a.tag = 1#2 → s.o ≤ Config.outSize →
    ∃ t, step s = .next t ∧ t.phase = .errored ∧ t.condPayload = s.condPayload ∧
      PassEnded { s with trace := .fetch .endOfInput :: s.trace } t n .unexpectedEof none ∧
      SameAcc s t ∧ t.host = s.host ∧ t.source = rest ∧ t.sourceLoop = s.sourceLoop

/-- R91, R97, R98, R155: a Fetch answered ERR(e) is SOURCE_ERROR with payload e, reported unchanged. -/
def Obligations.FetchErrTerminates : Prop :=
  ∀ (s : State) (n : BitVec 16) (a : SourceWord) (e : SrcErr) (rest : List SourceWord),
    (∀ w acts, s.host ≠ .overlap w :: acts) → s.busy = some n → s.nBits < s.width → Offers s a rest →
    a.tag = 2#2 → a.err = e → s.o ≤ Config.outSize →
    ∃ t, step s = .next t ∧ t.phase = .errored ∧ t.condPayload = e ∧
      PassEnded { s with trace := .fetch (.err e) :: s.trace } t n .sourceError (some e) ∧
      SameAcc s t ∧ t.host = s.host ∧ t.source = rest ∧ t.sourceLoop = s.sourceLoop

/-- R79, I4: a Fetch answered with the reserved tag 3 has no meaning. -/
def Obligations.ReservedTagRefused : Prop :=
  ∀ (s : State) (n : BitVec 16) (a : SourceWord) (rest : List SourceWord),
    (∀ w acts, s.host ≠ .overlap w :: acts) → s.busy = some n → s.nBits < s.width → Offers s a rest →
    a.tag = 3#2 → step s = .refused .reservedAnswer

/-- R177: a READ whose Fetch is unanswered waits; the block does nothing. -/
def Obligations.UnansweredFetchWaits : Prop :=
  ∀ (s : State), (∀ w acts, s.host ≠ .overlap w :: acts) → s.waiting = true → step s = .next s

/-- R132: between commands the block takes no action. -/
def Obligations.IdleBlockStays : Prop :=
  ∀ (s : State), s.busy = none → s.host = [] → step s = .next s

/-- R146: a command presented while a READ has not responded is refused, by step and by each command. -/
def Obligations.OverlapRefused : Prop :=
  (∀ (s : State) (n : BitVec 16) (w : CmdWord) (rest : List HostAct), s.busy = some n → s.host = .overlap w :: rest →
    step s = .refused .overlappingCommand) ∧
  (∀ (s : State) (n : BitVec 16) (w : CmdWord), s.busy = some n →
    exec (decodeCommand w) s = .refused .overlappingCommand)

/-- R95: with no READ in service no step issues a Fetch, and INIT, CLOSE, a READ served from the pending queue and every command
in a terminal phase are over after that step. -/
def Obligations.NoFetchOutsidePass : Prop :=
  ∀ (s t : State), s.busy = none → step s = .next t →
    t.source = s.source ∧ t.sourceLoop = s.sourceLoop ∧ fetchCount t.trace = fetchCount s.trace ∧
    ∀ w rest, s.host = .issue w :: rest →
      ((∃ ord lw, decodeCommand w = .init ord lw) ∨ decodeCommand w = .close ∨
        ((∃ n, decodeCommand w = .read n) ∧ s.pendPos < s.pendEnd) ∨ s.phase.terminal = true) →
      t.busy = none

/-- R21, R92: once a code has been extracted and run, at most 7 bits are left in the accumulator. -/
def Obligations.CodeStepLeavesFewBits : Prop :=
  ∀ (s t : State) (n : BitVec 16), Inv s → s.busy = some n → s.width ≤ s.nBits → step s = .next t → t.nBits ≤ 7

/-! ## The code classes -/

/-- LITERAL below the flush threshold (R99, R103 to R105, R108): the byte, the seal, the trailer, and nothing else. -/
def Obligations.LiteralCompletes : Prop :=
  ∀ (s : State) (b : Byte), s.o + 1 < 4096 → s.hi < s.overflow → (s.lastValid = true → s.hi < 4096) →
    ∃ t, exec (.literal b) s = .next t ∧
      t.o = s.o + 1 ∧ outByte t s.o = b ∧ (∀ i, i ≠ s.o → outByte t i = outByte s i) ∧
      Sealed s t b ∧ TrailerDone s t b.toNat ∧ t.phase = .decoding ∧
      SameConfig s t ∧ SameAcc s t ∧ SameQueue s t ∧ SameCond s t ∧ SameAgents s t ∧ SameService s t

/-- LITERAL that reaches the flush threshold while a READ of n is in service (R107, R127, R136): the bytes are flushed and
the READ is answered from them. -/
def Obligations.LiteralFlushes : Prop :=
  ∀ (s : State) (b : Byte) (n : BitVec 16), s.busy = some n → 4096 ≤ s.o + 1 → s.o < 8192 →
    s.hi < s.overflow → (s.lastValid = true → s.hi < 4096) →
    ∃ t, exec (.literal b) s = .next t ∧ QueueServed s t n (s.o + 1) ∧
      outByte t s.o = b ∧ (∀ i, i ≠ s.o → outByte t i = outByte s i) ∧
      Sealed s t b ∧ TrailerDone s t b.toNat ∧ t.phase = .decoding ∧
      SameConfig s t ∧ SameAcc s t ∧ SameCond s t ∧ SameAgents s t

/-- CLEAR (R100, R173): width, hi, overflow, last_valid and phase, with no trailer; the arrays stay, every entry stale. `last` is
the sentinel's (no claim about it). -/
def Obligations.ClearCompletes : Prop :=
  ∀ (s : State), ∃ t, exec .clear s = .next t ∧
    t.width = s.litWidth + 1 ∧ t.hi = s.eof ∧ t.overflow = 2 ^ (s.litWidth + 1) ∧ t.lastValid = false ∧
    t.phase = .cleared ∧ t.suf = s.suf ∧ t.pre = s.pre ∧ t.sufFresh = [] ∧ t.preFresh = [] ∧
    t.o = s.o ∧ t.out = s.out ∧ SameConfig s t ∧ SameAcc s t ∧ SameQueue s t ∧ SameCond s t ∧
    SameAgents s t ∧ SameService s t

/-- R102: right after CLEAR every code above eof is INVALID. -/
def Obligations.FirstCodeAfterClear : Prop :=
  ∀ (s t : State) (code : Code), s.clear < s.eof → exec .clear s = .next t → s.eof < code.toNat →
    classify t.codeCtx code = .invalid code

/-- EOF while a READ of n is in service (R101, R98, R127, R137, R141). -/
def Obligations.EofCompletes : Prop :=
  ∀ (s : State) (n : BitVec 16), s.busy = some n → s.o ≤ 8192 →
    ∃ t, exec .eof s = .next t ∧ t.phase = .eofSeen ∧ t.condPayload = s.condPayload ∧ PassEnded s t n .eof none ∧
      SameAcc s t ∧ SameAgents s t

/-- INVALID while a READ of n is in service (R102, R98, R127, R137, R141). -/
def Obligations.InvalidCompletes : Prop :=
  ∀ (s : State) (code : Code) (n : BitVec 16), s.busy = some n → s.o ≤ 8192 →
    ∃ t, exec (.invalid code) s = .next t ∧ t.phase = .errored ∧ t.condPayload = s.condPayload ∧
      PassEnded s t n .invalidCode none ∧ SameAcc s t ∧ SameAgents s t

/-- DICT below the flush threshold (R115, R117, R119, R120, R122 to R124): its output is exp(code), its seal takes the head
byte of exp(code), and scratch bytes change only in the live part and the tail, which both hold the expansion. -/
def Obligations.DictCompletes : Prop :=
  ∀ (s : State) (code : Code) (head : Byte) (bs : List Byte),
    expansion s chainFuel code.toNat = .ok (head :: bs) → s.o + (bs.length + 1) < 4096 → s.hi < s.overflow →
    (s.lastValid = true → s.hi < 4096) →
    ∃ t, exec (.dict code) s = .next t ∧
      t.o = s.o + (bs.length + 1) ∧ HoldsBytes t s.o (head :: bs) ∧
      HoldsBytes t (8192 - (bs.length + 1)) (head :: bs) ∧
      (∀ i, (i < s.o ∨ s.o + (bs.length + 1) ≤ i) → i < 8192 - (bs.length + 1) ∨ 8192 ≤ i →
        outByte t i = outByte s i) ∧
      Sealed s t head ∧ TrailerDone s t code.toNat ∧ t.phase = .decoding ∧
      SameConfig s t ∧ SameAcc s t ∧ SameQueue s t ∧ SameCond s t ∧ SameAgents s t ∧ SameService s t

/-- DICT that reaches the flush threshold while a READ of n is in service (R107, R122, R123, R127): the copied expansion is
right even where the tail and the live part overlap. -/
def Obligations.DictFlushes : Prop :=
  ∀ (s : State) (code : Code) (head : Byte) (bs : List Byte) (n : BitVec 16),
    expansion s chainFuel code.toNat = .ok (head :: bs) → s.busy = some n →
    4096 ≤ s.o + (bs.length + 1) → s.o + (bs.length + 1) ≤ 8192 → s.o < 8192 - (bs.length + 1) → s.hi < s.overflow →
    (s.lastValid = true → s.hi < 4096) →
    ∃ t, exec (.dict code) s = .next t ∧ QueueServed s t n (s.o + (bs.length + 1)) ∧
      HoldsBytes t s.o (head :: bs) ∧
      (∀ i, (i < s.o ∨ s.o + (bs.length + 1) ≤ i) → i < 8192 - (bs.length + 1) ∨ 8192 ≤ i →
        outByte t i = outByte s i) ∧
      Sealed s t head ∧ TrailerDone s t code.toNat ∧ t.phase = .decoding ∧
      SameConfig s t ∧ SameAcc s t ∧ SameCond s t ∧ SameAgents s t

/-- KWKWK below the flush threshold (R116, R118, R120, R122 to R124): its output is exp(last) ++ [head(last)]. -/
def Obligations.KwkwkCompletes : Prop :=
  ∀ (s : State) (code : Code) (head : Byte) (bs : List Byte),
    expansion s chainFuel s.last = .ok (head :: bs) → s.o + (bs.length + 2) < 4096 → s.hi < s.overflow →
    (s.lastValid = true → s.hi < 4096) →
    ∃ t, exec (.kwkwk code) s = .next t ∧
      t.o = s.o + (bs.length + 2) ∧ HoldsBytes t s.o (head :: bs ++ [head]) ∧
      HoldsBytes t (8192 - (bs.length + 2)) (head :: bs ++ [head]) ∧
      (∀ i, (i < s.o ∨ s.o + (bs.length + 2) ≤ i) → i < 8192 - (bs.length + 2) ∨ 8192 ≤ i →
        outByte t i = outByte s i) ∧
      Sealed s t head ∧ TrailerDone s t code.toNat ∧ t.phase = .decoding ∧
      SameConfig s t ∧ SameAcc s t ∧ SameQueue s t ∧ SameCond s t ∧ SameAgents s t ∧ SameService s t

/-- KWKWK that reaches the flush threshold while a READ of n is in service (R107, R116, R122, R123, R127). -/
def Obligations.KwkwkFlushes : Prop :=
  ∀ (s : State) (code : Code) (head : Byte) (bs : List Byte) (n : BitVec 16),
    expansion s chainFuel s.last = .ok (head :: bs) → s.busy = some n →
    4096 ≤ s.o + (bs.length + 2) → s.o + (bs.length + 2) ≤ 8192 → s.o < 8192 - (bs.length + 2) → s.hi < s.overflow →
    (s.lastValid = true → s.hi < 4096) →
    ∃ t, exec (.kwkwk code) s = .next t ∧ QueueServed s t n (s.o + (bs.length + 2)) ∧
      HoldsBytes t s.o (head :: bs ++ [head]) ∧
      (∀ i, (i < s.o ∨ s.o + (bs.length + 2) ≤ i) → i < 8192 - (bs.length + 2) ∨ 8192 ≤ i →
        outByte t i = outByte s i) ∧
      Sealed s t head ∧ TrailerDone s t code.toNat ∧ t.phase = .decoding ∧
      SameConfig s t ∧ SameAcc s t ∧ SameCond s t ∧ SameAgents s t

/-- R46, I2: a DICT code whose slot the current epoch has not written is the fault UNWRITTEN_ENTRY. -/
def Obligations.UnwrittenEntryFaults : Prop :=
  ∀ (s : State) (code : Code), s.clear ≤ code.toNat → code.toNat ∉ s.sufFresh →
    exec (.dict code) s = .fault .unwrittenEntry

/-- R106, D15: a LITERAL, DICT or KWKWK whose trailer takes hi above overflow is the internal fault. -/
def Obligations.InternalFaultRaised : Prop :=
  ∀ (s : State), (s.lastValid = true → s.hi < 4096) → s.overflow < s.hi + 1 →
    (∀ b : Byte, s.o < 8192 → exec (.literal b) s = .fault .internalFault) ∧
    (∀ (code : Code) (bs : List Byte), expansion s chainFuel code.toNat = .ok bs → s.o + bs.length ≤ 8192 →
      exec (.dict code) s = .fault .internalFault) ∧
    (∀ (code : Code) (bs : List Byte), expansion s chainFuel s.last = .ok bs → s.o + (bs.length + 1) ≤ 8192 →
      exec (.kwkwk code) s = .fault .internalFault)

/-! ## The commands -/

/-- INIT with a legal litWidth (R133, R36), in every phase. No claim about `last`, `cond_payload` (unspecified) or the scratch bytes. -/
def Obligations.InitCompletes : Prop :=
  ∀ (s : State) (ord : Order) (w : BitVec 4), s.busy = none → 2 ≤ w.toNat → w.toNat ≤ 8 →
    ∃ t, exec (.init ord w) s = .next t ∧
      t.order = ord ∧ t.litWidth = w.toNat ∧ t.clear = 2 ^ w.toNat ∧ t.eof = 2 ^ w.toNat + 1 ∧ t.bits = 0#32 ∧
      t.nBits = 0 ∧ t.width = w.toNat + 1 ∧ t.hi = t.eof ∧ t.overflow = 2 ^ (w.toNat + 1) ∧ t.lastValid = false ∧
      t.o = 0 ∧ t.pendPos = 0 ∧ t.pendEnd = 0 ∧ t.phase = .cleared ∧ t.cond = .ok ∧
      (∀ c, Memory.read t.suf c = none ∧ Memory.read t.pre c = none) ∧
      t.busy = none ∧ t.trace = .response (.status .ok) :: s.trace ∧ SameAgents s t

/-- INIT with litWidth 0, 1 or 9 to 15 (R134, R37), in every phase. No claim about the registers R37 leaves unspecified. -/
def Obligations.InitFailureCompletes : Prop :=
  ∀ (s : State) (ord : Order) (w : BitVec 4), s.busy = none → (w.toNat < 2 ∨ 8 < w.toNat) →
    ∃ t, exec (.init ord w) s = .next t ∧
      t.phase = .errored ∧ t.cond = .badLitWidth ∧ t.pendPos = 0 ∧ t.pendEnd = 0 ∧
      t.busy = none ∧ t.trace = .response (.status .badLitWidth) :: s.trace ∧ SameAgents s t

/-- READ with bytes pending (R136, R141): the first min(n, pending) bytes of the queue, status OK, whatever condition is stored. -/
def Obligations.ReadDelivers : Prop :=
  ∀ (s : State) (n : BitVec 16), s.busy = none → s.phase ≠ .unconfigured → s.pendPos < s.pendEnd → s.pendEnd ≤ 8192 →
    ∃ t data, exec (.read n) s = .next t ∧
      data.length = min n.toNat (s.pendEnd - s.pendPos) ∧ HoldsBytes s s.pendPos data ∧
      t.trace = .response (.read .ok (BitVec.ofNat 16 data.length) data none) :: s.trace ∧
      t.pendPos = s.pendPos + data.length ∧ t.pendEnd = s.pendEnd ∧ t.busy = none ∧ t.out = s.out ∧ t.o = s.o ∧
      t.phase = s.phase ∧ SameConfig s t ∧ SameAcc s t ∧ SameCond s t ∧ SameTable s t ∧ SameArrays s t ∧ SameAgents s t

/-- READ in a terminal phase with nothing pending (R137): the stored condition, no bytes, the payload with SOURCE_ERROR. -/
def Obligations.ReadReportsStored : Prop :=
  ∀ (s : State) (n : BitVec 16), s.busy = none → s.pendEnd ≤ s.pendPos →
    (s.phase = .eofSeen ∨ s.phase = .errored ∨ s.phase = .closed) →
    exec (.read n) s = .next { s with trace := .response (.read s.cond 0#16 []
      (if s.cond = .sourceError then some s.condPayload else none)) :: s.trace }

/-- READ before any INIT (R139): NOT_CONFIGURED, no state change. -/
def Obligations.ReadBeforeInit : Prop :=
  ∀ (s : State) (n : BitVec 16), s.busy = none → s.phase = .unconfigured →
    exec (.read n) s = .next { s with trace := .response (.read .notConfigured 0#16 [] none) :: s.trace }

/-- READ in a live phase with nothing pending (R138, R142): its decode pass is in service; it has not responded. -/
def Obligations.ReadStartsPass : Prop :=
  ∀ (s : State) (n : BitVec 16), s.busy = none → s.pendEnd ≤ s.pendPos → (s.phase = .decoding ∨ s.phase = .cleared) →
    exec (.read n) s = .next { s with busy := some n }

/-- CLOSE (R144), in every phase: phase and cond, the queue kept, response OK. -/
def Obligations.CloseCompletes : Prop :=
  ∀ (s : State), s.busy = none →
    exec .close s = .next { s with phase := .closed, cond := .closed, trace := .response (.status .ok) :: s.trace }

/-- A reserved word (R77, R147), in every phase: ILLEGAL_CMD and no state change. -/
def Obligations.ReservedCompletes : Prop :=
  ∀ (s : State) (w : CmdWord), s.busy = none → isReservedWord w = true →
    exec (decodeCommand w) s = exec (.reserved w) s ∧
    exec (.reserved w) s = .next { s with trace := .response (.status .illegalCmd) :: s.trace }

/-- R148: two READs answered from the queue deliver what one READ of the sum delivers. -/
def Obligations.SplitReadsConcatenate : Prop :=
  ∀ (s t u v : State) (n m k : BitVec 16), s.phase ≠ .unconfigured → s.pendPos + n.toNat < s.pendEnd →
    k.toNat = n.toNat + m.toNat → exec (.read n) s = .next t → exec (.read m) t = .next u → exec (.read k) s = .next v →
    deliveredBytes u.trace = deliveredBytes v.trace ∧ u.pendPos = v.pendPos

/-! ## The whole machine -/

/-- R15, R20 to R33, R69, R93: every step keeps the invariant of the block. -/
def Obligations.StepKeepsInv : Prop :=
  ∀ s t : State, Inv s → step s = .next t → Inv t

/-- R35, R171: what power-on reset leaves of the registers the spec gives a value for; no entry of SUF or PRE holds a value (log 9)
and no byte of OUT is written, so every one is a free value (log 8). -/
def Obligations.PowerOnReset : Prop :=
  State.reset.phase = .unconfigured ∧ State.reset.cond = .ok ∧ State.reset.pendPos = 0 ∧ State.reset.pendEnd = 0 ∧
  State.reset.busy = none ∧ ∀ a, Memory.read State.reset.suf a = none ∧
    Memory.read State.reset.pre a = none ∧ outByte State.reset a = Config.freeByte State.reset.outFree a

/-- The invariant holds right after power-on reset (R35). -/
def Obligations.ResetHasInv : Prop := Inv State.reset

/-- R46, R106, R42, R111: from a state with the invariant no step ends in a fault. -/
def Obligations.InvStepNeverFaults : Prop :=
  ∀ s : State, Inv s → NoFault (step s)

/-- R38, R43: every instruction keeps the arrays canonical and inside their spaces. -/
def Obligations.ExecKeepsArrays : Prop :=
  ∀ (i : Instr) (s t : State), ArraysOk s → exec i s = .next t → ArraysOk t

/-- R16 to R19, R49: only INIT writes order, litWidth, clear and eof. -/
def Obligations.OnlyInitConfigures : Prop :=
  ∀ (i : Instr) (s t : State), (∀ ord w, i ≠ .init ord w) → exec i s = .next t → SameConfig s t

/-- R94: no instruction but INIT writes the accumulator after EXTRACT. -/
def Obligations.OnlyInitResetsAccumulator : Prop :=
  ∀ (i : Instr) (s t : State), (∀ ord w, i ≠ .init ord w) → exec i s = .next t → SameAcc s t

/-- R163, R166: from a terminal phase, a step that is not INIT stays terminal, keeps the condition unless it is CLOSE, and fetches
nothing. -/
def Obligations.TerminalLeftOnlyByInit : Prop :=
  ∀ s t : State, s.busy = none → s.phase.terminal = true → step s = .next t →
    (∀ w rest, s.host = .issue w :: rest → ∀ ord lw, decodeCommand w ≠ .init ord lw) →
    t.phase.terminal = true ∧ t.busy = none ∧ t.source = s.source ∧ t.sourceLoop = s.sourceLoop ∧
    ((∀ w rest, s.host = .issue w :: rest → decodeCommand w ≠ .close) → t.phase = s.phase ∧ SameCond s t)

/-- R78: a command gets exactly one response: a step adds one exactly when it ends the command in service or serves a command
that leaves none in service, and otherwise none. -/
def Obligations.OneResponsePerCommand : Prop :=
  ∀ s t : State, Inv s → step s = .next t →
    responseCount t.trace = responseCount s.trace +
      (if t.busy = none ∧ (s.busy.isSome = true ∨ s.host ≠ []) then 1 else 0)

/-- R111, R121: with the invariant every slot of the epoch expands, in at most s - clear bytes. -/
def Obligations.ExpansionBound : Prop :=
  ∀ (s : State) (c : Nat), Inv s → s.phase.live = true → s.clear + 2 ≤ c → c < tableEnd s →
    ∃ bs, expansion s chainFuel c = .ok bs ∧ 2 ≤ bs.length ∧ bs.length ≤ c - s.clear

/-- R110, R125: the entry a LITERAL, DICT or KWKWK step writes at slot hi expands to exp(last) ++ [head of the step's output]. -/
def Obligations.SealedEntryExpands : Prop :=
  ∀ (s t : State) (code : Code) (head : Byte) (bs outBytes : List Byte), Inv s → s.phase.live = true → s.lastValid = true →
    s.eof < s.hi → code.toNat ≤ s.hi → code.toNat ≠ s.clear → code.toNat ≠ s.eof →
    expansion s chainFuel s.last = .ok bs →
    (if code.toNat = s.hi then outBytes = bs ++ bs.take 1 else expansion s chainFuel code.toNat = .ok outBytes) →
    outBytes.head? = some head →
    exec (classify s.codeCtx code) s = .next t →
    expansion t chainFuel s.hi = .ok (bs ++ [head])

/-- R69: after every step that leaves a live phase, the width is the number of significant bits of hi. -/
def Obligations.WidthIsSignificantBits : Prop :=
  ∀ s t : State, Inv s → step s = .next t → t.phase.live = true → t.width = Nat.log2 t.hi + 1

/-- R70, R81, R103 to R105, R181: the width tracking a producer does agrees with the block's after every code that does not end
the pass with a condition. -/
def Obligations.ProducerTracksDecoder : Prop :=
  ∀ (s t : State) (code : Code), Inv s → s.phase.live = true → code.toNat < 2 ^ s.width → code.toNat ≤ s.hi →
    code.toNat ≠ s.eof → exec (classify s.codeCtx code) s = .next t → t.codeCtx = trackCode s.codeCtx code

/-- R27, R80: the phase and status codes, in the order of their tables. -/
def Obligations.PhaseAndStatusCodes : Prop :=
  [Phase.unconfigured, .decoding, .cleared, .eofSeen, .errored, .closed].map Phase.code = [0#3, 1#3, 2#3, 3#3, 4#3, 5#3] ∧
  [Status.ok, .eof, .unexpectedEof, .invalidCode, .sourceError, .closed, .badLitWidth, .notConfigured, .illegalCmd,
    .internalFault].map Status.code = [0#4, 1#4, 2#4, 3#4, 4#4, 5#4, 6#4, 7#4, 8#4, 9#4]

/-! ## Open parameters, scratch and endless input -/

/-- R7, D5: the Decoder stores and returns error payloads and never inspects them: renaming every payload in a state renames
them in the outcome of a step and changes nothing else, but that INIT leaves cond_payload a free value (log 5). -/
def Obligations.PayloadsNeverInspected : Prop :=
  ∀ (f : SrcErr → SrcErr) (s : State),
    ((s.busy = none → ∀ w rest, s.host = .issue w :: rest → ∀ ord lw, decodeCommand w ≠ .init ord lw) →
      step (s.rename f) = mapNext (State.rename f) (step s)) ∧
    (∀ w rest ord lw, s.busy = none → s.host = .issue w :: rest → decodeCommand w = .init ord lw →
      ∃ t, step s = .next t ∧ step (s.rename f) = .next { t.rename f with condPayload := t.condPayload })

/-- R129, I12: no step reads a byte of OUT outside the live regions before writing it: with any other contents there the step
does the same, and again only bytes outside the live regions differ. -/
def Obligations.DeadScratchNeverRead : Prop :=
  ∀ (s t : State) (m : Memory Byte) (k : Nat), Inv s → step s = .next t →
    (∀ i, LiveByte s i → Memory.read m i = Memory.read s.out i) →
    ∃ m' k', step { s with out := m, outFree := k } = .next { t with out := m', outFree := k' } ∧
      ∀ i, LiveByte t i → Memory.read m' i = Memory.read t.out i

/-- R180, I6: a READ whose input supplies CLEAR codes without end never responds, and never waits either: every number of
steps from there on leaves it in service in such a state. Nothing else can do so: every code but CLEAR ends the pass or
advances o. -/
def Obligations.OnlyClearFloodHangs : Prop :=
  (∀ (s : State) (k : Nat), Flooded s →
    ∃ t, Host.Core.run core k s = .next t ∧ Flooded t ∧ t.waiting = false ∧ t.busy = s.busy ∧
      responseCount t.trace = responseCount s.trace ∧ t.o = s.o) ∧
  (∀ (s t : State) (n : BitVec 16), Inv s → s.busy = some n → s.width ≤ s.nBits → s.nextCode.toNat ≠ s.clear →
    step s = .next t → t.busy = none ∨ s.o < t.o)
end

