-- ==== Sys2Proof/Laws/State.lean ====
section
/-! SUPPORT. Each named update of the state and each field: one lemma, so that no proof unfolds a record update. -/

namespace Sys2Proof.Machine

variable (s : State)

/-! `State.respond` -/

@[simp] theorem State.respond_order (r : Response) : (s.respond r).order = s.order := rfl
@[simp] theorem State.respond_litWidth (r : Response) : (s.respond r).litWidth = s.litWidth := rfl
@[simp] theorem State.respond_clear (r : Response) : (s.respond r).clear = s.clear := rfl
@[simp] theorem State.respond_eof (r : Response) : (s.respond r).eof = s.eof := rfl
@[simp] theorem State.respond_bits (r : Response) : (s.respond r).bits = s.bits := rfl
@[simp] theorem State.respond_nBits (r : Response) : (s.respond r).nBits = s.nBits := rfl
@[simp] theorem State.respond_width (r : Response) : (s.respond r).width = s.width := rfl
@[simp] theorem State.respond_hi (r : Response) : (s.respond r).hi = s.hi := rfl
@[simp] theorem State.respond_overflow (r : Response) : (s.respond r).overflow = s.overflow := rfl
@[simp] theorem State.respond_lastValid (r : Response) : (s.respond r).lastValid = s.lastValid := rfl
@[simp] theorem State.respond_last (r : Response) : (s.respond r).last = s.last := rfl
@[simp] theorem State.respond_o (r : Response) : (s.respond r).o = s.o := rfl
@[simp] theorem State.respond_pendPos (r : Response) : (s.respond r).pendPos = s.pendPos := rfl
@[simp] theorem State.respond_pendEnd (r : Response) : (s.respond r).pendEnd = s.pendEnd := rfl
@[simp] theorem State.respond_phase (r : Response) : (s.respond r).phase = s.phase := rfl
@[simp] theorem State.respond_cond (r : Response) : (s.respond r).cond = s.cond := rfl
@[simp] theorem State.respond_condPayload (r : Response) : (s.respond r).condPayload = s.condPayload := rfl
@[simp] theorem State.respond_suf (r : Response) : (s.respond r).suf = s.suf := rfl
@[simp] theorem State.respond_pre (r : Response) : (s.respond r).pre = s.pre := rfl
@[simp] theorem State.respond_out (r : Response) : (s.respond r).out = s.out := rfl
@[simp] theorem State.respond_outFree (r : Response) : (s.respond r).outFree = s.outFree := rfl
@[simp] theorem State.respond_sufFresh (r : Response) : (s.respond r).sufFresh = s.sufFresh := rfl
@[simp] theorem State.respond_preFresh (r : Response) : (s.respond r).preFresh = s.preFresh := rfl
@[simp] theorem State.respond_busy (r : Response) : (s.respond r).busy = none := rfl
@[simp] theorem State.respond_host (r : Response) : (s.respond r).host = s.host := rfl
@[simp] theorem State.respond_source (r : Response) : (s.respond r).source = s.source := rfl
@[simp] theorem State.respond_sourceLoop (r : Response) : (s.respond r).sourceLoop = s.sourceLoop := rfl
@[simp] theorem State.respond_trace (r : Response) : (s.respond r).trace = .response r :: s.trace := rfl
@[simp] theorem State.respond_freeCtr (r : Response) : (s.respond r).freeCtr = s.freeCtr := rfl

/-! `State.terminate` -/

@[simp] theorem State.terminate_order (c : Status) (e : Option SrcErr) : (s.terminate c e).order = s.order := rfl
@[simp] theorem State.terminate_litWidth (c : Status) (e : Option SrcErr) : (s.terminate c e).litWidth = s.litWidth := rfl
@[simp] theorem State.terminate_clear (c : Status) (e : Option SrcErr) : (s.terminate c e).clear = s.clear := rfl
@[simp] theorem State.terminate_eof (c : Status) (e : Option SrcErr) : (s.terminate c e).eof = s.eof := rfl
@[simp] theorem State.terminate_bits (c : Status) (e : Option SrcErr) : (s.terminate c e).bits = s.bits := rfl
@[simp] theorem State.terminate_nBits (c : Status) (e : Option SrcErr) : (s.terminate c e).nBits = s.nBits := rfl
@[simp] theorem State.terminate_width (c : Status) (e : Option SrcErr) : (s.terminate c e).width = s.width := rfl
@[simp] theorem State.terminate_hi (c : Status) (e : Option SrcErr) : (s.terminate c e).hi = s.hi := rfl
@[simp] theorem State.terminate_overflow (c : Status) (e : Option SrcErr) : (s.terminate c e).overflow = s.overflow := rfl
@[simp] theorem State.terminate_lastValid (c : Status) (e : Option SrcErr) : (s.terminate c e).lastValid = s.lastValid := rfl
@[simp] theorem State.terminate_last (c : Status) (e : Option SrcErr) : (s.terminate c e).last = s.last := rfl
@[simp] theorem State.terminate_o (c : Status) (e : Option SrcErr) : (s.terminate c e).o = s.o := rfl
@[simp] theorem State.terminate_pendPos (c : Status) (e : Option SrcErr) : (s.terminate c e).pendPos = s.pendPos := rfl
@[simp] theorem State.terminate_pendEnd (c : Status) (e : Option SrcErr) : (s.terminate c e).pendEnd = s.pendEnd := rfl
@[simp] theorem State.terminate_phase (c : Status) (e : Option SrcErr) : (s.terminate c e).phase = if c = .eof then .eofSeen else .errored := rfl
@[simp] theorem State.terminate_cond (c : Status) (e : Option SrcErr) : (s.terminate c e).cond = c := rfl
@[simp] theorem State.terminate_condPayload (c : Status) (e : Option SrcErr) : (s.terminate c e).condPayload = e.getD s.condPayload := rfl
@[simp] theorem State.terminate_suf (c : Status) (e : Option SrcErr) : (s.terminate c e).suf = s.suf := rfl
@[simp] theorem State.terminate_pre (c : Status) (e : Option SrcErr) : (s.terminate c e).pre = s.pre := rfl
@[simp] theorem State.terminate_out (c : Status) (e : Option SrcErr) : (s.terminate c e).out = s.out := rfl
@[simp] theorem State.terminate_outFree (c : Status) (e : Option SrcErr) : (s.terminate c e).outFree = s.outFree := rfl
@[simp] theorem State.terminate_sufFresh (c : Status) (e : Option SrcErr) : (s.terminate c e).sufFresh = s.sufFresh := rfl
@[simp] theorem State.terminate_preFresh (c : Status) (e : Option SrcErr) : (s.terminate c e).preFresh = s.preFresh := rfl
@[simp] theorem State.terminate_busy (c : Status) (e : Option SrcErr) : (s.terminate c e).busy = s.busy := rfl
@[simp] theorem State.terminate_host (c : Status) (e : Option SrcErr) : (s.terminate c e).host = s.host := rfl
@[simp] theorem State.terminate_source (c : Status) (e : Option SrcErr) : (s.terminate c e).source = s.source := rfl
@[simp] theorem State.terminate_sourceLoop (c : Status) (e : Option SrcErr) : (s.terminate c e).sourceLoop = s.sourceLoop := rfl
@[simp] theorem State.terminate_trace (c : Status) (e : Option SrcErr) : (s.terminate c e).trace = s.trace := rfl
@[simp] theorem State.terminate_freeCtr (c : Status) (e : Option SrcErr) : (s.terminate c e).freeCtr = s.freeCtr := rfl

/-! `State.startStream` -/

@[simp] theorem State.startStream_order (ord : Order) (w : Nat) : (s.startStream ord w).order = ord := rfl
@[simp] theorem State.startStream_litWidth (ord : Order) (w : Nat) : (s.startStream ord w).litWidth = w := rfl
@[simp] theorem State.startStream_clear (ord : Order) (w : Nat) : (s.startStream ord w).clear = 2 ^ w := rfl
@[simp] theorem State.startStream_eof (ord : Order) (w : Nat) : (s.startStream ord w).eof = 2 ^ w + 1 := rfl
@[simp] theorem State.startStream_bits (ord : Order) (w : Nat) : (s.startStream ord w).bits = 0#32 := rfl
@[simp] theorem State.startStream_nBits (ord : Order) (w : Nat) : (s.startStream ord w).nBits = 0 := rfl
@[simp] theorem State.startStream_width (ord : Order) (w : Nat) : (s.startStream ord w).width = w + 1 := rfl
@[simp] theorem State.startStream_hi (ord : Order) (w : Nat) : (s.startStream ord w).hi = 2 ^ w + 1 := rfl
@[simp] theorem State.startStream_overflow (ord : Order) (w : Nat) : (s.startStream ord w).overflow = 2 ^ (w + 1) := rfl
@[simp] theorem State.startStream_lastValid (ord : Order) (w : Nat) : (s.startStream ord w).lastValid = false := rfl
@[simp] theorem State.startStream_last (ord : Order) (w : Nat) : (s.startStream ord w).last = (Config.freeValue 12 s.freeCtr).toNat := rfl
@[simp] theorem State.startStream_o (ord : Order) (w : Nat) : (s.startStream ord w).o = 0 := rfl
@[simp] theorem State.startStream_pendPos (ord : Order) (w : Nat) : (s.startStream ord w).pendPos = 0 := rfl
@[simp] theorem State.startStream_pendEnd (ord : Order) (w : Nat) : (s.startStream ord w).pendEnd = 0 := rfl
@[simp] theorem State.startStream_phase (ord : Order) (w : Nat) : (s.startStream ord w).phase = .cleared := rfl
@[simp] theorem State.startStream_cond (ord : Order) (w : Nat) : (s.startStream ord w).cond = .ok := rfl
@[simp] theorem State.startStream_condPayload (ord : Order) (w : Nat) : (s.startStream ord w).condPayload = Config.freeErr s.freeCtr := rfl
@[simp] theorem State.startStream_suf (ord : Order) (w : Nat) : (s.startStream ord w).suf = [] := rfl
@[simp] theorem State.startStream_pre (ord : Order) (w : Nat) : (s.startStream ord w).pre = [] := rfl
@[simp] theorem State.startStream_out (ord : Order) (w : Nat) : (s.startStream ord w).out = [] := rfl
@[simp] theorem State.startStream_outFree (ord : Order) (w : Nat) : (s.startStream ord w).outFree = s.freeCtr := rfl
@[simp] theorem State.startStream_sufFresh (ord : Order) (w : Nat) : (s.startStream ord w).sufFresh = [] := rfl
@[simp] theorem State.startStream_preFresh (ord : Order) (w : Nat) : (s.startStream ord w).preFresh = [] := rfl
@[simp] theorem State.startStream_busy (ord : Order) (w : Nat) : (s.startStream ord w).busy = s.busy := rfl
@[simp] theorem State.startStream_host (ord : Order) (w : Nat) : (s.startStream ord w).host = s.host := rfl
@[simp] theorem State.startStream_source (ord : Order) (w : Nat) : (s.startStream ord w).source = s.source := rfl
@[simp] theorem State.startStream_sourceLoop (ord : Order) (w : Nat) : (s.startStream ord w).sourceLoop = s.sourceLoop := rfl
@[simp] theorem State.startStream_trace (ord : Order) (w : Nat) : (s.startStream ord w).trace = s.trace := rfl
@[simp] theorem State.startStream_freeCtr (ord : Order) (w : Nat) : (s.startStream ord w).freeCtr = s.freeCtr + 1 := rfl

/-! `State.failStream` -/

@[simp] theorem State.failStream_order : (s.failStream).order = orderOfBit (Config.freeValue 1 s.freeCtr) := rfl
@[simp] theorem State.failStream_litWidth : (s.failStream).litWidth = (Config.freeValue 4 (s.freeCtr + 1)).toNat := rfl
@[simp] theorem State.failStream_clear : (s.failStream).clear = (Config.freeValue 9 (s.freeCtr + 2)).toNat := rfl
@[simp] theorem State.failStream_eof : (s.failStream).eof = (Config.freeValue 9 (s.freeCtr + 3)).toNat := rfl
@[simp] theorem State.failStream_bits : (s.failStream).bits = Config.freeValue 32 (s.freeCtr + 4) := rfl
@[simp] theorem State.failStream_nBits : (s.failStream).nBits = (Config.freeValue 5 (s.freeCtr + 5)).toNat := rfl
@[simp] theorem State.failStream_width : (s.failStream).width = (Config.freeValue 4 (s.freeCtr + 6)).toNat := rfl
@[simp] theorem State.failStream_hi : (s.failStream).hi = (Config.freeValue 13 (s.freeCtr + 7)).toNat := rfl
@[simp] theorem State.failStream_overflow : (s.failStream).overflow = (Config.freeValue 13 (s.freeCtr + 8)).toNat := rfl
@[simp] theorem State.failStream_lastValid : (s.failStream).lastValid = decide (Config.freeValue 1 (s.freeCtr + 9) = 1#1) := rfl
@[simp] theorem State.failStream_last : (s.failStream).last = (Config.freeValue 12 (s.freeCtr + 10)).toNat := rfl
@[simp] theorem State.failStream_o : (s.failStream).o = 0 := rfl
@[simp] theorem State.failStream_pendPos : (s.failStream).pendPos = 0 := rfl
@[simp] theorem State.failStream_pendEnd : (s.failStream).pendEnd = 0 := rfl
@[simp] theorem State.failStream_phase : (s.failStream).phase = .errored := rfl
@[simp] theorem State.failStream_cond : (s.failStream).cond = .badLitWidth := rfl
@[simp] theorem State.failStream_condPayload : (s.failStream).condPayload = Config.freeErr (s.freeCtr + 11) := rfl
@[simp] theorem State.failStream_suf : (s.failStream).suf = s.suf := rfl
@[simp] theorem State.failStream_pre : (s.failStream).pre = s.pre := rfl
@[simp] theorem State.failStream_out : (s.failStream).out = s.out := rfl
@[simp] theorem State.failStream_outFree : (s.failStream).outFree = s.outFree := rfl
@[simp] theorem State.failStream_sufFresh : (s.failStream).sufFresh = s.sufFresh := rfl
@[simp] theorem State.failStream_preFresh : (s.failStream).preFresh = s.preFresh := rfl
@[simp] theorem State.failStream_busy : (s.failStream).busy = s.busy := rfl
@[simp] theorem State.failStream_host : (s.failStream).host = s.host := rfl
@[simp] theorem State.failStream_source : (s.failStream).source = s.source := rfl
@[simp] theorem State.failStream_sourceLoop : (s.failStream).sourceLoop = s.sourceLoop := rfl
@[simp] theorem State.failStream_trace : (s.failStream).trace = s.trace := rfl
@[simp] theorem State.failStream_freeCtr : (s.failStream).freeCtr = s.freeCtr + 12 := rfl

/-! `State.putSuf` -/

@[simp] theorem State.putSuf_order (c v : Nat) : (s.putSuf c v).order = s.order := rfl
@[simp] theorem State.putSuf_litWidth (c v : Nat) : (s.putSuf c v).litWidth = s.litWidth := rfl
@[simp] theorem State.putSuf_clear (c v : Nat) : (s.putSuf c v).clear = s.clear := rfl
@[simp] theorem State.putSuf_eof (c v : Nat) : (s.putSuf c v).eof = s.eof := rfl
@[simp] theorem State.putSuf_bits (c v : Nat) : (s.putSuf c v).bits = s.bits := rfl
@[simp] theorem State.putSuf_nBits (c v : Nat) : (s.putSuf c v).nBits = s.nBits := rfl
@[simp] theorem State.putSuf_width (c v : Nat) : (s.putSuf c v).width = s.width := rfl
@[simp] theorem State.putSuf_hi (c v : Nat) : (s.putSuf c v).hi = s.hi := rfl
@[simp] theorem State.putSuf_overflow (c v : Nat) : (s.putSuf c v).overflow = s.overflow := rfl
@[simp] theorem State.putSuf_lastValid (c v : Nat) : (s.putSuf c v).lastValid = s.lastValid := rfl
@[simp] theorem State.putSuf_last (c v : Nat) : (s.putSuf c v).last = s.last := rfl
@[simp] theorem State.putSuf_o (c v : Nat) : (s.putSuf c v).o = s.o := rfl
@[simp] theorem State.putSuf_pendPos (c v : Nat) : (s.putSuf c v).pendPos = s.pendPos := rfl
@[simp] theorem State.putSuf_pendEnd (c v : Nat) : (s.putSuf c v).pendEnd = s.pendEnd := rfl
@[simp] theorem State.putSuf_phase (c v : Nat) : (s.putSuf c v).phase = s.phase := rfl
@[simp] theorem State.putSuf_cond (c v : Nat) : (s.putSuf c v).cond = s.cond := rfl
@[simp] theorem State.putSuf_condPayload (c v : Nat) : (s.putSuf c v).condPayload = s.condPayload := rfl
@[simp] theorem State.putSuf_suf (c v : Nat) : (s.putSuf c v).suf = Memory.write s.suf c (BitVec.ofNat 8 v) := rfl
@[simp] theorem State.putSuf_pre (c v : Nat) : (s.putSuf c v).pre = s.pre := rfl
@[simp] theorem State.putSuf_out (c v : Nat) : (s.putSuf c v).out = s.out := rfl
@[simp] theorem State.putSuf_outFree (c v : Nat) : (s.putSuf c v).outFree = s.outFree := rfl
@[simp] theorem State.putSuf_sufFresh (c v : Nat) : (s.putSuf c v).sufFresh = markSlot c s.sufFresh := rfl
@[simp] theorem State.putSuf_preFresh (c v : Nat) : (s.putSuf c v).preFresh = s.preFresh := rfl
@[simp] theorem State.putSuf_busy (c v : Nat) : (s.putSuf c v).busy = s.busy := rfl
@[simp] theorem State.putSuf_host (c v : Nat) : (s.putSuf c v).host = s.host := rfl
@[simp] theorem State.putSuf_source (c v : Nat) : (s.putSuf c v).source = s.source := rfl
@[simp] theorem State.putSuf_sourceLoop (c v : Nat) : (s.putSuf c v).sourceLoop = s.sourceLoop := rfl
@[simp] theorem State.putSuf_trace (c v : Nat) : (s.putSuf c v).trace = s.trace := rfl
@[simp] theorem State.putSuf_freeCtr (c v : Nat) : (s.putSuf c v).freeCtr = s.freeCtr := rfl

/-! `State.putPre` -/

@[simp] theorem State.putPre_order (c v : Nat) : (s.putPre c v).order = s.order := rfl
@[simp] theorem State.putPre_litWidth (c v : Nat) : (s.putPre c v).litWidth = s.litWidth := rfl
@[simp] theorem State.putPre_clear (c v : Nat) : (s.putPre c v).clear = s.clear := rfl
@[simp] theorem State.putPre_eof (c v : Nat) : (s.putPre c v).eof = s.eof := rfl
@[simp] theorem State.putPre_bits (c v : Nat) : (s.putPre c v).bits = s.bits := rfl
@[simp] theorem State.putPre_nBits (c v : Nat) : (s.putPre c v).nBits = s.nBits := rfl
@[simp] theorem State.putPre_width (c v : Nat) : (s.putPre c v).width = s.width := rfl
@[simp] theorem State.putPre_hi (c v : Nat) : (s.putPre c v).hi = s.hi := rfl
@[simp] theorem State.putPre_overflow (c v : Nat) : (s.putPre c v).overflow = s.overflow := rfl
@[simp] theorem State.putPre_lastValid (c v : Nat) : (s.putPre c v).lastValid = s.lastValid := rfl
@[simp] theorem State.putPre_last (c v : Nat) : (s.putPre c v).last = s.last := rfl
@[simp] theorem State.putPre_o (c v : Nat) : (s.putPre c v).o = s.o := rfl
@[simp] theorem State.putPre_pendPos (c v : Nat) : (s.putPre c v).pendPos = s.pendPos := rfl
@[simp] theorem State.putPre_pendEnd (c v : Nat) : (s.putPre c v).pendEnd = s.pendEnd := rfl
@[simp] theorem State.putPre_phase (c v : Nat) : (s.putPre c v).phase = s.phase := rfl
@[simp] theorem State.putPre_cond (c v : Nat) : (s.putPre c v).cond = s.cond := rfl
@[simp] theorem State.putPre_condPayload (c v : Nat) : (s.putPre c v).condPayload = s.condPayload := rfl
@[simp] theorem State.putPre_suf (c v : Nat) : (s.putPre c v).suf = s.suf := rfl
@[simp] theorem State.putPre_pre (c v : Nat) : (s.putPre c v).pre = Memory.write s.pre c (BitVec.ofNat 12 v) := rfl
@[simp] theorem State.putPre_out (c v : Nat) : (s.putPre c v).out = s.out := rfl
@[simp] theorem State.putPre_outFree (c v : Nat) : (s.putPre c v).outFree = s.outFree := rfl
@[simp] theorem State.putPre_sufFresh (c v : Nat) : (s.putPre c v).sufFresh = s.sufFresh := rfl
@[simp] theorem State.putPre_preFresh (c v : Nat) : (s.putPre c v).preFresh = markSlot c s.preFresh := rfl
@[simp] theorem State.putPre_busy (c v : Nat) : (s.putPre c v).busy = s.busy := rfl
@[simp] theorem State.putPre_host (c v : Nat) : (s.putPre c v).host = s.host := rfl
@[simp] theorem State.putPre_source (c v : Nat) : (s.putPre c v).source = s.source := rfl
@[simp] theorem State.putPre_sourceLoop (c v : Nat) : (s.putPre c v).sourceLoop = s.sourceLoop := rfl
@[simp] theorem State.putPre_trace (c v : Nat) : (s.putPre c v).trace = s.trace := rfl
@[simp] theorem State.putPre_freeCtr (c v : Nat) : (s.putPre c v).freeCtr = s.freeCtr := rfl

/-! `State.putOut` -/

@[simp] theorem State.putOut_order (i v : Nat) : (s.putOut i v).order = s.order := rfl
@[simp] theorem State.putOut_litWidth (i v : Nat) : (s.putOut i v).litWidth = s.litWidth := rfl
@[simp] theorem State.putOut_clear (i v : Nat) : (s.putOut i v).clear = s.clear := rfl
@[simp] theorem State.putOut_eof (i v : Nat) : (s.putOut i v).eof = s.eof := rfl
@[simp] theorem State.putOut_bits (i v : Nat) : (s.putOut i v).bits = s.bits := rfl
@[simp] theorem State.putOut_nBits (i v : Nat) : (s.putOut i v).nBits = s.nBits := rfl
@[simp] theorem State.putOut_width (i v : Nat) : (s.putOut i v).width = s.width := rfl
@[simp] theorem State.putOut_hi (i v : Nat) : (s.putOut i v).hi = s.hi := rfl
@[simp] theorem State.putOut_overflow (i v : Nat) : (s.putOut i v).overflow = s.overflow := rfl
@[simp] theorem State.putOut_lastValid (i v : Nat) : (s.putOut i v).lastValid = s.lastValid := rfl
@[simp] theorem State.putOut_last (i v : Nat) : (s.putOut i v).last = s.last := rfl
@[simp] theorem State.putOut_o (i v : Nat) : (s.putOut i v).o = s.o := rfl
@[simp] theorem State.putOut_pendPos (i v : Nat) : (s.putOut i v).pendPos = s.pendPos := rfl
@[simp] theorem State.putOut_pendEnd (i v : Nat) : (s.putOut i v).pendEnd = s.pendEnd := rfl
@[simp] theorem State.putOut_phase (i v : Nat) : (s.putOut i v).phase = s.phase := rfl
@[simp] theorem State.putOut_cond (i v : Nat) : (s.putOut i v).cond = s.cond := rfl
@[simp] theorem State.putOut_condPayload (i v : Nat) : (s.putOut i v).condPayload = s.condPayload := rfl
@[simp] theorem State.putOut_suf (i v : Nat) : (s.putOut i v).suf = s.suf := rfl
@[simp] theorem State.putOut_pre (i v : Nat) : (s.putOut i v).pre = s.pre := rfl
@[simp] theorem State.putOut_out (i v : Nat) : (s.putOut i v).out = Memory.write s.out i (BitVec.ofNat 8 v) := rfl
@[simp] theorem State.putOut_outFree (i v : Nat) : (s.putOut i v).outFree = s.outFree := rfl
@[simp] theorem State.putOut_sufFresh (i v : Nat) : (s.putOut i v).sufFresh = s.sufFresh := rfl
@[simp] theorem State.putOut_preFresh (i v : Nat) : (s.putOut i v).preFresh = s.preFresh := rfl
@[simp] theorem State.putOut_busy (i v : Nat) : (s.putOut i v).busy = s.busy := rfl
@[simp] theorem State.putOut_host (i v : Nat) : (s.putOut i v).host = s.host := rfl
@[simp] theorem State.putOut_source (i v : Nat) : (s.putOut i v).source = s.source := rfl
@[simp] theorem State.putOut_sourceLoop (i v : Nat) : (s.putOut i v).sourceLoop = s.sourceLoop := rfl
@[simp] theorem State.putOut_trace (i v : Nat) : (s.putOut i v).trace = s.trace := rfl
@[simp] theorem State.putOut_freeCtr (i v : Nat) : (s.putOut i v).freeCtr = s.freeCtr := rfl

/-! `State.invalidateLast` -/

@[simp] theorem State.invalidateLast_order : (s.invalidateLast).order = s.order := rfl
@[simp] theorem State.invalidateLast_litWidth : (s.invalidateLast).litWidth = s.litWidth := rfl
@[simp] theorem State.invalidateLast_clear : (s.invalidateLast).clear = s.clear := rfl
@[simp] theorem State.invalidateLast_eof : (s.invalidateLast).eof = s.eof := rfl
@[simp] theorem State.invalidateLast_bits : (s.invalidateLast).bits = s.bits := rfl
@[simp] theorem State.invalidateLast_nBits : (s.invalidateLast).nBits = s.nBits := rfl
@[simp] theorem State.invalidateLast_width : (s.invalidateLast).width = s.width := rfl
@[simp] theorem State.invalidateLast_hi : (s.invalidateLast).hi = s.hi := rfl
@[simp] theorem State.invalidateLast_overflow : (s.invalidateLast).overflow = s.overflow := rfl
@[simp] theorem State.invalidateLast_lastValid : (s.invalidateLast).lastValid = false := rfl
@[simp] theorem State.invalidateLast_last : (s.invalidateLast).last = (Config.freeValue 12 s.freeCtr).toNat := rfl
@[simp] theorem State.invalidateLast_o : (s.invalidateLast).o = s.o := rfl
@[simp] theorem State.invalidateLast_pendPos : (s.invalidateLast).pendPos = s.pendPos := rfl
@[simp] theorem State.invalidateLast_pendEnd : (s.invalidateLast).pendEnd = s.pendEnd := rfl
@[simp] theorem State.invalidateLast_phase : (s.invalidateLast).phase = s.phase := rfl
@[simp] theorem State.invalidateLast_cond : (s.invalidateLast).cond = s.cond := rfl
@[simp] theorem State.invalidateLast_condPayload : (s.invalidateLast).condPayload = s.condPayload := rfl
@[simp] theorem State.invalidateLast_suf : (s.invalidateLast).suf = s.suf := rfl
@[simp] theorem State.invalidateLast_pre : (s.invalidateLast).pre = s.pre := rfl
@[simp] theorem State.invalidateLast_out : (s.invalidateLast).out = s.out := rfl
@[simp] theorem State.invalidateLast_outFree : (s.invalidateLast).outFree = s.outFree := rfl
@[simp] theorem State.invalidateLast_sufFresh : (s.invalidateLast).sufFresh = s.sufFresh := rfl
@[simp] theorem State.invalidateLast_preFresh : (s.invalidateLast).preFresh = s.preFresh := rfl
@[simp] theorem State.invalidateLast_busy : (s.invalidateLast).busy = s.busy := rfl
@[simp] theorem State.invalidateLast_host : (s.invalidateLast).host = s.host := rfl
@[simp] theorem State.invalidateLast_source : (s.invalidateLast).source = s.source := rfl
@[simp] theorem State.invalidateLast_sourceLoop : (s.invalidateLast).sourceLoop = s.sourceLoop := rfl
@[simp] theorem State.invalidateLast_trace : (s.invalidateLast).trace = s.trace := rfl
@[simp] theorem State.invalidateLast_freeCtr : (s.invalidateLast).freeCtr = s.freeCtr + 1 := rfl

/-! `State.setLast` -/

@[simp] theorem State.setLast_order (code : Nat) : (s.setLast code).order = s.order := rfl
@[simp] theorem State.setLast_litWidth (code : Nat) : (s.setLast code).litWidth = s.litWidth := rfl
@[simp] theorem State.setLast_clear (code : Nat) : (s.setLast code).clear = s.clear := rfl
@[simp] theorem State.setLast_eof (code : Nat) : (s.setLast code).eof = s.eof := rfl
@[simp] theorem State.setLast_bits (code : Nat) : (s.setLast code).bits = s.bits := rfl
@[simp] theorem State.setLast_nBits (code : Nat) : (s.setLast code).nBits = s.nBits := rfl
@[simp] theorem State.setLast_width (code : Nat) : (s.setLast code).width = s.width := rfl
@[simp] theorem State.setLast_hi (code : Nat) : (s.setLast code).hi = s.hi := rfl
@[simp] theorem State.setLast_overflow (code : Nat) : (s.setLast code).overflow = s.overflow := rfl
@[simp] theorem State.setLast_lastValid (code : Nat) : (s.setLast code).lastValid = true := rfl
@[simp] theorem State.setLast_last (code : Nat) : (s.setLast code).last = code := rfl
@[simp] theorem State.setLast_o (code : Nat) : (s.setLast code).o = s.o := rfl
@[simp] theorem State.setLast_pendPos (code : Nat) : (s.setLast code).pendPos = s.pendPos := rfl
@[simp] theorem State.setLast_pendEnd (code : Nat) : (s.setLast code).pendEnd = s.pendEnd := rfl
@[simp] theorem State.setLast_phase (code : Nat) : (s.setLast code).phase = s.phase := rfl
@[simp] theorem State.setLast_cond (code : Nat) : (s.setLast code).cond = s.cond := rfl
@[simp] theorem State.setLast_condPayload (code : Nat) : (s.setLast code).condPayload = s.condPayload := rfl
@[simp] theorem State.setLast_suf (code : Nat) : (s.setLast code).suf = s.suf := rfl
@[simp] theorem State.setLast_pre (code : Nat) : (s.setLast code).pre = s.pre := rfl
@[simp] theorem State.setLast_out (code : Nat) : (s.setLast code).out = s.out := rfl
@[simp] theorem State.setLast_outFree (code : Nat) : (s.setLast code).outFree = s.outFree := rfl
@[simp] theorem State.setLast_sufFresh (code : Nat) : (s.setLast code).sufFresh = s.sufFresh := rfl
@[simp] theorem State.setLast_preFresh (code : Nat) : (s.setLast code).preFresh = s.preFresh := rfl
@[simp] theorem State.setLast_busy (code : Nat) : (s.setLast code).busy = s.busy := rfl
@[simp] theorem State.setLast_host (code : Nat) : (s.setLast code).host = s.host := rfl
@[simp] theorem State.setLast_source (code : Nat) : (s.setLast code).source = s.source := rfl
@[simp] theorem State.setLast_sourceLoop (code : Nat) : (s.setLast code).sourceLoop = s.sourceLoop := rfl
@[simp] theorem State.setLast_trace (code : Nat) : (s.setLast code).trace = s.trace := rfl
@[simp] theorem State.setLast_freeCtr (code : Nat) : (s.setLast code).freeCtr = s.freeCtr := rfl

/-! `State.setDecoding` -/

@[simp] theorem State.setDecoding_order : (s.setDecoding).order = s.order := rfl
@[simp] theorem State.setDecoding_litWidth : (s.setDecoding).litWidth = s.litWidth := rfl
@[simp] theorem State.setDecoding_clear : (s.setDecoding).clear = s.clear := rfl
@[simp] theorem State.setDecoding_eof : (s.setDecoding).eof = s.eof := rfl
@[simp] theorem State.setDecoding_bits : (s.setDecoding).bits = s.bits := rfl
@[simp] theorem State.setDecoding_nBits : (s.setDecoding).nBits = s.nBits := rfl
@[simp] theorem State.setDecoding_width : (s.setDecoding).width = s.width := rfl
@[simp] theorem State.setDecoding_hi : (s.setDecoding).hi = s.hi := rfl
@[simp] theorem State.setDecoding_overflow : (s.setDecoding).overflow = s.overflow := rfl
@[simp] theorem State.setDecoding_lastValid : (s.setDecoding).lastValid = s.lastValid := rfl
@[simp] theorem State.setDecoding_last : (s.setDecoding).last = s.last := rfl
@[simp] theorem State.setDecoding_o : (s.setDecoding).o = s.o := rfl
@[simp] theorem State.setDecoding_pendPos : (s.setDecoding).pendPos = s.pendPos := rfl
@[simp] theorem State.setDecoding_pendEnd : (s.setDecoding).pendEnd = s.pendEnd := rfl
@[simp] theorem State.setDecoding_phase : (s.setDecoding).phase = .decoding := rfl
@[simp] theorem State.setDecoding_cond : (s.setDecoding).cond = s.cond := rfl
@[simp] theorem State.setDecoding_condPayload : (s.setDecoding).condPayload = s.condPayload := rfl
@[simp] theorem State.setDecoding_suf : (s.setDecoding).suf = s.suf := rfl
@[simp] theorem State.setDecoding_pre : (s.setDecoding).pre = s.pre := rfl
@[simp] theorem State.setDecoding_out : (s.setDecoding).out = s.out := rfl
@[simp] theorem State.setDecoding_outFree : (s.setDecoding).outFree = s.outFree := rfl
@[simp] theorem State.setDecoding_sufFresh : (s.setDecoding).sufFresh = s.sufFresh := rfl
@[simp] theorem State.setDecoding_preFresh : (s.setDecoding).preFresh = s.preFresh := rfl
@[simp] theorem State.setDecoding_busy : (s.setDecoding).busy = s.busy := rfl
@[simp] theorem State.setDecoding_host : (s.setDecoding).host = s.host := rfl
@[simp] theorem State.setDecoding_source : (s.setDecoding).source = s.source := rfl
@[simp] theorem State.setDecoding_sourceLoop : (s.setDecoding).sourceLoop = s.sourceLoop := rfl
@[simp] theorem State.setDecoding_trace : (s.setDecoding).trace = s.trace := rfl
@[simp] theorem State.setDecoding_freeCtr : (s.setDecoding).freeCtr = s.freeCtr := rfl

/-! `State.takePending` -/

@[simp] theorem State.takePending_order (k : Nat) : (s.takePending k).order = s.order := rfl
@[simp] theorem State.takePending_litWidth (k : Nat) : (s.takePending k).litWidth = s.litWidth := rfl
@[simp] theorem State.takePending_clear (k : Nat) : (s.takePending k).clear = s.clear := rfl
@[simp] theorem State.takePending_eof (k : Nat) : (s.takePending k).eof = s.eof := rfl
@[simp] theorem State.takePending_bits (k : Nat) : (s.takePending k).bits = s.bits := rfl
@[simp] theorem State.takePending_nBits (k : Nat) : (s.takePending k).nBits = s.nBits := rfl
@[simp] theorem State.takePending_width (k : Nat) : (s.takePending k).width = s.width := rfl
@[simp] theorem State.takePending_hi (k : Nat) : (s.takePending k).hi = s.hi := rfl
@[simp] theorem State.takePending_overflow (k : Nat) : (s.takePending k).overflow = s.overflow := rfl
@[simp] theorem State.takePending_lastValid (k : Nat) : (s.takePending k).lastValid = s.lastValid := rfl
@[simp] theorem State.takePending_last (k : Nat) : (s.takePending k).last = s.last := rfl
@[simp] theorem State.takePending_o (k : Nat) : (s.takePending k).o = s.o := rfl
@[simp] theorem State.takePending_pendPos (k : Nat) : (s.takePending k).pendPos = s.pendPos + k := rfl
@[simp] theorem State.takePending_pendEnd (k : Nat) : (s.takePending k).pendEnd = s.pendEnd := rfl
@[simp] theorem State.takePending_phase (k : Nat) : (s.takePending k).phase = s.phase := rfl
@[simp] theorem State.takePending_cond (k : Nat) : (s.takePending k).cond = s.cond := rfl
@[simp] theorem State.takePending_condPayload (k : Nat) : (s.takePending k).condPayload = s.condPayload := rfl
@[simp] theorem State.takePending_suf (k : Nat) : (s.takePending k).suf = s.suf := rfl
@[simp] theorem State.takePending_pre (k : Nat) : (s.takePending k).pre = s.pre := rfl
@[simp] theorem State.takePending_out (k : Nat) : (s.takePending k).out = s.out := rfl
@[simp] theorem State.takePending_outFree (k : Nat) : (s.takePending k).outFree = s.outFree := rfl
@[simp] theorem State.takePending_sufFresh (k : Nat) : (s.takePending k).sufFresh = s.sufFresh := rfl
@[simp] theorem State.takePending_preFresh (k : Nat) : (s.takePending k).preFresh = s.preFresh := rfl
@[simp] theorem State.takePending_busy (k : Nat) : (s.takePending k).busy = s.busy := rfl
@[simp] theorem State.takePending_host (k : Nat) : (s.takePending k).host = s.host := rfl
@[simp] theorem State.takePending_source (k : Nat) : (s.takePending k).source = s.source := rfl
@[simp] theorem State.takePending_sourceLoop (k : Nat) : (s.takePending k).sourceLoop = s.sourceLoop := rfl
@[simp] theorem State.takePending_trace (k : Nat) : (s.takePending k).trace = s.trace := rfl
@[simp] theorem State.takePending_freeCtr (k : Nat) : (s.takePending k).freeCtr = s.freeCtr := rfl

/-! `State.startPass` -/

@[simp] theorem State.startPass_order (n : BitVec 16) : (s.startPass n).order = s.order := rfl
@[simp] theorem State.startPass_litWidth (n : BitVec 16) : (s.startPass n).litWidth = s.litWidth := rfl
@[simp] theorem State.startPass_clear (n : BitVec 16) : (s.startPass n).clear = s.clear := rfl
@[simp] theorem State.startPass_eof (n : BitVec 16) : (s.startPass n).eof = s.eof := rfl
@[simp] theorem State.startPass_bits (n : BitVec 16) : (s.startPass n).bits = s.bits := rfl
@[simp] theorem State.startPass_nBits (n : BitVec 16) : (s.startPass n).nBits = s.nBits := rfl
@[simp] theorem State.startPass_width (n : BitVec 16) : (s.startPass n).width = s.width := rfl
@[simp] theorem State.startPass_hi (n : BitVec 16) : (s.startPass n).hi = s.hi := rfl
@[simp] theorem State.startPass_overflow (n : BitVec 16) : (s.startPass n).overflow = s.overflow := rfl
@[simp] theorem State.startPass_lastValid (n : BitVec 16) : (s.startPass n).lastValid = s.lastValid := rfl
@[simp] theorem State.startPass_last (n : BitVec 16) : (s.startPass n).last = s.last := rfl
@[simp] theorem State.startPass_o (n : BitVec 16) : (s.startPass n).o = s.o := rfl
@[simp] theorem State.startPass_pendPos (n : BitVec 16) : (s.startPass n).pendPos = s.pendPos := rfl
@[simp] theorem State.startPass_pendEnd (n : BitVec 16) : (s.startPass n).pendEnd = s.pendEnd := rfl
@[simp] theorem State.startPass_phase (n : BitVec 16) : (s.startPass n).phase = s.phase := rfl
@[simp] theorem State.startPass_cond (n : BitVec 16) : (s.startPass n).cond = s.cond := rfl
@[simp] theorem State.startPass_condPayload (n : BitVec 16) : (s.startPass n).condPayload = s.condPayload := rfl
@[simp] theorem State.startPass_suf (n : BitVec 16) : (s.startPass n).suf = s.suf := rfl
@[simp] theorem State.startPass_pre (n : BitVec 16) : (s.startPass n).pre = s.pre := rfl
@[simp] theorem State.startPass_out (n : BitVec 16) : (s.startPass n).out = s.out := rfl
@[simp] theorem State.startPass_outFree (n : BitVec 16) : (s.startPass n).outFree = s.outFree := rfl
@[simp] theorem State.startPass_sufFresh (n : BitVec 16) : (s.startPass n).sufFresh = s.sufFresh := rfl
@[simp] theorem State.startPass_preFresh (n : BitVec 16) : (s.startPass n).preFresh = s.preFresh := rfl
@[simp] theorem State.startPass_busy (n : BitVec 16) : (s.startPass n).busy = some n := rfl
@[simp] theorem State.startPass_host (n : BitVec 16) : (s.startPass n).host = s.host := rfl
@[simp] theorem State.startPass_source (n : BitVec 16) : (s.startPass n).source = s.source := rfl
@[simp] theorem State.startPass_sourceLoop (n : BitVec 16) : (s.startPass n).sourceLoop = s.sourceLoop := rfl
@[simp] theorem State.startPass_trace (n : BitVec 16) : (s.startPass n).trace = s.trace := rfl
@[simp] theorem State.startPass_freeCtr (n : BitVec 16) : (s.startPass n).freeCtr = s.freeCtr := rfl

/-! `State.flush` -/

@[simp] theorem State.flush_order : (s.flush).order = s.order := rfl
@[simp] theorem State.flush_litWidth : (s.flush).litWidth = s.litWidth := rfl
@[simp] theorem State.flush_clear : (s.flush).clear = s.clear := rfl
@[simp] theorem State.flush_eof : (s.flush).eof = s.eof := rfl
@[simp] theorem State.flush_bits : (s.flush).bits = s.bits := rfl
@[simp] theorem State.flush_nBits : (s.flush).nBits = s.nBits := rfl
@[simp] theorem State.flush_width : (s.flush).width = s.width := rfl
@[simp] theorem State.flush_hi : (s.flush).hi = s.hi := rfl
@[simp] theorem State.flush_overflow : (s.flush).overflow = s.overflow := rfl
@[simp] theorem State.flush_lastValid : (s.flush).lastValid = s.lastValid := rfl
@[simp] theorem State.flush_last : (s.flush).last = s.last := rfl
@[simp] theorem State.flush_o : (s.flush).o = 0 := rfl
@[simp] theorem State.flush_pendPos : (s.flush).pendPos = 0 := rfl
@[simp] theorem State.flush_pendEnd : (s.flush).pendEnd = s.o := rfl
@[simp] theorem State.flush_phase : (s.flush).phase = s.phase := rfl
@[simp] theorem State.flush_cond : (s.flush).cond = s.cond := rfl
@[simp] theorem State.flush_condPayload : (s.flush).condPayload = s.condPayload := rfl
@[simp] theorem State.flush_suf : (s.flush).suf = s.suf := rfl
@[simp] theorem State.flush_pre : (s.flush).pre = s.pre := rfl
@[simp] theorem State.flush_out : (s.flush).out = s.out := rfl
@[simp] theorem State.flush_outFree : (s.flush).outFree = s.outFree := rfl
@[simp] theorem State.flush_sufFresh : (s.flush).sufFresh = s.sufFresh := rfl
@[simp] theorem State.flush_preFresh : (s.flush).preFresh = s.preFresh := rfl
@[simp] theorem State.flush_busy : (s.flush).busy = s.busy := rfl
@[simp] theorem State.flush_host : (s.flush).host = s.host := rfl
@[simp] theorem State.flush_source : (s.flush).source = s.source := rfl
@[simp] theorem State.flush_sourceLoop : (s.flush).sourceLoop = s.sourceLoop := rfl
@[simp] theorem State.flush_trace : (s.flush).trace = s.trace := rfl
@[simp] theorem State.flush_freeCtr : (s.flush).freeCtr = s.freeCtr := rfl

/-! `State.insertByte` -/

@[simp] theorem State.insertByte_order (b : Byte) : (s.insertByte b).order = s.order := rfl
@[simp] theorem State.insertByte_litWidth (b : Byte) : (s.insertByte b).litWidth = s.litWidth := rfl
@[simp] theorem State.insertByte_clear (b : Byte) : (s.insertByte b).clear = s.clear := rfl
@[simp] theorem State.insertByte_eof (b : Byte) : (s.insertByte b).eof = s.eof := rfl
@[simp] theorem State.insertByte_bits (b : Byte) : (s.insertByte b).bits = insertBits s.order s.bits s.nBits b := rfl
@[simp] theorem State.insertByte_nBits (b : Byte) : (s.insertByte b).nBits = s.nBits + 8 := rfl
@[simp] theorem State.insertByte_width (b : Byte) : (s.insertByte b).width = s.width := rfl
@[simp] theorem State.insertByte_hi (b : Byte) : (s.insertByte b).hi = s.hi := rfl
@[simp] theorem State.insertByte_overflow (b : Byte) : (s.insertByte b).overflow = s.overflow := rfl
@[simp] theorem State.insertByte_lastValid (b : Byte) : (s.insertByte b).lastValid = s.lastValid := rfl
@[simp] theorem State.insertByte_last (b : Byte) : (s.insertByte b).last = s.last := rfl
@[simp] theorem State.insertByte_o (b : Byte) : (s.insertByte b).o = s.o := rfl
@[simp] theorem State.insertByte_pendPos (b : Byte) : (s.insertByte b).pendPos = s.pendPos := rfl
@[simp] theorem State.insertByte_pendEnd (b : Byte) : (s.insertByte b).pendEnd = s.pendEnd := rfl
@[simp] theorem State.insertByte_phase (b : Byte) : (s.insertByte b).phase = s.phase := rfl
@[simp] theorem State.insertByte_cond (b : Byte) : (s.insertByte b).cond = s.cond := rfl
@[simp] theorem State.insertByte_condPayload (b : Byte) : (s.insertByte b).condPayload = s.condPayload := rfl
@[simp] theorem State.insertByte_suf (b : Byte) : (s.insertByte b).suf = s.suf := rfl
@[simp] theorem State.insertByte_pre (b : Byte) : (s.insertByte b).pre = s.pre := rfl
@[simp] theorem State.insertByte_out (b : Byte) : (s.insertByte b).out = s.out := rfl
@[simp] theorem State.insertByte_outFree (b : Byte) : (s.insertByte b).outFree = s.outFree := rfl
@[simp] theorem State.insertByte_sufFresh (b : Byte) : (s.insertByte b).sufFresh = s.sufFresh := rfl
@[simp] theorem State.insertByte_preFresh (b : Byte) : (s.insertByte b).preFresh = s.preFresh := rfl
@[simp] theorem State.insertByte_busy (b : Byte) : (s.insertByte b).busy = s.busy := rfl
@[simp] theorem State.insertByte_host (b : Byte) : (s.insertByte b).host = s.host := rfl
@[simp] theorem State.insertByte_source (b : Byte) : (s.insertByte b).source = s.source := rfl
@[simp] theorem State.insertByte_sourceLoop (b : Byte) : (s.insertByte b).sourceLoop = s.sourceLoop := rfl
@[simp] theorem State.insertByte_trace (b : Byte) : (s.insertByte b).trace = s.trace := rfl
@[simp] theorem State.insertByte_freeCtr (b : Byte) : (s.insertByte b).freeCtr = s.freeCtr := rfl

/-! `State.dropCode` -/

@[simp] theorem State.dropCode_order : (s.dropCode).order = s.order := rfl
@[simp] theorem State.dropCode_litWidth : (s.dropCode).litWidth = s.litWidth := rfl
@[simp] theorem State.dropCode_clear : (s.dropCode).clear = s.clear := rfl
@[simp] theorem State.dropCode_eof : (s.dropCode).eof = s.eof := rfl
@[simp] theorem State.dropCode_bits : (s.dropCode).bits = extractRest s.order s.bits s.width := rfl
@[simp] theorem State.dropCode_nBits : (s.dropCode).nBits = s.nBits - s.width := rfl
@[simp] theorem State.dropCode_width : (s.dropCode).width = s.width := rfl
@[simp] theorem State.dropCode_hi : (s.dropCode).hi = s.hi := rfl
@[simp] theorem State.dropCode_overflow : (s.dropCode).overflow = s.overflow := rfl
@[simp] theorem State.dropCode_lastValid : (s.dropCode).lastValid = s.lastValid := rfl
@[simp] theorem State.dropCode_last : (s.dropCode).last = s.last := rfl
@[simp] theorem State.dropCode_o : (s.dropCode).o = s.o := rfl
@[simp] theorem State.dropCode_pendPos : (s.dropCode).pendPos = s.pendPos := rfl
@[simp] theorem State.dropCode_pendEnd : (s.dropCode).pendEnd = s.pendEnd := rfl
@[simp] theorem State.dropCode_phase : (s.dropCode).phase = s.phase := rfl
@[simp] theorem State.dropCode_cond : (s.dropCode).cond = s.cond := rfl
@[simp] theorem State.dropCode_condPayload : (s.dropCode).condPayload = s.condPayload := rfl
@[simp] theorem State.dropCode_suf : (s.dropCode).suf = s.suf := rfl
@[simp] theorem State.dropCode_pre : (s.dropCode).pre = s.pre := rfl
@[simp] theorem State.dropCode_out : (s.dropCode).out = s.out := rfl
@[simp] theorem State.dropCode_outFree : (s.dropCode).outFree = s.outFree := rfl
@[simp] theorem State.dropCode_sufFresh : (s.dropCode).sufFresh = s.sufFresh := rfl
@[simp] theorem State.dropCode_preFresh : (s.dropCode).preFresh = s.preFresh := rfl
@[simp] theorem State.dropCode_busy : (s.dropCode).busy = s.busy := rfl
@[simp] theorem State.dropCode_host : (s.dropCode).host = s.host := rfl
@[simp] theorem State.dropCode_source : (s.dropCode).source = s.source := rfl
@[simp] theorem State.dropCode_sourceLoop : (s.dropCode).sourceLoop = s.sourceLoop := rfl
@[simp] theorem State.dropCode_trace : (s.dropCode).trace = s.trace := rfl
@[simp] theorem State.dropCode_freeCtr : (s.dropCode).freeCtr = s.freeCtr := rfl

/-! `State.answered` -/

@[simp] theorem State.answered_order (a : Answer) (rest : List SourceWord) : (s.answered a rest).order = s.order := rfl
@[simp] theorem State.answered_litWidth (a : Answer) (rest : List SourceWord) : (s.answered a rest).litWidth = s.litWidth := rfl
@[simp] theorem State.answered_clear (a : Answer) (rest : List SourceWord) : (s.answered a rest).clear = s.clear := rfl
@[simp] theorem State.answered_eof (a : Answer) (rest : List SourceWord) : (s.answered a rest).eof = s.eof := rfl
@[simp] theorem State.answered_bits (a : Answer) (rest : List SourceWord) : (s.answered a rest).bits = s.bits := rfl
@[simp] theorem State.answered_nBits (a : Answer) (rest : List SourceWord) : (s.answered a rest).nBits = s.nBits := rfl
@[simp] theorem State.answered_width (a : Answer) (rest : List SourceWord) : (s.answered a rest).width = s.width := rfl
@[simp] theorem State.answered_hi (a : Answer) (rest : List SourceWord) : (s.answered a rest).hi = s.hi := rfl
@[simp] theorem State.answered_overflow (a : Answer) (rest : List SourceWord) : (s.answered a rest).overflow = s.overflow := rfl
@[simp] theorem State.answered_lastValid (a : Answer) (rest : List SourceWord) : (s.answered a rest).lastValid = s.lastValid := rfl
@[simp] theorem State.answered_last (a : Answer) (rest : List SourceWord) : (s.answered a rest).last = s.last := rfl
@[simp] theorem State.answered_o (a : Answer) (rest : List SourceWord) : (s.answered a rest).o = s.o := rfl
@[simp] theorem State.answered_pendPos (a : Answer) (rest : List SourceWord) : (s.answered a rest).pendPos = s.pendPos := rfl
@[simp] theorem State.answered_pendEnd (a : Answer) (rest : List SourceWord) : (s.answered a rest).pendEnd = s.pendEnd := rfl
@[simp] theorem State.answered_phase (a : Answer) (rest : List SourceWord) : (s.answered a rest).phase = s.phase := rfl
@[simp] theorem State.answered_cond (a : Answer) (rest : List SourceWord) : (s.answered a rest).cond = s.cond := rfl
@[simp] theorem State.answered_condPayload (a : Answer) (rest : List SourceWord) : (s.answered a rest).condPayload = s.condPayload := rfl
@[simp] theorem State.answered_suf (a : Answer) (rest : List SourceWord) : (s.answered a rest).suf = s.suf := rfl
@[simp] theorem State.answered_pre (a : Answer) (rest : List SourceWord) : (s.answered a rest).pre = s.pre := rfl
@[simp] theorem State.answered_out (a : Answer) (rest : List SourceWord) : (s.answered a rest).out = s.out := rfl
@[simp] theorem State.answered_outFree (a : Answer) (rest : List SourceWord) : (s.answered a rest).outFree = s.outFree := rfl
@[simp] theorem State.answered_sufFresh (a : Answer) (rest : List SourceWord) : (s.answered a rest).sufFresh = s.sufFresh := rfl
@[simp] theorem State.answered_preFresh (a : Answer) (rest : List SourceWord) : (s.answered a rest).preFresh = s.preFresh := rfl
@[simp] theorem State.answered_busy (a : Answer) (rest : List SourceWord) : (s.answered a rest).busy = s.busy := rfl
@[simp] theorem State.answered_host (a : Answer) (rest : List SourceWord) : (s.answered a rest).host = s.host := rfl
@[simp] theorem State.answered_source (a : Answer) (rest : List SourceWord) : (s.answered a rest).source = rest := rfl
@[simp] theorem State.answered_sourceLoop (a : Answer) (rest : List SourceWord) : (s.answered a rest).sourceLoop = s.sourceLoop := rfl
@[simp] theorem State.answered_trace (a : Answer) (rest : List SourceWord) : (s.answered a rest).trace = .fetch a :: s.trace := rfl
@[simp] theorem State.answered_freeCtr (a : Answer) (rest : List SourceWord) : (s.answered a rest).freeCtr = s.freeCtr := rfl

/-! `State.takeCommand` -/

@[simp] theorem State.takeCommand_order (w : CmdWord) (rest : List HostAct) : (s.takeCommand w rest).order = s.order := rfl
@[simp] theorem State.takeCommand_litWidth (w : CmdWord) (rest : List HostAct) : (s.takeCommand w rest).litWidth = s.litWidth := rfl
@[simp] theorem State.takeCommand_clear (w : CmdWord) (rest : List HostAct) : (s.takeCommand w rest).clear = s.clear := rfl
@[simp] theorem State.takeCommand_eof (w : CmdWord) (rest : List HostAct) : (s.takeCommand w rest).eof = s.eof := rfl
@[simp] theorem State.takeCommand_bits (w : CmdWord) (rest : List HostAct) : (s.takeCommand w rest).bits = s.bits := rfl
@[simp] theorem State.takeCommand_nBits (w : CmdWord) (rest : List HostAct) : (s.takeCommand w rest).nBits = s.nBits := rfl
@[simp] theorem State.takeCommand_width (w : CmdWord) (rest : List HostAct) : (s.takeCommand w rest).width = s.width := rfl
@[simp] theorem State.takeCommand_hi (w : CmdWord) (rest : List HostAct) : (s.takeCommand w rest).hi = s.hi := rfl
@[simp] theorem State.takeCommand_overflow (w : CmdWord) (rest : List HostAct) : (s.takeCommand w rest).overflow = s.overflow := rfl
@[simp] theorem State.takeCommand_lastValid (w : CmdWord) (rest : List HostAct) : (s.takeCommand w rest).lastValid = s.lastValid := rfl
@[simp] theorem State.takeCommand_last (w : CmdWord) (rest : List HostAct) : (s.takeCommand w rest).last = s.last := rfl
@[simp] theorem State.takeCommand_o (w : CmdWord) (rest : List HostAct) : (s.takeCommand w rest).o = s.o := rfl
@[simp] theorem State.takeCommand_pendPos (w : CmdWord) (rest : List HostAct) : (s.takeCommand w rest).pendPos = s.pendPos := rfl
@[simp] theorem State.takeCommand_pendEnd (w : CmdWord) (rest : List HostAct) : (s.takeCommand w rest).pendEnd = s.pendEnd := rfl
@[simp] theorem State.takeCommand_phase (w : CmdWord) (rest : List HostAct) : (s.takeCommand w rest).phase = s.phase := rfl
@[simp] theorem State.takeCommand_cond (w : CmdWord) (rest : List HostAct) : (s.takeCommand w rest).cond = s.cond := rfl
@[simp] theorem State.takeCommand_condPayload (w : CmdWord) (rest : List HostAct) : (s.takeCommand w rest).condPayload = s.condPayload := rfl
@[simp] theorem State.takeCommand_suf (w : CmdWord) (rest : List HostAct) : (s.takeCommand w rest).suf = s.suf := rfl
@[simp] theorem State.takeCommand_pre (w : CmdWord) (rest : List HostAct) : (s.takeCommand w rest).pre = s.pre := rfl
@[simp] theorem State.takeCommand_out (w : CmdWord) (rest : List HostAct) : (s.takeCommand w rest).out = s.out := rfl
@[simp] theorem State.takeCommand_outFree (w : CmdWord) (rest : List HostAct) : (s.takeCommand w rest).outFree = s.outFree := rfl
@[simp] theorem State.takeCommand_sufFresh (w : CmdWord) (rest : List HostAct) : (s.takeCommand w rest).sufFresh = s.sufFresh := rfl
@[simp] theorem State.takeCommand_preFresh (w : CmdWord) (rest : List HostAct) : (s.takeCommand w rest).preFresh = s.preFresh := rfl
@[simp] theorem State.takeCommand_busy (w : CmdWord) (rest : List HostAct) : (s.takeCommand w rest).busy = s.busy := rfl
@[simp] theorem State.takeCommand_host (w : CmdWord) (rest : List HostAct) : (s.takeCommand w rest).host = rest := rfl
@[simp] theorem State.takeCommand_source (w : CmdWord) (rest : List HostAct) : (s.takeCommand w rest).source = s.source := rfl
@[simp] theorem State.takeCommand_sourceLoop (w : CmdWord) (rest : List HostAct) : (s.takeCommand w rest).sourceLoop = s.sourceLoop := rfl
@[simp] theorem State.takeCommand_trace (w : CmdWord) (rest : List HostAct) : (s.takeCommand w rest).trace = .command w :: s.trace := rfl
@[simp] theorem State.takeCommand_freeCtr (w : CmdWord) (rest : List HostAct) : (s.takeCommand w rest).freeCtr = s.freeCtr := rfl

/-! `State.bumpHi` -/

@[simp] theorem State.bumpHi_order : (s.bumpHi).order = s.order := rfl
@[simp] theorem State.bumpHi_litWidth : (s.bumpHi).litWidth = s.litWidth := rfl
@[simp] theorem State.bumpHi_clear : (s.bumpHi).clear = s.clear := rfl
@[simp] theorem State.bumpHi_eof : (s.bumpHi).eof = s.eof := rfl
@[simp] theorem State.bumpHi_bits : (s.bumpHi).bits = s.bits := rfl
@[simp] theorem State.bumpHi_nBits : (s.bumpHi).nBits = s.nBits := rfl
@[simp] theorem State.bumpHi_width : (s.bumpHi).width = s.width := rfl
@[simp] theorem State.bumpHi_hi : (s.bumpHi).hi = s.hi + 1 := rfl
@[simp] theorem State.bumpHi_overflow : (s.bumpHi).overflow = s.overflow := rfl
@[simp] theorem State.bumpHi_lastValid : (s.bumpHi).lastValid = s.lastValid := rfl
@[simp] theorem State.bumpHi_last : (s.bumpHi).last = s.last := rfl
@[simp] theorem State.bumpHi_o : (s.bumpHi).o = s.o := rfl
@[simp] theorem State.bumpHi_pendPos : (s.bumpHi).pendPos = s.pendPos := rfl
@[simp] theorem State.bumpHi_pendEnd : (s.bumpHi).pendEnd = s.pendEnd := rfl
@[simp] theorem State.bumpHi_phase : (s.bumpHi).phase = s.phase := rfl
@[simp] theorem State.bumpHi_cond : (s.bumpHi).cond = s.cond := rfl
@[simp] theorem State.bumpHi_condPayload : (s.bumpHi).condPayload = s.condPayload := rfl
@[simp] theorem State.bumpHi_suf : (s.bumpHi).suf = s.suf := rfl
@[simp] theorem State.bumpHi_pre : (s.bumpHi).pre = s.pre := rfl
@[simp] theorem State.bumpHi_out : (s.bumpHi).out = s.out := rfl
@[simp] theorem State.bumpHi_outFree : (s.bumpHi).outFree = s.outFree := rfl
@[simp] theorem State.bumpHi_sufFresh : (s.bumpHi).sufFresh = s.sufFresh := rfl
@[simp] theorem State.bumpHi_preFresh : (s.bumpHi).preFresh = s.preFresh := rfl
@[simp] theorem State.bumpHi_busy : (s.bumpHi).busy = s.busy := rfl
@[simp] theorem State.bumpHi_host : (s.bumpHi).host = s.host := rfl
@[simp] theorem State.bumpHi_source : (s.bumpHi).source = s.source := rfl
@[simp] theorem State.bumpHi_sourceLoop : (s.bumpHi).sourceLoop = s.sourceLoop := rfl
@[simp] theorem State.bumpHi_trace : (s.bumpHi).trace = s.trace := rfl
@[simp] theorem State.bumpHi_freeCtr : (s.bumpHi).freeCtr = s.freeCtr := rfl

/-! `State.grow` -/

@[simp] theorem State.grow_order : (s.grow).order = s.order := rfl
@[simp] theorem State.grow_litWidth : (s.grow).litWidth = s.litWidth := rfl
@[simp] theorem State.grow_clear : (s.grow).clear = s.clear := rfl
@[simp] theorem State.grow_eof : (s.grow).eof = s.eof := rfl
@[simp] theorem State.grow_bits : (s.grow).bits = s.bits := rfl
@[simp] theorem State.grow_nBits : (s.grow).nBits = s.nBits := rfl
@[simp] theorem State.grow_width : (s.grow).width = s.width + 1 := rfl
@[simp] theorem State.grow_hi : (s.grow).hi = s.hi := rfl
@[simp] theorem State.grow_overflow : (s.grow).overflow = 2 ^ (s.width + 1) := rfl
@[simp] theorem State.grow_lastValid : (s.grow).lastValid = s.lastValid := rfl
@[simp] theorem State.grow_last : (s.grow).last = s.last := rfl
@[simp] theorem State.grow_o : (s.grow).o = s.o := rfl
@[simp] theorem State.grow_pendPos : (s.grow).pendPos = s.pendPos := rfl
@[simp] theorem State.grow_pendEnd : (s.grow).pendEnd = s.pendEnd := rfl
@[simp] theorem State.grow_phase : (s.grow).phase = s.phase := rfl
@[simp] theorem State.grow_cond : (s.grow).cond = s.cond := rfl
@[simp] theorem State.grow_condPayload : (s.grow).condPayload = s.condPayload := rfl
@[simp] theorem State.grow_suf : (s.grow).suf = s.suf := rfl
@[simp] theorem State.grow_pre : (s.grow).pre = s.pre := rfl
@[simp] theorem State.grow_out : (s.grow).out = s.out := rfl
@[simp] theorem State.grow_outFree : (s.grow).outFree = s.outFree := rfl
@[simp] theorem State.grow_sufFresh : (s.grow).sufFresh = s.sufFresh := rfl
@[simp] theorem State.grow_preFresh : (s.grow).preFresh = s.preFresh := rfl
@[simp] theorem State.grow_busy : (s.grow).busy = s.busy := rfl
@[simp] theorem State.grow_host : (s.grow).host = s.host := rfl
@[simp] theorem State.grow_source : (s.grow).source = s.source := rfl
@[simp] theorem State.grow_sourceLoop : (s.grow).sourceLoop = s.sourceLoop := rfl
@[simp] theorem State.grow_trace : (s.grow).trace = s.trace := rfl
@[simp] theorem State.grow_freeCtr : (s.grow).freeCtr = s.freeCtr := rfl

/-! `State.rollBack` -/

@[simp] theorem State.rollBack_order : (s.rollBack).order = s.order := rfl
@[simp] theorem State.rollBack_litWidth : (s.rollBack).litWidth = s.litWidth := rfl
@[simp] theorem State.rollBack_clear : (s.rollBack).clear = s.clear := rfl
@[simp] theorem State.rollBack_eof : (s.rollBack).eof = s.eof := rfl
@[simp] theorem State.rollBack_bits : (s.rollBack).bits = s.bits := rfl
@[simp] theorem State.rollBack_nBits : (s.rollBack).nBits = s.nBits := rfl
@[simp] theorem State.rollBack_width : (s.rollBack).width = s.width := rfl
@[simp] theorem State.rollBack_hi : (s.rollBack).hi = s.hi - 1 := rfl
@[simp] theorem State.rollBack_overflow : (s.rollBack).overflow = s.overflow := rfl
@[simp] theorem State.rollBack_lastValid : (s.rollBack).lastValid = false := rfl
@[simp] theorem State.rollBack_last : (s.rollBack).last = (Config.freeValue 12 s.freeCtr).toNat := rfl
@[simp] theorem State.rollBack_o : (s.rollBack).o = s.o := rfl
@[simp] theorem State.rollBack_pendPos : (s.rollBack).pendPos = s.pendPos := rfl
@[simp] theorem State.rollBack_pendEnd : (s.rollBack).pendEnd = s.pendEnd := rfl
@[simp] theorem State.rollBack_phase : (s.rollBack).phase = s.phase := rfl
@[simp] theorem State.rollBack_cond : (s.rollBack).cond = s.cond := rfl
@[simp] theorem State.rollBack_condPayload : (s.rollBack).condPayload = s.condPayload := rfl
@[simp] theorem State.rollBack_suf : (s.rollBack).suf = s.suf := rfl
@[simp] theorem State.rollBack_pre : (s.rollBack).pre = s.pre := rfl
@[simp] theorem State.rollBack_out : (s.rollBack).out = s.out := rfl
@[simp] theorem State.rollBack_outFree : (s.rollBack).outFree = s.outFree := rfl
@[simp] theorem State.rollBack_sufFresh : (s.rollBack).sufFresh = s.sufFresh := rfl
@[simp] theorem State.rollBack_preFresh : (s.rollBack).preFresh = s.preFresh := rfl
@[simp] theorem State.rollBack_busy : (s.rollBack).busy = s.busy := rfl
@[simp] theorem State.rollBack_host : (s.rollBack).host = s.host := rfl
@[simp] theorem State.rollBack_source : (s.rollBack).source = s.source := rfl
@[simp] theorem State.rollBack_sourceLoop : (s.rollBack).sourceLoop = s.sourceLoop := rfl
@[simp] theorem State.rollBack_trace : (s.rollBack).trace = s.trace := rfl
@[simp] theorem State.rollBack_freeCtr : (s.rollBack).freeCtr = s.freeCtr + 1 := rfl

/-! `State.advanceO` -/

@[simp] theorem State.advanceO_order (n : Nat) : (s.advanceO n).order = s.order := rfl
@[simp] theorem State.advanceO_litWidth (n : Nat) : (s.advanceO n).litWidth = s.litWidth := rfl
@[simp] theorem State.advanceO_clear (n : Nat) : (s.advanceO n).clear = s.clear := rfl
@[simp] theorem State.advanceO_eof (n : Nat) : (s.advanceO n).eof = s.eof := rfl
@[simp] theorem State.advanceO_bits (n : Nat) : (s.advanceO n).bits = s.bits := rfl
@[simp] theorem State.advanceO_nBits (n : Nat) : (s.advanceO n).nBits = s.nBits := rfl
@[simp] theorem State.advanceO_width (n : Nat) : (s.advanceO n).width = s.width := rfl
@[simp] theorem State.advanceO_hi (n : Nat) : (s.advanceO n).hi = s.hi := rfl
@[simp] theorem State.advanceO_overflow (n : Nat) : (s.advanceO n).overflow = s.overflow := rfl
@[simp] theorem State.advanceO_lastValid (n : Nat) : (s.advanceO n).lastValid = s.lastValid := rfl
@[simp] theorem State.advanceO_last (n : Nat) : (s.advanceO n).last = s.last := rfl
@[simp] theorem State.advanceO_o (n : Nat) : (s.advanceO n).o = s.o + n := rfl
@[simp] theorem State.advanceO_pendPos (n : Nat) : (s.advanceO n).pendPos = s.pendPos := rfl
@[simp] theorem State.advanceO_pendEnd (n : Nat) : (s.advanceO n).pendEnd = s.pendEnd := rfl
@[simp] theorem State.advanceO_phase (n : Nat) : (s.advanceO n).phase = s.phase := rfl
@[simp] theorem State.advanceO_cond (n : Nat) : (s.advanceO n).cond = s.cond := rfl
@[simp] theorem State.advanceO_condPayload (n : Nat) : (s.advanceO n).condPayload = s.condPayload := rfl
@[simp] theorem State.advanceO_suf (n : Nat) : (s.advanceO n).suf = s.suf := rfl
@[simp] theorem State.advanceO_pre (n : Nat) : (s.advanceO n).pre = s.pre := rfl
@[simp] theorem State.advanceO_out (n : Nat) : (s.advanceO n).out = s.out := rfl
@[simp] theorem State.advanceO_outFree (n : Nat) : (s.advanceO n).outFree = s.outFree := rfl
@[simp] theorem State.advanceO_sufFresh (n : Nat) : (s.advanceO n).sufFresh = s.sufFresh := rfl
@[simp] theorem State.advanceO_preFresh (n : Nat) : (s.advanceO n).preFresh = s.preFresh := rfl
@[simp] theorem State.advanceO_busy (n : Nat) : (s.advanceO n).busy = s.busy := rfl
@[simp] theorem State.advanceO_host (n : Nat) : (s.advanceO n).host = s.host := rfl
@[simp] theorem State.advanceO_source (n : Nat) : (s.advanceO n).source = s.source := rfl
@[simp] theorem State.advanceO_sourceLoop (n : Nat) : (s.advanceO n).sourceLoop = s.sourceLoop := rfl
@[simp] theorem State.advanceO_trace (n : Nat) : (s.advanceO n).trace = s.trace := rfl
@[simp] theorem State.advanceO_freeCtr (n : Nat) : (s.advanceO n).freeCtr = s.freeCtr := rfl

/-! `State.clearTable` -/

@[simp] theorem State.clearTable_order : (s.clearTable).order = s.order := rfl
@[simp] theorem State.clearTable_litWidth : (s.clearTable).litWidth = s.litWidth := rfl
@[simp] theorem State.clearTable_clear : (s.clearTable).clear = s.clear := rfl
@[simp] theorem State.clearTable_eof : (s.clearTable).eof = s.eof := rfl
@[simp] theorem State.clearTable_bits : (s.clearTable).bits = s.bits := rfl
@[simp] theorem State.clearTable_nBits : (s.clearTable).nBits = s.nBits := rfl
@[simp] theorem State.clearTable_width : (s.clearTable).width = s.litWidth + 1 := rfl
@[simp] theorem State.clearTable_hi : (s.clearTable).hi = s.eof := rfl
@[simp] theorem State.clearTable_overflow : (s.clearTable).overflow = 2 ^ (s.litWidth + 1) := rfl
@[simp] theorem State.clearTable_lastValid : (s.clearTable).lastValid = false := rfl
@[simp] theorem State.clearTable_last : (s.clearTable).last = (Config.freeValue 12 s.freeCtr).toNat := rfl
@[simp] theorem State.clearTable_o : (s.clearTable).o = s.o := rfl
@[simp] theorem State.clearTable_pendPos : (s.clearTable).pendPos = s.pendPos := rfl
@[simp] theorem State.clearTable_pendEnd : (s.clearTable).pendEnd = s.pendEnd := rfl
@[simp] theorem State.clearTable_phase : (s.clearTable).phase = .cleared := rfl
@[simp] theorem State.clearTable_cond : (s.clearTable).cond = s.cond := rfl
@[simp] theorem State.clearTable_condPayload : (s.clearTable).condPayload = s.condPayload := rfl
@[simp] theorem State.clearTable_suf : (s.clearTable).suf = s.suf := rfl
@[simp] theorem State.clearTable_pre : (s.clearTable).pre = s.pre := rfl
@[simp] theorem State.clearTable_out : (s.clearTable).out = s.out := rfl
@[simp] theorem State.clearTable_outFree : (s.clearTable).outFree = s.outFree := rfl
@[simp] theorem State.clearTable_sufFresh : (s.clearTable).sufFresh = [] := rfl
@[simp] theorem State.clearTable_preFresh : (s.clearTable).preFresh = [] := rfl
@[simp] theorem State.clearTable_busy : (s.clearTable).busy = s.busy := rfl
@[simp] theorem State.clearTable_host : (s.clearTable).host = s.host := rfl
@[simp] theorem State.clearTable_source : (s.clearTable).source = s.source := rfl
@[simp] theorem State.clearTable_sourceLoop : (s.clearTable).sourceLoop = s.sourceLoop := rfl
@[simp] theorem State.clearTable_trace : (s.clearTable).trace = s.trace := rfl
@[simp] theorem State.clearTable_freeCtr : (s.clearTable).freeCtr = s.freeCtr + 1 := rfl

/-! `State.rename` -/

@[simp] theorem State.rename_order (f : SrcErr → SrcErr) : (s.rename f).order = s.order := rfl
@[simp] theorem State.rename_litWidth (f : SrcErr → SrcErr) : (s.rename f).litWidth = s.litWidth := rfl
@[simp] theorem State.rename_clear (f : SrcErr → SrcErr) : (s.rename f).clear = s.clear := rfl
@[simp] theorem State.rename_eof (f : SrcErr → SrcErr) : (s.rename f).eof = s.eof := rfl
@[simp] theorem State.rename_bits (f : SrcErr → SrcErr) : (s.rename f).bits = s.bits := rfl
@[simp] theorem State.rename_nBits (f : SrcErr → SrcErr) : (s.rename f).nBits = s.nBits := rfl
@[simp] theorem State.rename_width (f : SrcErr → SrcErr) : (s.rename f).width = s.width := rfl
@[simp] theorem State.rename_hi (f : SrcErr → SrcErr) : (s.rename f).hi = s.hi := rfl
@[simp] theorem State.rename_overflow (f : SrcErr → SrcErr) : (s.rename f).overflow = s.overflow := rfl
@[simp] theorem State.rename_lastValid (f : SrcErr → SrcErr) : (s.rename f).lastValid = s.lastValid := rfl
@[simp] theorem State.rename_last (f : SrcErr → SrcErr) : (s.rename f).last = s.last := rfl
@[simp] theorem State.rename_o (f : SrcErr → SrcErr) : (s.rename f).o = s.o := rfl
@[simp] theorem State.rename_pendPos (f : SrcErr → SrcErr) : (s.rename f).pendPos = s.pendPos := rfl
@[simp] theorem State.rename_pendEnd (f : SrcErr → SrcErr) : (s.rename f).pendEnd = s.pendEnd := rfl
@[simp] theorem State.rename_phase (f : SrcErr → SrcErr) : (s.rename f).phase = s.phase := rfl
@[simp] theorem State.rename_cond (f : SrcErr → SrcErr) : (s.rename f).cond = s.cond := rfl
@[simp] theorem State.rename_condPayload (f : SrcErr → SrcErr) : (s.rename f).condPayload = f s.condPayload := rfl
@[simp] theorem State.rename_suf (f : SrcErr → SrcErr) : (s.rename f).suf = s.suf := rfl
@[simp] theorem State.rename_pre (f : SrcErr → SrcErr) : (s.rename f).pre = s.pre := rfl
@[simp] theorem State.rename_out (f : SrcErr → SrcErr) : (s.rename f).out = s.out := rfl
@[simp] theorem State.rename_outFree (f : SrcErr → SrcErr) : (s.rename f).outFree = s.outFree := rfl
@[simp] theorem State.rename_sufFresh (f : SrcErr → SrcErr) : (s.rename f).sufFresh = s.sufFresh := rfl
@[simp] theorem State.rename_preFresh (f : SrcErr → SrcErr) : (s.rename f).preFresh = s.preFresh := rfl
@[simp] theorem State.rename_busy (f : SrcErr → SrcErr) : (s.rename f).busy = s.busy := rfl
@[simp] theorem State.rename_host (f : SrcErr → SrcErr) : (s.rename f).host = s.host := rfl
@[simp] theorem State.rename_source (f : SrcErr → SrcErr) : (s.rename f).source = s.source.map (renameWord f) := rfl
@[simp] theorem State.rename_sourceLoop (f : SrcErr → SrcErr) : (s.rename f).sourceLoop = s.sourceLoop.map (renameWord f) := rfl
@[simp] theorem State.rename_trace (f : SrcErr → SrcErr) : (s.rename f).trace = s.trace.map (renameEvent f) := rfl
@[simp] theorem State.rename_freeCtr (f : SrcErr → SrcErr) : (s.rename f).freeCtr = s.freeCtr := rfl

/-! `State.setClosed` -/

@[simp] theorem State.setClosed_order : (s.setClosed).order = s.order := rfl
@[simp] theorem State.setClosed_litWidth : (s.setClosed).litWidth = s.litWidth := rfl
@[simp] theorem State.setClosed_clear : (s.setClosed).clear = s.clear := rfl
@[simp] theorem State.setClosed_eof : (s.setClosed).eof = s.eof := rfl
@[simp] theorem State.setClosed_bits : (s.setClosed).bits = s.bits := rfl
@[simp] theorem State.setClosed_nBits : (s.setClosed).nBits = s.nBits := rfl
@[simp] theorem State.setClosed_width : (s.setClosed).width = s.width := rfl
@[simp] theorem State.setClosed_hi : (s.setClosed).hi = s.hi := rfl
@[simp] theorem State.setClosed_overflow : (s.setClosed).overflow = s.overflow := rfl
@[simp] theorem State.setClosed_lastValid : (s.setClosed).lastValid = s.lastValid := rfl
@[simp] theorem State.setClosed_last : (s.setClosed).last = s.last := rfl
@[simp] theorem State.setClosed_o : (s.setClosed).o = s.o := rfl
@[simp] theorem State.setClosed_pendPos : (s.setClosed).pendPos = s.pendPos := rfl
@[simp] theorem State.setClosed_pendEnd : (s.setClosed).pendEnd = s.pendEnd := rfl
@[simp] theorem State.setClosed_phase : (s.setClosed).phase = .closed := rfl
@[simp] theorem State.setClosed_cond : (s.setClosed).cond = .closed := rfl
@[simp] theorem State.setClosed_condPayload : (s.setClosed).condPayload = s.condPayload := rfl
@[simp] theorem State.setClosed_suf : (s.setClosed).suf = s.suf := rfl
@[simp] theorem State.setClosed_pre : (s.setClosed).pre = s.pre := rfl
@[simp] theorem State.setClosed_out : (s.setClosed).out = s.out := rfl
@[simp] theorem State.setClosed_outFree : (s.setClosed).outFree = s.outFree := rfl
@[simp] theorem State.setClosed_sufFresh : (s.setClosed).sufFresh = s.sufFresh := rfl
@[simp] theorem State.setClosed_preFresh : (s.setClosed).preFresh = s.preFresh := rfl
@[simp] theorem State.setClosed_busy : (s.setClosed).busy = s.busy := rfl
@[simp] theorem State.setClosed_host : (s.setClosed).host = s.host := rfl
@[simp] theorem State.setClosed_source : (s.setClosed).source = s.source := rfl
@[simp] theorem State.setClosed_sourceLoop : (s.setClosed).sourceLoop = s.sourceLoop := rfl
@[simp] theorem State.setClosed_trace : (s.setClosed).trace = s.trace := rfl
@[simp] theorem State.setClosed_freeCtr : (s.setClosed).freeCtr = s.freeCtr := rfl

end Sys2Proof.Machine
end

