-- ==== Sys2Proof/Laws/Ops.lean ====
section
/-! SUPPORT. What the arrays and the access primitives do: one lemma per shared operation. -/

namespace Sys2Proof.Machine

/-! ## Arrays -/

section Arrays
variable {α : Type}

theorem Memory.read_write (m : Memory α) (a b : Nat) (v : α) :
    Memory.read (Memory.write m a v) b = if b = a then some v else Memory.read m b := by
  induction m with
  | nil => simp [Memory.write, Memory.read]
  | cons e m ih =>
    obtain ⟨c, w⟩ := e
    unfold Memory.write
    split
    · simp [Memory.read]
    · split
      · subst_vars; simp only [Memory.read]; split <;> rfl
      · simp only [Memory.read, ih]; split <;> split <;> simp_all

@[simp] theorem Memory.read_write_same (m : Memory α) (a : Nat) (v : α) :
    Memory.read (Memory.write m a v) a = some v := by simp [Memory.read_write]

theorem Memory.read_write_other (m : Memory α) {a b : Nat} (v : α) (h : b ≠ a) :
    Memory.read (Memory.write m a v) b = Memory.read m b := by simp [Memory.read_write, h]

theorem Memory.wfFrom_mono {size lo lo' : Nat} {m : Memory α} (h : lo' ≤ lo) (hm : Memory.wfFrom size lo m = true) :
    Memory.wfFrom size lo' m = true := by
  cases m with
  | nil => rfl
  | cons e m =>
    simp only [Memory.wfFrom, Bool.and_eq_true, decide_eq_true_eq] at hm ⊢
    exact ⟨⟨by omega, hm.1.2⟩, hm.2⟩

theorem Memory.wfFrom_write {size lo a : Nat} {m : Memory α} (v : α) (hlo : lo ≤ a) (ha : a < size)
    (hm : Memory.wfFrom size lo m = true) : Memory.wfFrom size lo (Memory.write m a v) = true := by
  induction m generalizing lo with
  | nil => simp [Memory.write, Memory.wfFrom, hlo, ha]
  | cons e m ih =>
    obtain ⟨c, w⟩ := e
    simp only [Memory.wfFrom, Bool.and_eq_true, decide_eq_true_eq] at hm
    unfold Memory.write
    split
    · simp only [Memory.wfFrom, Bool.and_eq_true, decide_eq_true_eq]
      exact ⟨⟨hlo, ha⟩, ⟨by omega, hm.1.2⟩, hm.2⟩
    · split
      · subst_vars; simp only [Memory.wfFrom, Bool.and_eq_true, decide_eq_true_eq]; exact hm
      · simp only [Memory.wfFrom, Bool.and_eq_true, decide_eq_true_eq]
        exact ⟨hm.1, ih (by omega) hm.2⟩

/-- Every write inside the array keeps its canonical form. -/
theorem Memory.wf_write {size a : Nat} {m : Memory α} (v : α) (ha : a < size) (hm : Memory.wf size m = true) :
    Memory.wf size (Memory.write m a v) = true := Memory.wfFrom_write v (Nat.zero_le a) ha hm

end Arrays

@[simp] theorem mem_markSlot (c x : Nat) (l : List Nat) : x ∈ markSlot c l ↔ x = c ∨ x ∈ l := by
  induction l with
  | nil => simp [markSlot]
  | cons d ds ih =>
    unfold markSlot
    split
    · simp
    · split
      · subst_vars; simp
      · simp [ih]; tauto

theorem risingFrom_markSlot {size lo c : Nat} {l : List Nat} (hlo : lo ≤ c) (hc : c < size)
    (hl : risingFrom size lo l = true) : risingFrom size lo (markSlot c l) = true := by
  induction l generalizing lo with
  | nil => simp [markSlot, risingFrom, hlo, hc]
  | cons d ds ih =>
    simp only [risingFrom, Bool.and_eq_true, decide_eq_true_eq] at hl
    unfold markSlot
    split
    · simp only [risingFrom, Bool.and_eq_true, decide_eq_true_eq]
      exact ⟨⟨hlo, hc⟩, ⟨by omega, hl.1.2⟩, hl.2⟩
    · split
      · simp only [risingFrom, Bool.and_eq_true, decide_eq_true_eq]; exact hl
      · simp only [risingFrom, Bool.and_eq_true, decide_eq_true_eq]
        exact ⟨hl.1, ih (by omega) hl.2⟩

/-! ## Access primitives: what an answer says -/

theorem sufRead_eq_ok {s : State} {c : Nat} {b : Byte} :
    sufRead s c = .ok b ↔ c < Config.tableSize ∧ c ∈ s.sufFresh ∧ Memory.read s.suf c = some b := by
  unfold sufRead
  by_cases h : Config.tableSize ≤ c
  · simp [h]
  · by_cases h' : c ∈ s.sufFresh
    · cases hr : Memory.read s.suf c <;> (simp [h, h']; try omega)
    · simp [h, h']

theorem preRead_eq_ok {s : State} {c : Nat} {p : Code} :
    preRead s c = .ok p ↔ c < Config.tableSize ∧ c ∈ s.preFresh ∧ Memory.read s.pre c = some p := by
  unfold preRead
  by_cases h : Config.tableSize ≤ c
  · simp [h]
  · by_cases h' : c ∈ s.preFresh
    · cases hr : Memory.read s.pre c <;> (simp [h, h']; try omega)
    · simp [h, h']

/-- A written byte of OUT is the byte written. -/
theorem outByte_of_read {s : State} {i : Nat} {b : Byte} (h : Memory.read s.out i = some b) : outByte s i = b := by
  simp [outByte, h]

/-- After a write of OUT the byte written reads there, and every other byte as before. -/
theorem outByte_putOut (s : State) (i j v : Nat) :
    outByte (s.putOut i v) j = if j = i then BitVec.ofNat 8 v else outByte s j := by
  by_cases h : j = i <;> simp [outByte, Memory.read_write, h]

theorem outRead_eq_ok {s : State} {i : Nat} {b : Byte} :
    outRead s i = .ok b ↔ i < Config.outSize ∧ outByte s i = b := by
  unfold outRead; split <;> simp <;> omega

theorem sufWrite_eq_ok {s t : State} {c v : Nat} :
    sufWrite s c v = .ok t ↔ c < Config.tableSize ∧ t = s.putSuf c v := by
  unfold sufWrite; split <;> simp [eq_comm] <;> omega

theorem preWrite_eq_ok {s t : State} {c v : Nat} :
    preWrite s c v = .ok t ↔ c < Config.tableSize ∧ t = s.putPre c v := by
  unfold preWrite; split <;> simp [eq_comm] <;> omega

theorem outWrite_eq_ok {s t : State} {i v : Nat} :
    outWrite s i v = .ok t ↔ i < Config.outSize ∧ t = s.putOut i v := by
  unfold outWrite; split <;> simp [eq_comm] <;> omega

theorem finish_eq_next {r : Except Fault State} {t : State} : finish r = .next t ↔ r = .ok t := by
  cases r <;> simp [finish]

theorem whenIdle_eq_next {s t : State} {k : Host.Outcome State Fault Refusal} :
    whenIdle s k = .next t ↔ s.busy = none ∧ k = .next t := by
  unfold whenIdle; cases s.busy <;> simp

/-! ## Delivery -/

/-- What a window read answers: the bytes that stand there. -/
theorem outWindow_eq_ok {s : State} {k p : Nat} {bs : List Byte} (h : outWindow s p k = .ok bs) :
    bs.length = k ∧ ∀ j, j < k → p + j < Config.outSize ∧ bs[j]? = some (outByte s (p + j)) := by
  induction k generalizing p bs with
  | zero => simp_all [outWindow]
  | succ k ih =>
    unfold outWindow at h
    split at h
    · cases h
    · rename_i b hb
      split at h
      · cases h
      · rename_i cs hcs
        cases h
        obtain ⟨hl, hr⟩ := ih hcs
        refine ⟨by simp [hl], fun j hj => ?_⟩
        cases j with
        | zero => obtain ⟨hp, hv⟩ := outRead_eq_ok.mp hb; simp [hp, hv]
        | succ j => simpa [Nat.add_assoc, Nat.add_comm 1 j] using hr j (by omega)

/-- Every window inside OUT reads. -/
theorem outWindow_ok {s : State} {k p : Nat} (h : p + k ≤ Config.outSize) : ∃ bs, outWindow s p k = .ok bs := by
  induction k generalizing p with
  | zero => exact ⟨[], rfl⟩
  | succ k ih =>
    obtain ⟨bs, hbs⟩ := ih (p := p + 1) (by omega)
    refine ⟨outByte s p :: bs, ?_⟩
    have hp : outRead s p = .ok (outByte s p) := outRead_eq_ok.mpr ⟨by omega, rfl⟩
    simp [outWindow, hp, hbs]

theorem deliver_cases {n : BitVec 16} {s t : State} (h : deliver n s = .ok t) :
    ∃ data, outWindow s s.pendPos (deliverCount s n) = .ok data ∧
      t = (s.takePending (deliverCount s n)).respond (.read .ok (BitVec.ofNat 16 (deliverCount s n)) data none) := by
  unfold deliver at h
  split at h
  · cases h
  · rename_i data hd; cases h; exact ⟨data, hd, rfl⟩

theorem readLoop_cases {n : BitVec 16} {s t : State} (h : readLoop n s = .ok t) :
    (s.pendPos < s.pendEnd ∧ deliver n s = .ok t) ∨
    (s.pendEnd ≤ s.pendPos ∧ s.phase.terminal = true ∧ t = respondStored s) ∨
    (s.pendEnd ≤ s.pendPos ∧ s.phase.terminal = false ∧ t = s.startPass n) := by
  unfold readLoop at h
  split at h
  · exact .inl ⟨‹_›, h⟩
  · split at h
    · cases h; exact .inr (.inl ⟨by omega, ‹_›, rfl⟩)
    · cases h; exact .inr (.inr ⟨by omega, by simp_all, rfl⟩)

theorem endPass_cases {s t : State} (h : endPass s = .ok t) :
    (∃ n, s.busy = some n ∧ readLoop n s.flush = .ok t) ∨ (s.busy = none ∧ t = s.flush) := by
  unfold endPass at h
  split at h
  · exact .inl ⟨_, ‹_›, h⟩
  · cases h; exact .inr ⟨‹_›, rfl⟩

theorem flushCheck_cases {s t : State} (h : flushCheck s = .ok t) :
    (Config.flushThreshold ≤ s.o ∧ endPass s = .ok t) ∨ (s.o < Config.flushThreshold ∧ t = s) := by
  unfold flushCheck at h
  split at h
  · exact .inl ⟨‹_›, h⟩
  · cases h; exact .inr ⟨by omega, rfl⟩

/-! ## Table -/

theorem sealEntry_cases {v : Nat} {s t : State} (h : sealEntry v s = .ok t) :
    (s.lastValid = true ∧ s.hi < Config.tableSize ∧ t = (s.putSuf s.hi v).putPre s.hi s.last) ∨
    (s.lastValid = false ∧ t = s) := by
  unfold sealEntry at h
  split at h
  · split at h
    · cases h
    · rename_i u hu
      obtain ⟨hlt, rfl⟩ := sufWrite_eq_ok.mp hu
      obtain ⟨-, rfl⟩ := preWrite_eq_ok.mp h
      exact .inl ⟨‹_›, hlt, rfl⟩
  · cases h; exact .inr ⟨by simp_all, rfl⟩

theorem sealEntry_ok {v : Nat} {s : State} (h : s.lastValid = true → s.hi < Config.tableSize) :
    sealEntry v s = .ok (if s.lastValid then (s.putSuf s.hi v).putPre s.hi s.last else s) := by
  unfold sealEntry
  by_cases hl : s.lastValid = true
  · have hh := h hl
    simp [hl, sufWrite, preWrite, Nat.not_le.mpr hh]
  · simp [hl]

theorem trailer_cases {code : Nat} {s t : State} (h : trailer code s = .ok t) :
    (s.hi + 1 < s.overflow ∧ t = (s.setLast code).bumpHi) ∨
    (s.hi + 1 = s.overflow ∧ s.width = Config.maxWidth ∧ t = (s.setLast code).bumpHi.rollBack) ∨
    (s.hi + 1 = s.overflow ∧ s.width ≠ Config.maxWidth ∧ t = (s.setLast code).bumpHi.grow) := by
  unfold trailer growthCheck at h
  simp only [State.bumpHi_hi, State.bumpHi_overflow, State.bumpHi_width, State.setLast_hi, State.setLast_overflow,
    State.setLast_width] at h
  by_cases h₁ : s.overflow ≤ s.hi + 1
  · by_cases h₂ : s.overflow < s.hi + 1
    · simp [h₁, h₂] at h
    · by_cases h₃ : s.width = Config.maxWidth
      · simp only [h₁, h₂, h₃, if_true, if_false, Except.ok.injEq] at h
        exact .inr (.inl ⟨by omega, h₃, h.symm⟩)
      · simp only [h₁, h₂, h₃, if_true, if_false, Except.ok.injEq] at h
        exact .inr (.inr ⟨by omega, h₃, h.symm⟩)
  · simp only [h₁, if_false, Except.ok.injEq] at h
    exact .inl ⟨by omega, h.symm⟩

theorem endStep_cases {code : Nat} {s t : State} (h : endStep code s = .ok t) :
    ∃ u, trailer code s.setDecoding = .ok u ∧ flushCheck u = .ok t := by
  unfold endStep at h
  split at h
  · cases h
  · exact ⟨_, ‹_›, h⟩

theorem literalStep_cases {code : Nat} {s t : State} (h : literalStep code s = .ok t) :
    s.o < Config.outSize ∧ ∃ u, sealEntry code ((s.putOut s.o code).advanceO 1) = .ok u ∧ endStep code u = .ok t := by
  unfold literalStep putByte at h
  split at h
  · cases h
  · rename_i s₁ h₁
    split at h₁
    · cases h₁
    · rename_i s₀ h₀
      cases h₁
      obtain ⟨ho, rfl⟩ := outWrite_eq_ok.mp h₀
      split at h
      · cases h
      · exact ⟨ho, _, ‹_›, h⟩

/-! ## Expansion -/

/-- The state with other scratch contents: all the walk and the copy can change. -/
def State.withOut (s : State) (m : Memory Byte) : State := { s with out := m }

theorem walk_frame {fuel c i : Nat} {s t : State} {head top : Nat} (h : walk fuel c i s = .ok (head, top, t)) :
    ∃ m, t = s.withOut m := by
  induction fuel generalizing c i s with
  | zero =>
    unfold walk at h
    split at h
    · split at h
      · cases h
      · rename_i s' hs'
        cases h
        exact ⟨_, (outWrite_eq_ok.mp hs').2⟩
    · cases h
  | succ fuel ih =>
    unfold walk at h
    split at h
    · split at h
      · cases h
      · rename_i s' hs'
        cases h
        exact ⟨_, (outWrite_eq_ok.mp hs').2⟩
    · simp only at h
      split at h
      · cases h
      · split at h
        · cases h
        · rename_i s' hs'
          obtain ⟨-, rfl⟩ := outWrite_eq_ok.mp hs'
          split at h
          · cases h
          · obtain ⟨m, rfl⟩ := ih h
            exact ⟨m, rfl⟩

theorem copyUp_frame {n src dst : Nat} {s t : State} (h : copyUp n src dst s = .ok t) : ∃ m, t = s.withOut m := by
  induction n generalizing src dst s with
  | zero => cases h; exact ⟨t.out, rfl⟩
  | succ n ih =>
    unfold copyUp at h
    split at h
    · cases h
    · split at h
      · cases h
      · rename_i s' hs'
        obtain ⟨-, rfl⟩ := outWrite_eq_ok.mp hs'
        obtain ⟨m, rfl⟩ := ih h
        exact ⟨m, rfl⟩

theorem assembleTail_frame {i : Nat} {s t : State} (h : assembleTail i s = .ok t) :
    ∃ m, t = (s.withOut m).advanceO (Config.outSize - i) := by
  unfold assembleTail at h
  split at h
  · cases h
  · rename_i s' hs'
    obtain ⟨m, rfl⟩ := copyUp_frame hs'
    cases h; exact ⟨m, rfl⟩

/-- Everything DICT and KWKWK's common part can do: scratch bytes, the cursor, the seal, the end of the step. -/
theorem expandStep_cases {code c i : Nat} {s t : State} (h : expandStep code c i s = .ok t) :
    ∃ head n m u, sealEntry head ((s.withOut m).advanceO n) = .ok u ∧ endStep code u = .ok t := by
  unfold expandStep at h
  split at h
  · cases h
  · rename_i head top s₁ h₁
    obtain ⟨m₁, rfl⟩ := walk_frame h₁
    split at h
    · cases h
    · rename_i s₂ h₂
      obtain ⟨m₂, rfl⟩ := assembleTail_frame h₂
      split at h
      · cases h
      · rename_i s₃ h₃
        exact ⟨head, Config.outSize - top, m₂, s₃, h₃, h⟩

theorem kwkwkStep_cases {code : Nat} {s t : State} (h : kwkwkStep code s = .ok t) :
    ∃ head n m u, sealEntry head ((s.withOut m).advanceO n) = .ok u ∧ endStep code u = .ok t := by
  unfold kwkwkStep at h
  split at h
  · cases h
  · split at h
    · cases h
    · rename_i s₁ h₁
      obtain ⟨-, rfl⟩ := outWrite_eq_ok.mp h₁
      obtain ⟨head, n, m, u, hu, ht⟩ := expandStep_cases h
      exact ⟨head, n, m, u, hu, ht⟩

/-! ## The byte source -/

/-- The next answer is the first of `source`, and where that is empty the first of `sourceLoop`. -/
theorem nextAnswer_eq_some {s : State} {a : SourceWord} {rest : List SourceWord} :
    s.nextAnswer = some (a, rest) ↔ Offers s a rest := by
  unfold State.nextAnswer Offers
  cases s.source <;> cases s.sourceLoop <;> simp

/-- Everything a Fetch transaction can be. -/
theorem fetchByte_cases (s : State) :
    (s.nextAnswer = none ∧ fetchByte s = .next s) ∨
    ∃ a rest, Offers s a rest ∧
      ((∃ b, decodeAnswer a = .byte b ∧ fetchByte s = .next ((s.answered (.byte b) rest).insertByte b)) ∨
       (decodeAnswer a = .endOfInput ∧
         fetchByte s = finish (endPass ((s.answered .endOfInput rest).terminate .unexpectedEof none))) ∨
       (∃ e, decodeAnswer a = .err e ∧
         fetchByte s = finish (endPass ((s.answered (.err e) rest).terminate .sourceError (some e)))) ∨
       (decodeAnswer a = .reservedTag ∧ fetchByte s = .refused .reservedAnswer)) := by
  unfold fetchByte
  cases h : s.nextAnswer with
  | none => simp
  | some p =>
    obtain ⟨a, rest⟩ := p
    refine .inr ⟨a, rest, nextAnswer_eq_some.mp h, ?_⟩
    cases hd : decodeAnswer a <;> simp [hd]

/-! ## Step -/

/-- Everything a step can be. -/
theorem step_cases (s : State) :
    (∃ w rest, s.host = .overlap w :: rest ∧ step s = .refused .overlappingCommand) ∨
    ((∀ w rest, s.host ≠ .overlap w :: rest) ∧
      ((s.busy.isSome = true ∧ needsFetch s = true ∧ step s = fetchByte s) ∨
       (s.busy.isSome = true ∧ needsFetch s = false ∧ step s = exec (classify s.codeCtx s.nextCode) s.dropCode) ∨
       (s.busy = none ∧ ∃ w rest, s.host = .issue w :: rest ∧ step s = exec (decodeCommand w) (s.takeCommand w rest)) ∨
       (s.busy = none ∧ s.host = [] ∧ step s = .next s))) := by
  unfold step
  cases hh : s.host with
  | nil =>
    cases hb : s.busy with
    | none => simp
    | some n => cases hn : needsFetch s <;> simp
  | cons a rest =>
    cases a with
    | overlap w => simp
    | issue w =>
      cases hb : s.busy with
      | none => simp
      | some n => cases hn : needsFetch s <;> simp

end Sys2Proof.Machine
end

