-- ==== Sys2Proof/Laws/PerInstr.lean ====
section
/-! SUPPORT. The per-instruction family FitsWidth: the code of an instruction has the width in force and fits it (R60). -/

namespace Sys2Proof.Laws.FitsWidth

open Sys2Proof

/-- A code form has the context's width and its value fits it; a command word is 32 bits by its type. -/
def fits (c : CodeCtx) : Encoded → Prop
  | .code w v => w = c.width ∧ v.toNat < 2 ^ w
  | .command _ => True

/-- The encoding of a well-formed instruction fits the width in force (R60, R61). -/
def Statement (i : Instr) : Prop := ∀ c : CodeCtx, c.legal = true → wellFormed c i = true → fits c (encode c i)

theorem legal_clear_lt {c : CodeCtx} (h : c.legal = true) : c.clear < 2 ^ c.width ∧ c.eof < 2 ^ c.width ∧ c.eof < 4096 := by
  simp only [CodeCtx.legal, decide_eq_true_eq] at h
  omega

theorem literal (b : Byte) : Statement (.literal b) := by
  intro c hc hw
  have := legal_clear_lt hc
  simp only [wellFormed, decide_eq_true_eq] at hw
  have hb := b.isLt
  exact ⟨rfl, by simp only [BitVec.toNat_setWidth]; omega⟩

theorem clear : Statement .clear := by
  intro c hc _
  have := legal_clear_lt hc
  simp only [CodeCtx.legal, decide_eq_true_eq] at hc
  exact ⟨rfl, by simp only [BitVec.toNat_ofNat]; omega⟩

theorem eof : Statement .eof := by
  intro c hc _
  have := legal_clear_lt hc
  exact ⟨rfl, by simp only [BitVec.toNat_ofNat]; omega⟩

theorem kwkwk (code : Code) : Statement (.kwkwk code) := by
  intro c _ hw
  simp only [wellFormed, decide_eq_true_eq] at hw
  exact ⟨rfl, hw.2.2.2⟩

theorem dict (code : Code) : Statement (.dict code) := by
  intro c _ hw
  simp only [wellFormed, decide_eq_true_eq] at hw
  exact ⟨rfl, hw.2.2.2⟩

theorem invalid (code : Code) : Statement (.invalid code) := by
  intro c _ hw
  simp only [wellFormed, decide_eq_true_eq] at hw
  exact ⟨rfl, hw.2⟩

theorem init (ord : Order) (w : BitVec 4) : Statement (.init ord w) := fun _ _ _ => trivial

theorem read (n : BitVec 16) : Statement (.read n) := fun _ _ _ => trivial

theorem close : Statement .close := fun _ _ _ => trivial

theorem reserved (w : CmdWord) : Statement (.reserved w) := fun _ _ _ => trivial

end Sys2Proof.Laws.FitsWidth
end

