-- ==== Sys2Proof/Tests/Slice0.lean ====
section
/-! SUPPORT. Tests: ill-formed terms refused, words written out from the spec, single steps of the spec's vectors
(95_test_vectors), and one witness per statement that its hypotheses can be met. -/

namespace Sys2Proof.Tests

open Sys2Proof Sys2Proof.Machine

/-! ## Well-formedness refuses an ill-formed term for each check -/

/-- litWidth 7, width 8, after two codes: clear 128, eof 129, hi 131. -/
def ctx7 : CodeCtx := { clear := 128, eof := 129, width := 8, hi := 131, lastValid := true }

theorem test_wf_literal_above_clear : wellFormed ctx7 (.literal 0x80#8) = false := by decide
theorem test_wf_clear_too_wide : wellFormed { ctx7 with width := 7 } .clear = false := by decide
theorem test_wf_eof_too_wide : wellFormed { ctx7 with width := 7 } .eof = false := by decide
theorem test_wf_kwkwk_not_hi : wellFormed ctx7 (.kwkwk 130#12) = false := by decide
theorem test_wf_kwkwk_sentinel : wellFormed { ctx7 with lastValid := false } (.kwkwk 131#12) = false := by decide
theorem test_wf_kwkwk_not_above_eof : wellFormed { ctx7 with hi := 129 } (.kwkwk 129#12) = false := by decide
theorem test_wf_kwkwk_too_wide : wellFormed { ctx7 with hi := 300 } (.kwkwk 300#12) = false := by decide
theorem test_wf_dict_is_eof : wellFormed ctx7 (.dict 129#12) = false := by decide
theorem test_wf_dict_above_hi : wellFormed ctx7 (.dict 132#12) = false := by decide
theorem test_wf_dict_is_kwkwk : wellFormed ctx7 (.dict 131#12) = false := by decide
theorem test_wf_dict_too_wide : wellFormed { ctx7 with hi := 400 } (.dict 300#12) = false := by decide
theorem test_wf_invalid_not_above_hi : wellFormed ctx7 (.invalid 131#12) = false := by decide
theorem test_wf_invalid_too_wide : wellFormed ctx7 (.invalid 256#12) = false := by decide
theorem test_wf_reserved_is_init : wellFormed ctx7 (.reserved 0x00000801#32) = false := by decide
theorem test_wf_reserved_is_read : wellFormed ctx7 (.reserved 0x000A0002#32) = false := by decide
theorem test_wf_reserved_is_close : wellFormed ctx7 (.reserved 0x00000003#32) = false := by decide
theorem test_ctx_legal : ctx7.legal = true := by decide
theorem test_ctx_clear_too_large : ({ ctx7 with clear := 257, eof := 258, hi := 258, width := 9 } : CodeCtx).legal = false := by decide
theorem test_ctx_eof_wrong : ({ ctx7 with eof := 130 } : CodeCtx).legal = false := by decide
theorem test_ctx_hi_too_wide : ({ ctx7 with hi := 256 } : CodeCtx).legal = false := by decide
theorem test_ctx_hi_below_eof : ({ ctx7 with hi := 128 } : CodeCtx).legal = false := by decide
theorem test_ctx_width_above_12 : ({ ctx7 with width := 13 } : CodeCtx).legal = false := by decide

/-! ## Words written out from the spec's encodings -/

/-- R63's example: 9 bits 0 0110 1000, literal 'h', LSB order: bytes 0x68, 0x00. -/
theorem test_decode_literal :
    (decodeCodeBytes .lsb (CodeCtx.afterInit 8) 0#32 0 [0x68#8, 0x00#8]).map (·.1) = .ok (.literal 0x68#8) := by decide
/-- R64's example in MSB order: 1 0000 0000 then padding. -/
theorem test_decode_clear :
    (decodeCodeBytes .msb (CodeCtx.afterInit 8) 0#32 0 [0x80#8, 0x00#8]).map (·.1) = .ok .clear := by decide
/-- V-S2: 01 01 in LSB order, 80 80 in MSB order. -/
theorem test_decode_eof :
    (decodeCodeBytes .lsb (CodeCtx.afterInit 8) 0#32 0 [0x01#8, 0x01#8]).map (·.1) = .ok .eof ∧
    (decodeCodeBytes .msb (CodeCtx.afterInit 8) 0#32 0 [0x80#8, 0x80#8]).map (·.1) = .ok .eof := by decide
/-- P2 step 3: bits 110 in MSB order at width 3, hi 7, code 6. -/
theorem test_decode_dict :
    (decodeCodeBytes .msb { clear := 4, eof := 5, width := 3, hi := 7, lastValid := true } 0xC0000000#32 2 [0x42#8]).map
      (fun r => (r.1, r.2.1, r.2.2.1)) = .ok (.dict 6#12, 0x84000000#32, 7) := by decide
/-- P2 step 4: bits 1000 at width 4, hi 8 with last_valid. -/
theorem test_decode_kwkwk :
    (decodeCodeBytes .msb { clear := 4, eof := 5, width := 4, hi := 8, lastValid := true } 0x84000000#32 7 []).map
      (fun r => (r.1, r.2.1, r.2.2.1)) = .ok (.kwkwk 8#12, 0x40000000#32, 3) := by decide
/-- V-S6: 02 01 in LSB order, code 258 above hi 257. -/
theorem test_decode_invalid :
    (decodeCodeBytes .lsb (CodeCtx.afterInit 8) 0#32 0 [0x02#8, 0x01#8]).map (·.1) = .ok (.invalid 258#12) := by decide
/-- V-T7: code 4095 with hi 4095 and last_valid 0 is DICT. -/
theorem test_decode_dict_at_hi :
    classify { clear := 256, eof := 257, width := 12, hi := 4095, lastValid := false } 4095#12 = .dict 4095#12 := by decide
/-- V-C4, V-C5: order in bit 4, litWidth in bits 11 to 8. -/
theorem test_decode_init :
    decodeCommand 0x00000801#32 = .init .lsb 8#4 ∧ decodeCommand 0x00000211#32 = .init .msb 2#4 := by decide
/-- V-C18: n in bits 31 to 16. -/
theorem test_decode_read : decodeCommand 0xFFFF0002#32 = .read 0xFFFF#16 := by decide
theorem test_decode_close : decodeCommand 0x00000003#32 = .close := by decide
/-- V-C10 to V-C14. -/
theorem test_decode_reserved :
    [0x00000000#32, 0x00000004#32, 0x00000012#32, 0x00001801#32, 0x80000003#32].map decodeCommand =
      [.reserved 0x00000000#32, .reserved 0x00000004#32, .reserved 0x00000012#32, .reserved 0x00001801#32,
       .reserved 0x80000003#32] := by decide
/-- One byte is not enough for 9 bits. -/
theorem test_decode_truncated :
    decodeCodeBytes .lsb (CodeCtx.afterInit 8) 0#32 0 [0x68#8] = .error .truncated := by rfl
/-- R79's tags. -/
theorem test_decode_answers (e : SrcErr) :
    decodeAnswer { tag := 0#2, byte := 0x68#8, err := e } = .byte 0x68#8 ∧
    decodeAnswer { tag := 1#2, byte := 0#8, err := e } = .endOfInput ∧
    decodeAnswer { tag := 2#2, byte := 0#8, err := e } = .err e ∧
    decodeAnswer { tag := 3#2, byte := 0#8, err := e } = .reservedTag := ⟨rfl, rfl, rfl, rfl⟩
/-- P2's encoding: 07 42 80 in MSB order, 88 B1 00 in LSB order. -/
theorem test_assemble_P2 :
    assemble .msb 2 [.lit 0#8, .lit 1#8, .code 6#12, .code 8#12, .eoi] = [0x07#8, 0x42#8, 0x80#8] ∧
    assemble .lsb 2 [.lit 0#8, .lit 1#8, .code 6#12, .code 8#12, .eoi] = [0x88#8, 0xB1#8, 0x00#8] := by decide
/-- P4's command words. -/
theorem test_host_words :
    [HostLine.read 4#16, .init .msb 2#4, .close, .init .lsb 9#4].map hostWord =
      [0x00040002#32, 0x00000211#32, 0x00000003#32, 0x00000901#32] := by decide

/-! ## The bit extractor: vectors V-X1 to V-X6 -/

/-- V-X1's intermediate values, then code 104 with bits 0x65. -/
theorem test_extract_lsb :
    insertBits .lsb 0#32 0 0x68#8 = 0x68#32 ∧ insertBits .lsb 0x68#32 8 0xCA#8 = 0xCA68#32 ∧
    extractCode .lsb 0xCA68#32 9 = 104#12 ∧ extractRest .lsb 0xCA68#32 9 = 0x65#32 := by decide
/-- V-X3's intermediate values, then code 84 with bits 0x26000000. -/
theorem test_extract_msb :
    insertBits .msb 0#32 0 0x2A#8 = 0x2A000000#32 ∧ insertBits .msb 0x2A000000#32 8 0x13#8 = 0x2A130000#32 ∧
    extractCode .msb 0x2A130000#32 9 = 84#12 ∧ extractRest .msb 0x2A130000#32 9 = 0x26000000#32 := by decide
/-- V-X4 and V-X5: the largest nBits, 19. -/
theorem test_extract_nineteen_bits :
    insertBits .lsb 0x55D#32 11 0xCD#8 = 0x66D5D#32 ∧ extractCode .lsb 0x66D5D#32 12 = 3421#12 ∧
    insertBits .msb 0xB5600000#32 11 0xCD#8 = 0xB579A000#32 ∧ extractCode .msb 0xB579A000#32 12 = 2903#12 := by decide

/-! ## Single steps -/

/-- A field of the next state. -/
def field {α : Type} (f : State → α) : Host.Outcome State Fault Refusal → Option α
  | .next s => some (f s)
  | _ => none

/-- Right after INIT LSB, 8 and READ 10, one byte of output and code 104 behind it (W1 after step 1). -/
def afterFirst : State :=
  { State.reset with
    order := .lsb, litWidth := 8, clear := 256, eof := 257, width := 9, hi := 258, overflow := 512
    lastValid := true, last := 104, o := 1, out := [(0, 104#8)], phase := .decoding, busy := some 10#16
    bits := 0x65#32, nBits := 7, trace := [.command 0x000A0002#32] }

/-- W1 after step 2: entry 258 = (104, 101). -/
def afterSecond : State :=
  { afterFirst with
    hi := 259, last := 101, o := 2, out := [(0, 104#8), (1, 101#8)], suf := [(258, 101#8)], pre := [(258, 104#12)]
    sufFresh := [258], preFresh := [258], bits := 0x2C#32, nBits := 6 }

/-- Configured and idle, nothing pending, DECODING. -/
def idleLive : State := { afterFirst with o := 0, busy := none }

/-- V-T1: code 101 writes entry 258 = (104, 101), hi 259. -/
theorem test_literal_builds_entry :
    field (fun t => (t.suf, t.pre, t.hi)) (exec (.literal 101#8) afterFirst) =
      some ([(258, 101#8)], [(258, 104#12)], 259) := by decide
/-- V-T5 step 3839: the table becomes full and rolls back. -/
theorem test_literal_table_full :
    field (fun t => (t.hi, t.width, t.lastValid, t.suf)) (exec (.literal 65#8)
      { afterFirst with hi := 4095, width := 12, overflow := 4096, last := 65 }) =
      some (4095, 12, false, [(4095, 65#8)]) := by decide
/-- R100's example: width 12, hi 3000 goes to width 9, hi 257, overflow 512. -/
theorem test_clear :
    field (fun t => (t.width, t.hi, t.overflow, t.lastValid, t.phase)) (exec .clear
      { afterFirst with hi := 3000, width := 12, overflow := 4096 }) = some (9, 257, 512, false, .cleared) := by decide
/-- The table entries of the old epoch stay but do not read any more (R100, I2). -/
theorem test_clear_makes_stale :
    field (fun t => (t.suf, sufRead t 258 == .error .unwrittenEntry)) (exec .clear afterSecond) =
      some ([(258, 101#8)], true) := by decide
/-- W2: EOF as the first code is reported at once. -/
theorem test_eof_first :
    field (fun t => (t.phase, t.busy, t.trace)) (exec .eof (State.reset.withFetchWord 16 0)) =
      some (.eofSeen, none, [.response (.read .eof 0#16 [] none)]) := by decide
/-- R141: bytes decoded before the EOF code are delivered with OK. -/
theorem test_eof_delivers_first :
    field (fun t => (t.phase, t.cond, t.pendPos, t.pendEnd, t.trace.head?)) (exec .eof afterSecond) =
      some (.eofSeen, .eof, 2, 2, some (.response (.read .ok 2#16 [104#8, 101#8] none))) := by decide
/-- V-K1: KWKWK after a literal: output 61 61, entry 258 = (97, 97), hi 259. -/
theorem test_kwkwk_after_literal :
    field (fun t => (t.out.take 3, t.suf, t.pre)) (exec (.kwkwk 258#12)
      { afterFirst with last := 97, out := [(0, 97#8)] }) =
      some ([(0, 97#8), (1, 97#8), (2, 97#8)], [(258, 97#8)], [(258, 97#12)]) := by decide
/-- V-K2 step 4: KWKWK after a dictionary code: exp(258) ++ [97], seal 260 = (258, 97). -/
theorem test_kwkwk_after_dict :
    field (fun t => (t.out.take 3, t.suf.drop 2, t.pre.drop 2)) (exec (.kwkwk 260#12)
      { afterFirst with hi := 260, last := 258, o := 0, out := [], suf := [(258, 98#8), (259, 97#8)]
                        pre := [(258, 97#12), (259, 98#12)], sufFresh := [258, 259], preFresh := [258, 259] }) =
      some ([(0, 97#8), (1, 98#8), (2, 97#8)], [(260, 97#8)], [(260, 258#12)]) := by decide
/-- V-E2: DICT of a 3-byte chain, "TOB", seal 269 = (262, 84). -/
theorem test_dict_three_bytes :
    field (fun t => (t.out.take 3, t.suf.drop 2, t.pre.drop 2)) (exec (.dict 267#12)
      { afterFirst with hi := 269, last := 262, o := 0, out := [], suf := [(258, 79#8), (267, 66#8)]
                        pre := [(258, 84#12), (267, 258#12)], sufFresh := [258, 267], preFresh := [258, 267] }) =
      some ([(0, 84#8), (1, 79#8), (2, 66#8)], [(269, 84#8)], [(269, 262#12)]) := by decide
/-- V-T5 step 3840: DICT of slot hi in a full table: two bytes, no seal, frozen again. -/
theorem test_dict_full_table :
    field (fun t => (t.o, t.hi, t.lastValid, t.suf)) (exec (.dict 4095#12)
      { afterFirst with hi := 4095, width := 12, overflow := 4096, lastValid := false
                        suf := [(4095, 65#8)], pre := [(4095, 65#12)], sufFresh := [4095], preFresh := [4095] }) =
      some (3, 4095, false, [(4095, 65#8)]) := by decide
/-- V-S7: the bytes before the invalid code are delivered, the code writes nothing. -/
theorem test_invalid_delivers_first :
    field (fun t => (t.phase, t.cond, t.hi, t.trace.head?)) (exec (.invalid 300#12) afterSecond) =
      some (.errored, .invalidCode, 259, some (.response (.read .ok 2#16 [104#8, 101#8] none))) := by decide
/-- V-C4: clear 256, eof 257, width 9, hi 257. -/
theorem test_init_lsb_8 :
    field (fun t => (t.clear, t.eof, t.width, t.hi, t.overflow)) (exec (.init .lsb 8#4) idleLive) =
      some (256, 257, 9, 257, 512) := by decide
/-- V-C8: litWidth 15. -/
theorem test_init_bad :
    field (fun t => (t.phase, t.cond, t.trace.head?)) (exec (.init .msb 15#4) idleLive) =
      some (.errored, .badLitWidth, some (.response (.status .badLitWidth))) := by decide
/-- P4 step 5: the queue [01 00 01 00] read with n = 10 after CLOSE. -/
theorem test_read_after_close :
    field (fun t => (t.pendPos, t.trace.head?)) (exec (.read 10#16)
      { idleLive with phase := .closed, cond := .closed, pendPos := 3, pendEnd := 7
                      out := [(0, 0#8), (1, 1#8), (2, 0#8), (3, 1#8), (4, 0#8), (5, 1#8), (6, 0#8)] }) =
      some (7, some (.response (.read .ok 4#16 [1#8, 0#8, 1#8, 0#8] none))) := by decide
/-- V-C1. -/
theorem test_read_power_on :
    field (fun t => (t.phase, t.trace)) (exec (.read 10#16) State.reset) =
      some (.unconfigured, [.response (.read .notConfigured 0#16 [] none)]) := by decide
/-- V-C2. -/
theorem test_close_power_on :
    field (fun t => (t.phase, t.cond)) (exec .close State.reset) = some (.closed, .closed) := by decide
/-- V-C15: pending bytes stay. -/
theorem test_close_keeps_queue :
    field (fun t => (t.pendPos, t.pendEnd, t.trace.head?)) (exec .close { idleLive with pendEnd := 14 }) =
      some (0, 14, some (.response (.status .ok))) := by decide
/-- V-C10. -/
theorem test_reserved_word :
    field (fun t => (t.phase, t.trace.head?)) (exec (.reserved 0#32) idleLive) =
      some (.decoding, some (.response (.status .illegalCmd))) := by decide
/-- V-S10: ERR(e) after 'h' is delivered: cond_payload e, bits 0x65, nBits 7. -/
theorem test_source_error (e : SrcErr) :
    field (fun t => (t.cond, t.condPayload, t.bits, t.nBits, t.trace.head?))
      (step { afterFirst with source := [{ tag := 2#2, byte := 0#8, err := e }] }) =
      some (.sourceError, e, 0x65#32, 7, some (.response (.read .ok 1#16 [104#8] none))) := rfl
/-- R43, I12: a byte of OUT that nothing has written reads as a free value, and the READ goes on. -/
theorem test_unwritten_scratch_reads :
    field (fun t => t.trace.head?) (exec (.read 1#16) { idleLive with out := [], pendEnd := 1 }) =
      some (some (.response (.read .ok 1#16 [Config.freeByte 0 0] none))) := rfl
/-- R180: with nothing listed the byte source starts over. -/
theorem test_source_loop :
    field (fun t => (t.bits, t.source.map (·.byte)))
      (step { afterFirst with sourceLoop := [encodeAnswer (.byte 0xCA#8), encodeAnswer (.byte 0x01#8)] }) =
      some (0x6565#32, [0x01#8]) := by decide

/-! ## Witnesses: the hypotheses of each statement can be met together -/

/-- 4095 bytes of 'A' in OUT[0 : 4095]. -/
def fullOut (n : Nat) : Memory Byte := (List.range' 0 n).map fun i => (i, 65#8)

theorem read_fullOut {n k j : Nat} (h₁ : k ≤ j) (h₂ : j < k + n) :
    Memory.read ((List.range' k n).map fun i => (i, (65#8 : Byte))) j = some 65#8 := by
  induction n generalizing k with
  | zero => omega
  | succ n ih =>
    simp only [List.range', List.map_cons, Memory.read]
    split
    · rfl
    · exact ih (by omega) (by omega)

theorem listed_fullOut (n : Nat) : Listed (fullOut n) 0 n :=
  fun _ _ h => ⟨_, read_fullOut (by omega) (by omega)⟩

theorem listed_two : Listed afterSecond.out 0 afterSecond.o := by
  intro i _ h
  have : i = 0 ∨ i = 1 := by simp only [afterSecond] at h; omega
  rcases this with rfl | rfl <;> exact ⟨_, rfl⟩

theorem not_overlap_nil {s : State} (h : s.host = []) : ∀ w rest, s.host ≠ .overlap w :: rest := by
  simp [h]

/-- The pass at the flush threshold: 4095 bytes decoded. -/
def nearFlush : State := { afterSecond with o := 4095, out := fullOut 4095 }

theorem wit_DecodeOfEncode : ctx7.legal = true ∧ wellFormed ctx7 (.literal 0x7F#8) = true ∧
    wellFormed ctx7 .clear = true ∧ wellFormed ctx7 .eof = true ∧ wellFormed ctx7 (.kwkwk 131#12) = true ∧
    wellFormed ctx7 (.dict 130#12) = true ∧ wellFormed ctx7 (.invalid 255#12) = true ∧
    wellFormed ctx7 (.init .msb 15#4) = true ∧ wellFormed ctx7 (.read 0#16) = true ∧ wellFormed ctx7 .close = true ∧
    wellFormed ctx7 (.reserved 0x00000007#32) = true := by decide
theorem wit_ClassesCoverAndExclude : ctx7.legal = true ∧ (255#12).toNat < 2 ^ ctx7.width := by decide
theorem wit_LiteralMaskMatch : 2 ≤ 7 ∧ 7 ≤ 8 ∧ ctx7.width ≤ 12 ∧ ctx7.clear = 2 ^ 7 ∧ 7 < ctx7.width ∧ (127#12).toNat < 2 ^ ctx7.width ∧
    127#12 &&& BitVec.ofNat 12 ((2 ^ ctx7.width - 1) - (2 ^ 7 - 1)) = 0#12 ∧
    128#12 &&& BitVec.ofNat 12 ((2 ^ ctx7.width - 1) - (2 ^ 7 - 1)) ≠ 0#12 := by decide
theorem wit_FullTableHasNoInvalid : ({ ctx7 with hi := 4095 } : CodeCtx).hi = 4095 := rfl
theorem wit_InsertAppendsByteBits : AccOk .lsb 0x7FF#32 11 ∧ AccOk .msb 0xFFE00000#32 11 := by
  constructor <;> simp [AccOk]
theorem wit_ExtractTakesCodeBits : 12 ≤ 12 ∧ 12 ≤ 19 ∧ 19 ≤ 32 := by decide
theorem wit_AccumulatorStaysClean : AccOk .lsb 0x66D5D#32 19 ∧ AccOk .msb 0xB579A000#32 19 := by
  constructor <;> simp [AccOk]
theorem wit_PackedStreamDecodes : ctx7.legal = true ∧ wellFormed ctx7 (.dict 130#12) = true ∧
    encode ctx7 (.dict 130#12) = .code ctx7.width 130#12 := by decide
theorem wit_StepRunsDecodedCode : (∀ w rest, (State.reset.withFetchWord 16 0x68).host ≠ .overlap w :: rest) ∧
    (State.reset.withFetchWord 16 0x68).busy = some 1#16 ∧
    (State.reset.withFetchWord 16 0x68).width ≤ (State.reset.withFetchWord 16 0x68).nBits :=
  ⟨not_overlap_nil rfl, rfl, by decide⟩
theorem wit_StepRunsDecodedCommand :
    ({ State.reset with host := [.issue 3#32] } : State).busy = none ∧
    ({ State.reset with host := [.issue 3#32] } : State).host = .issue 3#32 :: [] := ⟨rfl, rfl⟩
theorem wit_TableWordRunsNext :
    decodeTableWord 16 0x068 = some (.literal 0x68#8) ∧ decodeTableWord 32 0x801 = some (.init .lsb 8#4) := by decide

/-- A READ in service whose next Fetch is answered by `a`. -/
def fetching (a : SourceWord) : State := { afterSecond with source := [a] }

theorem wit_Fetch (a : SourceWord) : (∀ w acts, (fetching a).host ≠ .overlap w :: acts) ∧ (fetching a).busy = some 10#16 ∧
    (fetching a).nBits < (fetching a).width ∧ Offers (fetching a) a [] ∧ (fetching a).o ≤ Config.outSize :=
  ⟨not_overlap_nil rfl, rfl, (by decide : 6 < 9), .inl rfl, (by decide : 2 ≤ 8192)⟩
/-- The same with the answer first of those the source repeats. -/
theorem wit_Fetch_loop (a b : SourceWord) : Offers { afterSecond with sourceLoop := [a, b] } a [b] := .inr ⟨rfl, rfl⟩
theorem wit_FetchInsertsByte : (∀ w acts, (fetching (encodeAnswer (.byte 0xB0#8))).host ≠ .overlap w :: acts) ∧
    (fetching (encodeAnswer (.byte 0xB0#8))).busy = some 10#16 ∧
    (fetching (encodeAnswer (.byte 0xB0#8))).nBits < (fetching (encodeAnswer (.byte 0xB0#8))).width ∧
    Offers (fetching (encodeAnswer (.byte 0xB0#8))) (encodeAnswer (.byte 0xB0#8)) [] ∧
    (encodeAnswer (.byte 0xB0#8)).tag = 0#2 ∧ (encodeAnswer (.byte 0xB0#8)).byte = 0xB0#8 :=
  ⟨(wit_Fetch _).1, rfl, (wit_Fetch _).2.2.1, .inl rfl, rfl, rfl⟩
theorem wit_FetchEndTerminates : ∃ (s : State) (a : SourceWord), (∀ w acts, s.host ≠ .overlap w :: acts) ∧ s.busy = some 10#16 ∧ s.nBits < s.width ∧
    Offers s a [] ∧ a.tag = 1#2 ∧ s.o ≤ Config.outSize ∧ 0 < s.o :=
  ⟨fetching (encodeAnswer .endOfInput), _, (wit_Fetch _).1, rfl, (wit_Fetch _).2.2.1, .inl rfl, rfl,
    (wit_Fetch (encodeAnswer .endOfInput)).2.2.2.2, (by decide : 0 < 2)⟩
/-- The other clause: nothing decoded yet in the pass. -/
theorem wit_FetchEndTerminates_empty : ∃ (s : State) (a : SourceWord), (∀ w acts, s.host ≠ .overlap w :: acts) ∧
    s.busy = some 10#16 ∧ s.nBits < s.width ∧ Offers s a [] ∧ a.tag = 1#2 ∧ s.o ≤ Config.outSize ∧ s.o = 0 :=
  ⟨{ fetching (encodeAnswer .endOfInput) with o := 0 }, _, (wit_Fetch (encodeAnswer .endOfInput)).1, rfl,
    (wit_Fetch (encodeAnswer .endOfInput)).2.2.1, .inl rfl, rfl, Nat.zero_le _, rfl⟩
theorem wit_FetchErrTerminates : ∃ (s : State) (a : SourceWord), (∀ w acts, s.host ≠ .overlap w :: acts) ∧ s.busy = some 10#16 ∧ s.nBits < s.width ∧
    Offers s a [] ∧ a.tag = 2#2 ∧ a.err = .first ∧ s.o ≤ Config.outSize :=
  ⟨fetching (encodeAnswer (.err .first)), _, (wit_Fetch _).1, rfl, (wit_Fetch _).2.2.1, .inl rfl, rfl, rfl,
    (wit_Fetch (encodeAnswer (.err .first))).2.2.2.2⟩
theorem wit_ReservedTagRefused : ∃ (s : State) (a : SourceWord), (∀ w acts, s.host ≠ .overlap w :: acts) ∧ s.busy = some 10#16 ∧ s.nBits < s.width ∧
    Offers s a [] ∧ a.tag = 3#2 :=
  ⟨fetching (encodeAnswer .reservedTag), _, (wit_Fetch _).1, rfl, (wit_Fetch _).2.2.1, .inl rfl, rfl⟩
theorem wit_UnansweredFetchWaits : (∀ w acts, afterSecond.host ≠ .overlap w :: acts) ∧ afterSecond.waiting = true :=
  ⟨not_overlap_nil rfl, by decide⟩
theorem wit_IdleBlockStays : State.reset.busy = none ∧ State.reset.host = [] := ⟨rfl, rfl⟩
theorem wit_OverlapRefused : ({ afterSecond with host := [.overlap 3#32] } : State).host = .overlap 3#32 :: [] ∧
    ({ afterSecond with host := [.overlap 3#32] } : State).busy = some 10#16 := ⟨rfl, rfl⟩

/-- One byte pending, the word w presented. -/
def pendingHost (w : CmdWord) : State := { idleLive with pendEnd := 1, host := [.issue w] }

/-- INIT, CLOSE, a READ from the queue, and a reserved word in a terminal phase. -/
theorem wit_NoFetchOutsidePass : (∀ w, (pendingHost w).busy = none) ∧
    (decodeCommand 0x00000801#32 = .init .lsb 8#4 ∧ ∃ t, step (pendingHost 0x00000801#32) = .next t) ∧
    (decodeCommand 3#32 = .close ∧ ∃ t, step (pendingHost 3#32) = .next t) ∧
    (decodeCommand 0x000A0002#32 = .read 10#16 ∧ (pendingHost 0x000A0002#32).pendPos < (pendingHost 0x000A0002#32).pendEnd ∧
      ∃ t, step (pendingHost 0x000A0002#32) = .next t) ∧
    (({ pendingHost 0#32 with phase := .errored } : State).phase.terminal = true ∧
      ∃ t, step { pendingHost 0#32 with phase := .errored } = .next t) :=
  ⟨fun _ => rfl, ⟨by decide, _, rfl⟩, ⟨by decide, _, rfl⟩, ⟨by decide, by decide, _, rfl⟩, rfl, _, rfl⟩

theorem inv_afterSecond : Inv afterSecond where
  widths := by constructor <;> decide
  arrays := by constructor <;> decide
  cond := rfl
  queue := ⟨by decide, by decide, fun i h₁ h₂ => by simp only [afterSecond, afterFirst, State.reset] at h₁ h₂; omega⟩
  idle := by simp [afterSecond, afterFirst]
  pass _ := ⟨rfl, rfl, by decide, listed_two⟩
  stream _ :=
    { litWidth := by decide, clear := by decide, eof := by decide, width := by decide, overflow := by decide
      hi := by decide, hiLow := by decide
      epoch := by decide
      sentinel := by decide, valid := by decide, acc := by simp [AccOk, afterSecond, afterFirst]
      nBits := by decide, nBitsIdle := by decide
      table := fun c h₁ h₂ => by
        have : c = 258 := by simp [afterSecond, afterFirst, tableEnd] at h₁ h₂; omega
        subst this
        exact ⟨by decide, by decide, ⟨_, rfl⟩, ⟨_, rfl, by decide⟩⟩ }

/-- The same with a 9-bit code at hand. -/
def codeAtHand : State := { afterSecond with bits := 0x6C#32, nBits := 9 }

theorem inv_codeAtHand : Inv codeAtHand where
  widths := by constructor <;> decide
  arrays := by constructor <;> decide
  cond := rfl
  queue := ⟨by decide, by decide, fun i h₁ h₂ => by simp only [codeAtHand, afterSecond, afterFirst, State.reset] at h₁ h₂; omega⟩
  idle := by simp [codeAtHand, afterSecond, afterFirst]
  pass _ := ⟨rfl, rfl, by decide, listed_two⟩
  stream _ :=
    { litWidth := by decide, clear := by decide, eof := by decide, width := by decide, overflow := by decide
      hi := by decide, hiLow := by decide
      epoch := by decide
      sentinel := by decide, valid := by decide, acc := by simp [AccOk, codeAtHand, afterSecond, afterFirst]
      nBits := by decide, nBitsIdle := by decide
      table := fun c h₁ h₂ => by
        have : c = 258 := by simp [codeAtHand, afterSecond, afterFirst, tableEnd] at h₁ h₂; omega
        subst this
        exact ⟨by decide, by decide, ⟨_, rfl⟩, ⟨_, rfl, by decide⟩⟩ }

theorem wit_CodeStepLeavesFewBits : Inv codeAtHand ∧ codeAtHand.busy = some 10#16 ∧ codeAtHand.width ≤ codeAtHand.nBits ∧
    ∃ t, step codeAtHand = .next t := ⟨inv_codeAtHand, rfl, by decide, _, rfl⟩
/-- Each branch of the trailer: plain, growth at hi = 511, full table at hi = 4095; and both values of last_valid. -/
theorem wit_LiteralCompletes :
    (afterFirst.o + 1 < 4096 ∧ afterFirst.hi + 1 < afterFirst.overflow ∧ afterFirst.lastValid = true ∧ afterFirst.hi < 4096) ∧
    (({ afterFirst with o := 4094, hi := 511 } : State).o + 1 < 4096 ∧ ({ afterFirst with hi := 511 } : State).hi + 1 = afterFirst.overflow) ∧
    (4095 < 4096 ∧ ({ afterFirst with hi := 4095, width := 12, overflow := 4096, lastValid := false } : State).hi < 4096) := by decide
theorem wit_LiteralFlushes : nearFlush.busy = some 10#16 ∧ 4096 ≤ nearFlush.o + 1 ∧ nearFlush.o < 8192 ∧
    nearFlush.hi < nearFlush.overflow ∧ nearFlush.hi < 4096 := ⟨rfl, by decide, by decide, by decide, by decide⟩
theorem wit_FirstCodeAfterClear : afterFirst.clear < afterFirst.eof ∧ afterFirst.eof < (258#12).toNat ∧
    ∃ t, exec .clear afterFirst = .next t := ⟨by decide, by decide, _, rfl⟩
theorem wit_EofCompletes : afterSecond.busy = some 10#16 ∧ afterSecond.o ≤ 8192 ∧ 0 < afterSecond.o := ⟨rfl, by decide, by decide⟩
/-- The other clause: the EOF code as the first of the stream. -/
theorem wit_EofCompletes_empty : (State.reset.withFetchWord 16 0x101).busy = some 1#16 ∧
    (State.reset.withFetchWord 16 0x101).o = 0 := ⟨rfl, rfl⟩
theorem wit_InvalidCompletes : afterSecond.busy = some 10#16 ∧ afterSecond.o ≤ 8192 := ⟨rfl, by decide⟩
theorem wit_DictCompletes : expansion afterSecond chainFuel (258#12).toNat = .ok (104#8 :: [101#8]) ∧
    afterSecond.o + 2 < 4096 ∧ afterSecond.hi < afterSecond.overflow ∧ afterSecond.hi < 4096 :=
  ⟨rfl, by decide, by decide, by decide⟩
theorem wit_DictFlushes : expansion nearFlush chainFuel (258#12).toNat = .ok (104#8 :: [101#8]) ∧
    nearFlush.busy = some 10#16 ∧ 4096 ≤ nearFlush.o + 2 ∧ nearFlush.o + 2 ≤ 8192 ∧
    nearFlush.o < 8192 - 2 ∧ nearFlush.hi < nearFlush.overflow :=
  ⟨rfl, rfl, by decide, by decide, by decide, by decide⟩
theorem wit_KwkwkCompletes : expansion afterSecond chainFuel afterSecond.last = .ok (101#8 :: []) ∧
    afterSecond.o + 2 < 4096 ∧ afterSecond.hi < afterSecond.overflow ∧ afterSecond.hi < 4096 :=
  ⟨rfl, by decide, by decide, by decide⟩
theorem wit_KwkwkFlushes : expansion nearFlush chainFuel nearFlush.last = .ok (101#8 :: []) ∧
    nearFlush.busy = some 10#16 ∧ 4096 ≤ nearFlush.o + 2 ∧ nearFlush.o + 2 ≤ 8192 ∧
    nearFlush.o < 8192 - 2 ∧ nearFlush.hi < nearFlush.overflow :=
  ⟨rfl, rfl, by decide, by decide, by decide, by decide⟩
theorem wit_UnwrittenEntryFaults : afterFirst.clear ≤ (258#12).toNat ∧ (258#12).toNat ∉ afterFirst.sufFresh := by decide

/-- hi already at overflow, which no state with the invariant has. -/
def hiTooFar : State := { afterSecond with hi := 512 }

theorem wit_InternalFaultRaised : hiTooFar.hi < 4096 ∧ hiTooFar.overflow < hiTooFar.hi + 1 ∧ hiTooFar.o < 8192 ∧
    (expansion hiTooFar chainFuel (258#12).toNat = .ok [104#8, 101#8] ∧ hiTooFar.o + 2 ≤ 8192) ∧
    expansion hiTooFar chainFuel hiTooFar.last = .ok [101#8] ∧ hiTooFar.o + (1 + 1) ≤ 8192 :=
  ⟨by decide, by decide, by decide, ⟨rfl, by decide⟩, rfl, by decide⟩
theorem wit_InitCompletes : idleLive.busy = none ∧ 2 ≤ (2#4).toNat ∧ (2#4).toNat ≤ 8 ∧ (8#4).toNat ≤ 8 := by decide
theorem wit_InitFailureCompletes : idleLive.busy = none ∧ (1#4).toNat < 2 ∧ 8 < (9#4).toNat := by decide

/-- 24 bytes pending. -/
def pending24 : State := { idleLive with out := fullOut 24, pendEnd := 24 }

theorem wit_ReadDelivers : pending24.busy = none ∧ pending24.phase ≠ .unconfigured ∧ pending24.pendPos < pending24.pendEnd ∧
    pending24.pendEnd ≤ 8192 := ⟨rfl, by decide, by decide, by decide⟩
theorem wit_ReadReportsStored : ({ idleLive with phase := .errored, cond := .sourceError } : State).busy = none ∧
    ({ idleLive with phase := .errored, cond := .sourceError } : State).pendEnd ≤ idleLive.pendPos ∧
    ({ idleLive with phase := .errored, cond := .sourceError } : State).phase = .errored := by decide
theorem wit_ReadBeforeInit : State.reset.busy = none ∧ State.reset.phase = .unconfigured := by decide
theorem wit_ReadStartsPass : idleLive.busy = none ∧ idleLive.pendEnd ≤ idleLive.pendPos ∧ idleLive.phase = .decoding := by decide
theorem wit_CloseCompletes : State.reset.busy = none := rfl
theorem wit_ReservedCompletes : State.reset.busy = none ∧ isReservedWord 0x00000012#32 = true := by decide
theorem wit_SplitReadsConcatenate : pending24.phase ≠ .unconfigured ∧ pending24.pendPos + (10#16).toNat < pending24.pendEnd ∧
    (20#16).toNat = (10#16).toNat + (10#16).toNat ∧
    ∃ t, exec (.read 10#16) pending24 = .next t ∧ ∃ u, exec (.read 10#16) t = .next u ∧
      ∃ v, exec (.read 20#16) pending24 = .next v :=
  ⟨by decide, by decide, by decide, _, rfl, _, rfl, _, rfl⟩
theorem wit_StepKeepsInv : Inv codeAtHand ∧ ∃ t, step codeAtHand = .next t := ⟨inv_codeAtHand, _, rfl⟩
theorem wit_ExecKeepsArrays : ArraysOk afterSecond ∧ ∃ t, exec (.dict 258#12) afterSecond = .next t :=
  ⟨inv_afterSecond.arrays, _, rfl⟩
theorem wit_OnlyInitConfigures : (∀ ord w, Instr.literal 101#8 ≠ .init ord w) ∧ ∃ t, exec (.literal 101#8) afterFirst = .next t :=
  ⟨by simp, _, rfl⟩

/-- Errored, a READ presented. -/
def erroredHost : State := { idleLive with phase := .errored, cond := .invalidCode, host := [.issue 0x000A0002#32] }

theorem wit_TerminalLeftOnlyByInit : erroredHost.busy = none ∧ erroredHost.phase.terminal = true ∧
    (∃ t, step erroredHost = .next t) ∧
    (∀ w rest, erroredHost.host = .issue w :: rest → ∀ ord lw, decodeCommand w ≠ .init ord lw) ∧
    (∀ w rest, erroredHost.host = .issue w :: rest → decodeCommand w ≠ .close) := by
  refine ⟨rfl, rfl, ⟨_, rfl⟩, ?_, ?_⟩ <;>
  · intro w rest h
    simp only [erroredHost, List.cons.injEq, HostAct.issue.injEq] at h
    obtain ⟨rfl, -⟩ := h
    have : decodeCommand 0x000A0002#32 = .read 10#16 := by decide
    simp [this]
theorem wit_OneResponsePerCommand : Inv codeAtHand ∧ ∃ t, step codeAtHand = .next t := ⟨inv_codeAtHand, _, rfl⟩
theorem wit_ExpansionBound : Inv afterSecond ∧ afterSecond.phase.live = true ∧ afterSecond.clear + 2 ≤ 258 ∧
    258 < tableEnd afterSecond := ⟨inv_afterSecond, rfl, by decide, by decide⟩
/-- The DICT case and the KWKWK case. -/
theorem wit_SealedEntryExpands : Inv afterSecond ∧ afterSecond.phase.live = true ∧ afterSecond.lastValid = true ∧ afterSecond.eof < afterSecond.hi ∧
    expansion afterSecond chainFuel afterSecond.last = .ok [101#8] ∧
    ((258#12).toNat < afterSecond.hi ∧ expansion afterSecond chainFuel (258#12).toNat = .ok [104#8, 101#8] ∧
      ∃ t, exec (classify afterSecond.codeCtx 258#12) afterSecond = .next t) ∧
    ((259#12).toNat = afterSecond.hi ∧ ∃ t, exec (classify afterSecond.codeCtx 259#12) afterSecond = .next t) :=
  ⟨inv_afterSecond, rfl, rfl, by decide, rfl, ⟨by decide, rfl, _, rfl⟩, rfl, _, rfl⟩
theorem wit_WidthIsSignificantBits : Inv codeAtHand ∧ ∃ t, step codeAtHand = .next t ∧ t.phase.live = true :=
  ⟨inv_codeAtHand, _, rfl, rfl⟩
theorem wit_ProducerTracksDecoder : Inv afterSecond ∧ afterSecond.phase.live = true ∧ (258#12).toNat < 2 ^ afterSecond.width ∧ (258#12).toNat ≤ afterSecond.hi ∧
    (258#12).toNat ≠ afterSecond.eof ∧ ∃ t, exec (classify afterSecond.codeCtx 258#12) afterSecond = .next t :=
  ⟨inv_afterSecond, rfl, by decide, by decide, by decide, _, rfl⟩
/-- A step that is no INIT, and one that is. -/
theorem wit_PayloadsNeverInspected :
    (afterSecond.busy = none → ∀ w rest, afterSecond.host = .issue w :: rest → ∀ ord lw, decodeCommand w ≠ .init ord lw) ∧
    (pendingHost 0x00000801#32).busy = none ∧ (pendingHost 0x00000801#32).host = .issue 0x00000801#32 :: [] ∧
    decodeCommand 0x00000801#32 = .init .lsb 8#4 := ⟨fun h => by simp [afterSecond, afterFirst] at h, rfl, rfl, by decide⟩
theorem wit_DeadScratchNeverRead : Inv codeAtHand ∧ (∃ t, step codeAtHand = .next t) ∧
    ∀ i, LiveByte codeAtHand i → Memory.read (codeAtHand.out ++ [(8191, 7#8)]) i = Memory.read codeAtHand.out i := by
  refine ⟨inv_codeAtHand, ⟨_, rfl⟩, fun i h => ?_⟩
  have : i = 0 ∨ i = 1 := by
    simp only [LiveByte, codeAtHand, afterSecond, afterFirst, State.reset] at h; omega
  rcases this with rfl | rfl <;> rfl
/-- The second clause; the first is met by flooded7 below. -/
theorem wit_OnlyClearFloodHangs : Inv codeAtHand ∧ codeAtHand.busy = some 10#16 ∧ codeAtHand.width ≤ codeAtHand.nBits ∧
    codeAtHand.nextCode.toNat ≠ codeAtHand.clear ∧ ∃ t, step codeAtHand = .next t :=
  ⟨inv_codeAtHand, rfl, by decide, by decide, _, rfl⟩

/-- Right after INIT LSB 7 and READ 10, and the source gives 0x80, the 8-bit CLEAR code, without end. -/
def flooded7 : State :=
  { State.reset with
    order := .lsb, litWidth := 7, clear := 128, eof := 129, width := 8, hi := 129, overflow := 256, phase := .cleared
    busy := some 10#16, sourceLoop := [encodeAnswer (.byte 0x80#8)] }

theorem wit_OnlyClearFloodHangs_flooded : Flooded flooded7 where
  service := rfl
  host := not_overlap_nil rfl
  litWidth := by decide
  clear := by decide
  width := rfl
  acc := by simp [AccOk, flooded7, State.reset]
  nBits := by decide
  bits j := by
    have h : byteBits .lsb 0x80#8 = codeBits .lsb 8 128#12 := by decide
    simp [State.streamBit, State.answerAt, flooded7, State.reset, encodeAnswer, h, Nat.mod_one]

end Sys2Proof.Tests
end

/-! PROOFS. Renaming the error payloads (R7, D5) commutes with every operation of the block, from the named updates up to
`step`; settles O58. -/

namespace Sys2Proof.Machine

variable (f : SrcErr → SrcErr) (s : State)

/-! ## Named updates: a renaming passes through each -/

@[simp] theorem State.putSuf_rename (c v : Nat) : (s.rename f).putSuf c v = (s.putSuf c v).rename f := rfl
@[simp] theorem State.putPre_rename (c v : Nat) : (s.rename f).putPre c v = (s.putPre c v).rename f := rfl
@[simp] theorem State.putOut_rename (i v : Nat) : (s.rename f).putOut i v = (s.putOut i v).rename f := rfl
@[simp] theorem State.flush_rename : (s.rename f).flush = s.flush.rename f := rfl
@[simp] theorem State.takePending_rename (k : Nat) : (s.rename f).takePending k = (s.takePending k).rename f := rfl
@[simp] theorem State.startPass_rename (n : BitVec 16) : (s.rename f).startPass n = (s.startPass n).rename f := rfl
@[simp] theorem State.setDecoding_rename : (s.rename f).setDecoding = s.setDecoding.rename f := rfl
@[simp] theorem State.setLast_rename (code : Nat) : (s.rename f).setLast code = (s.setLast code).rename f := rfl
@[simp] theorem State.bumpHi_rename : (s.rename f).bumpHi = s.bumpHi.rename f := rfl
@[simp] theorem State.grow_rename : (s.rename f).grow = s.grow.rename f := rfl
@[simp] theorem State.rollBack_rename : (s.rename f).rollBack = s.rollBack.rename f := rfl
@[simp] theorem State.advanceO_rename (n : Nat) : (s.rename f).advanceO n = (s.advanceO n).rename f := rfl
@[simp] theorem State.clearTable_rename : (s.rename f).clearTable = s.clearTable.rename f := rfl
@[simp] theorem State.setClosed_rename : (s.rename f).setClosed = s.setClosed.rename f := rfl
@[simp] theorem State.dropCode_rename : (s.rename f).dropCode = s.dropCode.rename f := rfl
@[simp] theorem State.insertByte_rename (b : Byte) : (s.rename f).insertByte b = (s.insertByte b).rename f := rfl
@[simp] theorem State.takeCommand_rename (w : CmdWord) (rest : List HostAct) :
    (s.rename f).takeCommand w rest = (s.takeCommand w rest).rename f := rfl
@[simp] theorem State.respond_status_rename (st : Status) :
    (s.rename f).respond (.status st) = (s.respond (.status st)).rename f := rfl
@[simp] theorem State.respond_read_rename (st : Status) (k : BitVec 16) (data : List Byte) (payload : Option SrcErr) :
    (s.rename f).respond (.read st k data (payload.map f)) = (s.respond (.read st k data payload)).rename f := rfl

/-- A terminal condition stores the renamed payload it is given, or keeps the renamed one in cond_payload. -/
@[simp] theorem State.terminate_rename (c : Status) (e : Option SrcErr) :
    (s.rename f).terminate c (e.map f) = (s.terminate c e).rename f := by
  cases e <;> rfl

/-! ## Outcomes -/

theorem finish_rename {f : SrcErr → SrcErr} {r r' : Except Fault State} (h : r' = r.map (State.rename f)) :
    finish r' = mapNext (State.rename f) (finish r) := by
  subst h
  cases r <;> rfl

@[simp] theorem whenIdle_rename (k : Host.Outcome State Fault Refusal) :
    whenIdle (s.rename f) (mapNext (State.rename f) k) = mapNext (State.rename f) (whenIdle s k) := by
  unfold whenIdle
  cases hb : s.busy <;> simp [hb, mapNext]

/-! ## Access primitives -/

@[simp] theorem sufRead_rename (c : Nat) : sufRead (s.rename f) c = sufRead s c := rfl
@[simp] theorem preRead_rename (c : Nat) : preRead (s.rename f) c = preRead s c := rfl
@[simp] theorem outRead_rename (i : Nat) : outRead (s.rename f) i = outRead s i := rfl

@[simp] theorem sufWrite_rename (c v : Nat) : sufWrite (s.rename f) c v = (sufWrite s c v).map (State.rename f) := by
  unfold sufWrite; split <;> rfl

@[simp] theorem preWrite_rename (c v : Nat) : preWrite (s.rename f) c v = (preWrite s c v).map (State.rename f) := by
  unfold preWrite; split <;> rfl

@[simp] theorem outWrite_rename (i v : Nat) : outWrite (s.rename f) i v = (outWrite s i v).map (State.rename f) := by
  unfold outWrite; split <;> rfl

/-! ## Delivery -/

@[simp] theorem outWindow_rename (p k : Nat) : outWindow (s.rename f) p k = outWindow s p k := by
  induction k generalizing p with
  | zero => rfl
  | succ k ih => simp only [outWindow, outRead_rename, ih]

theorem deliver_rename (n : BitVec 16) : deliver n (s.rename f) = (deliver n s).map (State.rename f) := by
  have hk : deliverCount (s.rename f) n = deliverCount s n := rfl
  unfold deliver
  rw [outWindow_rename, hk, State.rename_pendPos]
  cases outWindow s s.pendPos (deliverCount s n) <;> rfl

/-- The stored payload is only handed on: cond alone says whether it is reported. -/
theorem respondStored_rename : respondStored (s.rename f) = (respondStored s).rename f := by
  unfold respondStored
  rw [← State.respond_read_rename, State.rename_cond, State.rename_condPayload]
  split <;> rfl

theorem readLoop_rename (n : BitVec 16) : readLoop n (s.rename f) = (readLoop n s).map (State.rename f) := by
  unfold readLoop
  rw [deliver_rename, respondStored_rename, State.rename_pendPos, State.rename_pendEnd, State.rename_phase]
  split
  · rfl
  · split <;> rfl

theorem endPass_rename : endPass (s.rename f) = (endPass s).map (State.rename f) := by
  unfold endPass
  rw [State.rename_busy, State.flush_rename]
  cases s.busy with
  | none => rfl
  | some n => exact readLoop_rename f s.flush n

theorem flushCheck_rename : flushCheck (s.rename f) = (flushCheck s).map (State.rename f) := by
  unfold flushCheck
  rw [endPass_rename, State.rename_o]
  split <;> rfl

/-! ## Table -/

theorem sealEntry_rename (head : Nat) : sealEntry head (s.rename f) = (sealEntry head s).map (State.rename f) := by
  unfold sealEntry
  rw [sufWrite_rename, State.rename_lastValid, State.rename_hi]
  split
  · cases sufWrite s s.hi head with
    | error _ => rfl
    | ok s' => exact preWrite_rename f s' s'.hi s'.last
  · rfl

theorem trailer_rename (code : Nat) : trailer code (s.rename f) = (trailer code s).map (State.rename f) := by
  unfold trailer growthCheck
  rw [State.setLast_rename, State.bumpHi_rename, State.rename_overflow, State.rename_hi, State.rename_width]
  split
  · split
    · rfl
    · split <;> rfl
  · rfl

theorem endStep_rename (code : Nat) : endStep code (s.rename f) = (endStep code s).map (State.rename f) := by
  unfold endStep
  rw [State.setDecoding_rename, trailer_rename]
  cases trailer code s.setDecoding with
  | error _ => rfl
  | ok s' => exact flushCheck_rename f s'

theorem putByte_rename (v : Nat) : putByte v (s.rename f) = (putByte v s).map (State.rename f) := by
  unfold putByte
  rw [outWrite_rename, State.rename_o]
  cases outWrite s s.o v <;> rfl

theorem literalStep_rename (code : Nat) :
    literalStep code (s.rename f) = (literalStep code s).map (State.rename f) := by
  unfold literalStep
  rw [putByte_rename]
  cases putByte code s with
  | error _ => rfl
  | ok s₁ =>
    simp only [Except.map, sealEntry_rename]
    cases sealEntry code s₁ with
    | error _ => rfl
    | ok s₂ => exact endStep_rename f s₂ code

/-! ## Expansion -/

/-- The walk's answer with its state renamed. -/
def renameWalk (f : SrcErr → SrcErr) : Nat × Nat × State → Nat × Nat × State
  | (head, top, t) => (head, top, t.rename f)

theorem walk_rename (fuel c i : Nat) : walk fuel c i (s.rename f) = (walk fuel c i s).map (renameWalk f) := by
  induction fuel generalizing c i s with
  | zero =>
    unfold walk
    rw [outWrite_rename, State.rename_clear]
    split
    · cases outWrite s i c <;> rfl
    · rfl
  | succ fuel ih =>
    unfold walk
    rw [outWrite_rename, State.rename_clear, sufRead_rename]
    split
    · cases outWrite s i c <;> rfl
    · cases sufRead s c with
      | error _ => rfl
      | ok b =>
        simp only [outWrite_rename]
        cases outWrite s i b.toNat with
        | error _ => rfl
        | ok s' =>
          simp only [Except.map, preRead_rename]
          cases preRead s' c with
          | error _ => rfl
          | ok p => exact ih s' p.toNat (i - 1)

theorem headOf_rename (fuel c : Nat) : headOf (s.rename f) fuel c = headOf s fuel c := by
  induction fuel generalizing c with
  | zero => rfl
  | succ fuel ih => simp only [headOf, State.rename_clear, preRead_rename, ih]

theorem copyUp_rename (n src dst : Nat) : copyUp n src dst (s.rename f) = (copyUp n src dst s).map (State.rename f) := by
  induction n generalizing src dst s with
  | zero => rfl
  | succ n ih =>
    unfold copyUp
    rw [outRead_rename]
    cases outRead s src with
    | error _ => rfl
    | ok b =>
      simp only [outWrite_rename]
      cases outWrite s dst b.toNat with
      | error _ => rfl
      | ok s' => exact ih s' (src + 1) (dst + 1)

theorem assembleTail_rename (i : Nat) : assembleTail i (s.rename f) = (assembleTail i s).map (State.rename f) := by
  unfold assembleTail
  rw [State.rename_o, copyUp_rename]
  cases copyUp (Config.outSize - i) i s.o s <;> rfl

theorem expandStep_rename (code c i : Nat) :
    expandStep code c i (s.rename f) = (expandStep code c i s).map (State.rename f) := by
  unfold expandStep
  rw [walk_rename]
  cases walk chainFuel c i s with
  | error _ => rfl
  | ok r =>
    obtain ⟨head, top, s₁⟩ := r
    simp only [Except.map, renameWalk, assembleTail_rename]
    cases assembleTail top s₁ with
    | error _ => rfl
    | ok s₂ =>
      simp only [sealEntry_rename]
      cases sealEntry head s₂ with
      | error _ => rfl
      | ok s₃ => exact endStep_rename f s₃ code

theorem dictStep_rename (code : Nat) : dictStep code (s.rename f) = (dictStep code s).map (State.rename f) :=
  expandStep_rename f s code code (Config.outSize - 1)

theorem kwkwkStep_rename (code : Nat) : kwkwkStep code (s.rename f) = (kwkwkStep code s).map (State.rename f) := by
  unfold kwkwkStep
  rw [State.rename_last, headOf_rename]
  cases headOf s chainFuel s.last with
  | error _ => rfl
  | ok h =>
    simp only [outWrite_rename]
    cases outWrite s (Config.outSize - 1) h with
    | error _ => rfl
    | ok s₁ => exact expandStep_rename f s₁ code s₁.last (Config.outSize - 2)

/-! ## The byte source -/

/-- An answer with its payload renamed. -/
def renameAnswer (f : SrcErr → SrcErr) : Answer → Answer
  | .err e => .err (f e)
  | a => a

/-- What an answer means depends on its tag; a renaming reaches only the payload of ERR. -/
theorem decodeAnswer_renameWord (w : SourceWord) : decodeAnswer (renameWord f w) = renameAnswer f (decodeAnswer w) := by
  have htag : (renameWord f w).tag = w.tag := rfl
  unfold decodeAnswer
  rw [htag]
  split
  · rfl
  · split
    · rfl
    · split <;> rfl

theorem nextAnswer_rename :
    (s.rename f).nextAnswer = s.nextAnswer.map fun p => (renameWord f p.1, p.2.map (renameWord f)) := by
  unfold State.nextAnswer
  rw [State.rename_source, State.rename_sourceLoop]
  cases s.source with
  | cons w rest => rfl
  | nil => cases s.sourceLoop <;> rfl

@[simp] theorem State.answered_rename (a : Answer) (rest : List SourceWord) :
    (s.rename f).answered (renameAnswer f a) (rest.map (renameWord f)) = (s.answered a rest).rename f := by
  cases a <;> rfl

/-- A pass that the answer `a` ends with a condition: the end is renamed. -/
theorem endPass_answered_rename (a : Answer) (rest : List SourceWord) (c : Status) (e : Option SrcErr) :
    finish (endPass (((s.rename f).answered (renameAnswer f a) (rest.map (renameWord f))).terminate c (e.map f))) =
      mapNext (State.rename f) (finish (endPass ((s.answered a rest).terminate c e))) := by
  rw [State.answered_rename, State.terminate_rename]
  exact finish_rename (endPass_rename f _)

theorem fetchByte_rename : fetchByte (s.rename f) = mapNext (State.rename f) (fetchByte s) := by
  unfold fetchByte
  rw [nextAnswer_rename]
  cases s.nextAnswer with
  | none => rfl
  | some p =>
    obtain ⟨w, rest⟩ := p
    simp only [Option.map_some, decodeAnswer_renameWord]
    cases decodeAnswer w with
    | byte b => rfl
    | endOfInput => exact endPass_answered_rename f s .endOfInput rest .unexpectedEof none
    | err e => exact endPass_answered_rename f s (.err e) rest .sourceError (some e)
    | reservedTag => rfl

/-! ## Instructions -/

/-- A code that ends the pass with a condition of its own, EOF or INVALID: the outcome is renamed. -/
theorem endPass_terminate_rename (c : Status) :
    finish (endPass ((s.rename f).terminate c none)) =
      mapNext (State.rename f) (finish (endPass (s.terminate c none))) :=
  finish_rename (endPass_rename f (s.terminate c none))

theorem execRead_rename (n : BitVec 16) : execRead n (s.rename f) = mapNext (State.rename f) (execRead n s) := by
  unfold execRead
  rw [← whenIdle_rename, finish_rename (readLoop_rename f s n), State.rename_phase]
  split <;> rfl

/-- Every meaning but INIT's, which draws cond_payload as a free value, commutes with a renaming. -/
theorem exec_rename {i : Instr} (hi : ∀ ord lw, i ≠ .init ord lw) :
    exec i (s.rename f) = mapNext (State.rename f) (exec i s) := by
  cases i with
  | literal b => exact finish_rename (literalStep_rename f s (literalCode b))
  | clear => rfl
  | eof => exact endPass_terminate_rename f s .eof
  | kwkwk code => exact finish_rename (kwkwkStep_rename f s (codeIndex code))
  | dict code => exact finish_rename (dictStep_rename f s (codeIndex code))
  | invalid _ => exact endPass_terminate_rename f s .invalidCode
  | init ord lw => exact absurd rfl (hi ord lw)
  | read n => exact execRead_rename f s n
  | close => exact whenIdle_rename f s (.next (s.setClosed.respond (.status .ok)))
  | reserved _ => exact whenIdle_rename f s (.next (s.respond (.status .illegalCmd)))

/-- INIT draws the same free cond_payload whatever the payloads are; all else it leaves is renamed. -/
theorem execInit_rename (ord : Order) (lw : BitVec 4) (hb : s.busy = none) :
    ∃ t, execInit ord lw s = .next t ∧
      execInit ord lw (s.rename f) = .next { t.rename f with condPayload := t.condPayload } := by
  unfold execInit whenIdle
  rw [State.rename_busy, hb]
  cases legalLitWidth lw <;> exact ⟨_, rfl, rfl⟩

/-- A code of the stream is never a command. -/
theorem classify_ne_init (c : CodeCtx) (code : Code) (ord : Order) (lw : BitVec 4) : classify c code ≠ .init ord lw := by
  unfold classify
  repeat' split
  all_goals simp

/-! ## Step: an equation for each of its cases -/

section StepEquations
variable {s}

theorem step_overlap {w : CmdWord} {rest : List HostAct} (hh : s.host = .overlap w :: rest) :
    step s = .refused .overlappingCommand := by
  simp [step, hh]

theorem step_inService (hh : ∀ w rest, s.host ≠ .overlap w :: rest) (hb : s.busy.isSome = true) :
    step s = if needsFetch s then fetchByte s else exec (classify s.codeCtx s.nextCode) s.dropCode := by
  obtain ⟨n, hb⟩ := Option.isSome_iff_exists.mp hb
  unfold step
  split
  · exact absurd ‹_› (hh _ _)
  · simp [hb]

theorem step_command {w : CmdWord} {rest : List HostAct} (hb : s.busy = none) (hh : s.host = .issue w :: rest) :
    step s = exec (decodeCommand w) (s.takeCommand w rest) := by
  simp [step, hb, hh]

theorem step_idle (hb : s.busy = none) (hh : s.host = []) : step s = .next s := by
  simp [step, hb, hh]

end StepEquations

/-! ## Step: a renaming passes through every step but INIT's -/

/-- While a READ is in service the step is a Fetch or a code of the stream, never a command. -/
theorem step_rename_inService (hh : ∀ w rest, s.host ≠ .overlap w :: rest) (hb : s.busy.isSome = true) :
    step (s.rename f) = mapNext (State.rename f) (step s) := by
  have hn : needsFetch (s.rename f) = needsFetch s := rfl
  rw [step_inService hh hb, step_inService (s := s.rename f) hh hb, hn]
  split
  · exact fetchByte_rename f s
  · exact exec_rename f s.dropCode (classify_ne_init s.codeCtx s.nextCode)

theorem step_rename
    (hi : s.busy = none → ∀ w rest, s.host = .issue w :: rest → ∀ ord lw, decodeCommand w ≠ .init ord lw) :
    step (s.rename f) = mapNext (State.rename f) (step s) := by
  rcases step_cases s with ⟨w, rest, hh, hs⟩ | ⟨hno, ⟨hb, -, -⟩ | ⟨hb, -, -⟩ | ⟨hb, w, rest, hh, hs⟩ | ⟨hb, hh, hs⟩⟩
  · rw [hs, step_overlap (s := s.rename f) hh]; rfl
  · exact step_rename_inService f s hno hb
  · exact step_rename_inService f s hno hb
  · rw [hs, step_command (s := s.rename f) hb hh]
    exact exec_rename f (s.takeCommand w rest) (hi hb w rest hh)
  · rw [hs, step_idle (s := s.rename f) hb hh]; rfl

/-- The step that serves INIT: its outcome is renamed but for the free value it draws for cond_payload (log 5). -/
theorem step_rename_of_init {w : CmdWord} {rest : List HostAct} {ord : Order} {lw : BitVec 4}
    (hb : s.busy = none) (hh : s.host = .issue w :: rest) (hw : decodeCommand w = .init ord lw) :
    ∃ t, step s = .next t ∧ step (s.rename f) = .next { t.rename f with condPayload := t.condPayload } := by
  rw [step_command hb hh, step_command (s := s.rename f) hb hh, hw]
  exact execInit_rename f (s.takeCommand w rest) ord lw hb

/-- Settles O58: each operation commutes with a renaming of the payloads, and `step` is made of them. -/
theorem payloadsNeverInspected : Obligations.PayloadsNeverInspected := fun f s =>
  ⟨step_rename f s, fun _ _ _ _ hb hh hw => step_rename_of_init f s hb hh hw⟩

end Sys2Proof.Machine

/-! PROOFS. Every step keeps the invariant of the block (R15 to R33, R69, R93): its parts, the block between commands, the
step of one code with its output, entry and trailer, then Fetches, codes and commands; settles O45. -/

namespace Sys2Proof.Machine

/-! ## The accumulator: the bits outside the valid ones stay 0 (R93) -/

theorem accOk_insertBits {ord : Order} {bits : AccWord} {n : Nat} (b : Byte) (hn : n ≤ 24) (h : AccOk ord bits n) :
    AccOk ord (insertBits ord bits n b) (n + 8) := by
  cases ord with
  | lsb =>
    have hb : b.toNat * 2 ^ n < 2 ^ (n + 8) := by
      rw [Nat.pow_add', Nat.mul_lt_mul_right (Nat.two_pow_pos n)]; exact b.isLt
    simp only [AccOk, insertBits, BitVec.toNat_or, BitVec.toNat_shiftLeft, BitVec.toNat_setWidth, Nat.shiftLeft_eq] at h ⊢
    refine Nat.or_lt_two_pow (h.trans_le (Nat.pow_le_pow_right (by decide) (by omega))) ?_
    refine (Nat.mod_le _ _).trans_lt (hb.trans_le' (Nat.mul_le_mul_right _ (Nat.mod_le _ _)))
  | msb =>
    have hd : 2 ^ (24 - n) ∣ bits.toNat := (Nat.pow_dvd_pow 2 (by omega)).trans (Nat.dvd_of_mod_eq_zero h)
    have he : 32 - (n + 8) = 24 - n := by omega
    simp only [AccOk, insertBits, BitVec.toNat_or, BitVec.toNat_shiftLeft, Nat.shiftLeft_eq, he, Nat.or_mod_two_pow,
      Nat.mod_mod_of_dvd _ (Nat.pow_dvd_pow 2 (by omega : 24 - n ≤ 32)), Nat.mod_eq_zero_of_dvd hd, Nat.mul_mod_left,
      Nat.or_self]

theorem accOk_extractRest {ord : Order} {bits : AccWord} {n w : Nat} (hw : w ≤ n) (hn : n ≤ 32) (h : AccOk ord bits n) :
    AccOk ord (extractRest ord bits w) (n - w) := by
  cases ord with
  | lsb =>
    simp only [AccOk, extractRest, BitVec.toNat_ushiftRight, Nat.shiftRight_eq_div_pow] at h ⊢
    rw [Nat.div_lt_iff_lt_mul (Nat.two_pow_pos w), ← Nat.pow_add, Nat.sub_add_cancel hw]
    exact h
  | msb =>
    have hd : 2 ^ (32 - n + w) ∣ bits.toNat * 2 ^ w := by
      rw [Nat.pow_add]; exact Nat.mul_dvd_mul_right (Nat.dvd_of_mod_eq_zero h) _
    have he : 32 - (n - w) = 32 - n + w := by omega
    simp only [AccOk, extractRest, BitVec.toNat_shiftLeft, Nat.shiftLeft_eq, he,
      Nat.mod_mod_of_dvd _ (Nat.pow_dvd_pow 2 (by omega : 32 - n + w ≤ 32)), Nat.mod_eq_zero_of_dvd hd]


/-! ## The invariant's parts: what each depends on -/

section Parts
variable {s t : State}

/-- Every byte of an empty range is written. -/
theorem listed_empty (m : Memory Byte) {lo hi : Nat} (h : hi ≤ lo) : Listed m lo hi :=
  fun _ h₁ h₂ => absurd (h₁.trans_lt h₂) (Nat.not_lt.mpr h)

theorem Listed.sub {m : Memory Byte} {lo hi lo' hi' : Nat} (h : Listed m lo hi) (hlo : lo ≤ lo') (hhi : hi' ≤ hi) :
    Listed m lo' hi' := fun i h₁ h₂ => h i (hlo.trans h₁) (h₂.trans_le hhi)

/-- A write leaves every written byte written. -/
theorem Listed.write {m : Memory Byte} {lo hi : Nat} (h : Listed m lo hi) (a : Nat) (v : Byte) :
    Listed (Memory.write m a v) lo hi := by
  intro i h₁ h₂
  rw [Memory.read_write]
  split
  · exact ⟨v, rfl⟩
  · exact h i h₁ h₂

/-- A write right behind a written range extends it. -/
theorem Listed.write_end {m : Memory Byte} {lo hi : Nat} (h : Listed m lo hi) (v : Byte) :
    Listed (Memory.write m hi v) lo (hi + 1) := by
  intro i h₁ h₂
  rw [Memory.read_write]
  split
  · exact ⟨v, rfl⟩
  · exact h i h₁ (by omega)

theorem EntryOk.congr {c : Nat} (h : EntryOk s c) (ha : SameArrays s t) (hc : t.clear = s.clear) (he : t.eof = s.eof) :
    EntryOk t c := by
  obtain ⟨hs, hp, hsf, hpf⟩ := ha
  refine ⟨hsf ▸ h.sufFresh, hpf ▸ h.preFresh, hs ▸ h.suf, ?_⟩
  rw [hp, hc, he]; exact h.pre

/-- The configuration, the accumulator, the table's registers, the phase and the arrays: all of the state, but for `busy`, that
the live-phase relations speak of. -/
def State.streamView (s : State) :=
  (s.order, s.litWidth, s.clear, s.eof, s.bits, s.nBits, s.width, s.hi, s.overflow, s.lastValid, s.last, s.phase,
    s.suf, s.pre, s.sufFresh, s.preFresh)

/-- `busy` matters to the live-phase relations only in that an idle block holds at most 7 bits (R92). -/
theorem StreamOk.congr (h : StreamOk s) (hv : t.streamView = s.streamView) (hidle : t.busy = none → s.nBits ≤ 7) :
    StreamOk t := by
  simp only [State.streamView, Prod.mk.injEq] at hv
  obtain ⟨ho, hlw, hcl, he, hb, hn, hw, hhi, hov, hlv, hl, hp, ha⟩ := hv
  have hend : tableEnd t = tableEnd s := by simp only [tableEnd, hlv, hhi, he]
  constructor
  case table =>
    rw [hend, hcl]
    exact fun c h₁ h₂ => (h.table c h₁ h₂).congr ha hcl he
  case nBitsIdle => rw [hn]; exact hidle
  case litWidth => rw [hlw]; exact h.litWidth
  case clear => rw [hcl, hlw]; exact h.clear
  case eof => rw [he, hcl]; exact h.eof
  case width => rw [hlw, hw]; exact h.width
  case overflow => rw [hov, hw]; exact h.overflow
  case hi => rw [he, hhi, hov]; exact h.hi
  case hiLow => rw [hw, hhi]; exact h.hiLow
  case epoch => rw [hp, hhi, he]; exact h.epoch
  case sentinel => rw [hlv, hhi, he, hw]; exact h.sentinel
  case valid => rw [hlv, he, hhi, hl, hcl]; exact h.valid
  case acc => rw [ho, hb, hn]; exact h.acc
  case nBits => rw [hn, hw]; exact h.nBits

end Parts

/-! ## The block between commands -/

section AtRest
variable {s t : State}

/-- What the invariant says of a block with no READ in service, whatever `busy` holds at the moment: what READ's loop
starts from (R136 to R138). -/
structure AtRest (s : State) : Prop where
  widths : Widths s
  arrays : ArraysOk s
  cond   : condOk s.phase s.cond
  queue  : QueueOk s
  o      : s.o = 0
  stream : s.phase.live = true → StreamOk s
  nBits  : s.phase.live = true → s.nBits ≤ 7

theorem Inv.atRest (h : Inv s) (hb : s.busy = none) : AtRest s where
  widths := h.widths
  arrays := h.arrays
  cond := h.cond
  queue := h.queue
  o := h.idle hb
  stream := h.stream
  nBits hl := (h.stream hl).nBitsIdle hb

/-- A response ends the command in service, and the invariant holds. -/
theorem AtRest.inv_respond (h : AtRest s) (r : Response) : Inv (s.respond r) where
  widths := { h.widths with }
  arrays := { h.arrays with }
  cond := h.cond
  queue := { h.queue with }
  idle _ := h.o
  pass hb := by simp at hb
  stream hl := (h.stream hl).congr rfl fun _ => h.nBits hl

/-- Bytes taken from the queue leave a queue (R136). -/
theorem AtRest.takePending (h : AtRest s) {k : Nat} (hk : s.pendPos + k ≤ s.pendEnd) : AtRest (s.takePending k) where
  widths := { h.widths with pendPos := hk.trans_lt h.widths.pendEnd }
  arrays := { h.arrays with }
  cond := h.cond
  queue := ⟨hk, h.queue.bound, h.queue.listed.sub (Nat.le_add_right _ _) le_rfl⟩
  o := h.o
  stream hl := (h.stream hl).congr rfl fun _ => h.nBits hl
  nBits := h.nBits

/-- A READ's decode pass begins in a live phase with the queue empty (R138, R142). -/
theorem AtRest.inv_startPass (h : AtRest s) (n : BitVec 16) (hl : s.phase.live = true) (he : s.pendEnd ≤ s.pendPos) :
    Inv (s.startPass n) where
  widths := { h.widths with }
  arrays := { h.arrays with }
  cond := h.cond
  queue := { h.queue with }
  idle hb := by simp at hb
  pass _ := ⟨hl, le_antisymm h.queue.order he, by simp [h.o], listed_empty _ (by simp [h.o])⟩
  stream _ := (h.stream hl).congr rfl fun _ => h.nBits hl

theorem live_of_not_terminal {p : Phase} (hu : p ≠ .unconfigured) (ht : p.terminal = false) : p.live = true := by
  cases p <;> simp_all [Phase.terminal, Phase.live]

theorem AtRest.inv_readLoop {n : BitVec 16} (h : AtRest s) (hu : s.phase ≠ .unconfigured) (ht : readLoop n s = .ok t) :
    Inv t := by
  rcases readLoop_cases ht with ⟨hq, hd⟩ | ⟨-, -, rfl⟩ | ⟨he, hp, rfl⟩
  · obtain ⟨data, -, rfl⟩ := deliver_cases hd
    have hk : deliverCount s n ≤ s.pendEnd - s.pendPos := Nat.min_le_right _ _
    exact (h.takePending (by omega)).inv_respond _
  · exact h.inv_respond _
  · exact h.inv_startPass n (live_of_not_terminal hu hp) he

end AtRest

/-! ## A pass that ends -/

section EndPass
variable {s t : State}

/-- The flush of a pass that has written OUT[0 : o] leaves that queue (R127). -/
theorem queueOk_flush (hb : s.o ≤ 8186) (hl : Listed s.out 0 s.o) : QueueOk s.flush := ⟨Nat.zero_le _, hb, hl⟩

theorem widths_flush (h : Widths s) : Widths s.flush :=
  { h with o := by simp, pendPos := by simp, pendEnd := h.o }

theorem inv_endPass (hb : s.busy.isSome = true) (hu : s.phase ≠ .unconfigured) (h : AtRest s.flush)
    (ht : endPass s = .ok t) : Inv t := by
  rcases endPass_cases ht with ⟨n, -, hr⟩ | ⟨hn, -⟩
  · exact h.inv_readLoop hu hr
  · simp [hn] at hb

/-- The four conditions a pass ends with (R98, R101, R102), each stored with its phase (R28). -/
theorem condOk_terminate {c : Status} (e : Option SrcErr)
    (hc : c = .eof ∨ c = .invalidCode ∨ c = .unexpectedEof ∨ c = .sourceError) :
    condOk (s.terminate c e).phase (s.terminate c e).cond ∧ (s.terminate c e).phase.terminal = true := by
  rcases hc with rfl | rfl | rfl | rfl <;> simp [State.terminate, condOk, Phase.terminal]

theorem not_live_of_terminal {p : Phase} (h : p.terminal = true) : p.live = false := by
  cases p <;> simp_all [Phase.terminal, Phase.live]

/-- A terminal condition ends the pass in service with the invariant. -/
theorem Inv.inv_terminate (h : Inv s) (hb : s.busy.isSome = true) {c : Status} {e : Option SrcErr}
    (hc : c = .eof ∨ c = .invalidCode ∨ c = .unexpectedEof ∨ c = .sourceError)
    (ht : endPass (s.terminate c e) = .ok t) : Inv t := by
  obtain ⟨hcond, hterm⟩ := condOk_terminate (s := s) e hc
  have hnl : (s.terminate c e).phase.live = false := not_live_of_terminal hterm
  obtain ⟨-, -, ho, hlisted⟩ := h.pass hb
  have hrest : AtRest (s.terminate c e).flush :=
    { widths := widths_flush { h.widths with }
      arrays := { h.arrays with }
      cond := hcond
      queue := queueOk_flush (ho.trans (by decide)) hlisted
      o := rfl
      stream := fun hl => nomatch hl.symm.trans hnl
      nBits := fun hl => nomatch hl.symm.trans hnl }
  exact inv_endPass (s := s.terminate c e) hb (fun hu => by rw [hu] at hterm; cases hterm) hrest ht

end EndPass

/-! ## Within the step of one code -/

section MidCode
variable {s t u : State}

/-- What holds from EXTRACT to the flush check of a LITERAL, DICT or KWKWK step: the invariant of a pass, but that a code
may have carried o past the flush threshold, and fewer than 8 bits are left (R92, R97, R128). -/
structure MidCode (s : State) : Prop where
  widths : Widths s
  arrays : ArraysOk s
  cond   : s.cond = .ok
  live   : s.phase.live = true
  busy   : s.busy.isSome = true
  queue  : QueueOk s
  empty  : s.pendPos = s.pendEnd
  o      : s.o ≤ 8186
  listed : Listed s.out 0 s.o
  stream : StreamOk s
  nBits  : s.nBits ≤ 7

theorem condOk_live {p : Phase} {c : Status} (hl : p.live = true) : condOk p c ↔ c = .ok := by
  cases p <;> simp_all [Phase.live, condOk]

theorem ne_unconfigured_of_live {p : Phase} (hl : p.live = true) : p ≠ .unconfigured := by
  rintro rfl; simp [Phase.live] at hl

/-- Below the threshold the pass goes on (R107). -/
theorem MidCode.inv (h : MidCode s) (ho : s.o ≤ 4095) : Inv s where
  widths := h.widths
  arrays := h.arrays
  cond := (condOk_live h.live).mpr h.cond
  queue := h.queue
  idle hb := absurd h.busy (by simp [hb])
  pass _ := ⟨h.live, h.empty, ho, h.listed⟩
  stream _ := h.stream

theorem MidCode.atRest_flush (h : MidCode s) : AtRest s.flush where
  widths := widths_flush h.widths
  arrays := { h.arrays with }
  cond := (condOk_live h.live).mpr h.cond
  queue := queueOk_flush h.o h.listed
  o := rfl
  stream _ := h.stream.congr rfl fun _ => h.nBits
  nBits _ := h.nBits

theorem MidCode.inv_flushCheck (h : MidCode s) (ht : flushCheck s = .ok t) : Inv t := by
  rcases flushCheck_cases ht with ⟨-, he⟩ | ⟨ho, rfl⟩
  · exact inv_endPass h.busy (ne_unconfigured_of_live h.live) h.atRest_flush he
  · exact h.inv (Nat.le_of_lt_succ ho)

/-- A write of OUT is not seen by the table (R38). -/
theorem MidCode.putOut (h : MidCode s) {i : Nat} (v : Nat) (hi : i < Config.outSize) : MidCode (s.putOut i v) :=
  { h with
    widths := { h.widths with }
    arrays := { h.arrays with out := Memory.wf_write _ hi h.arrays.out }
    queue := { h.queue with listed := h.queue.listed.write _ _ }
    listed := h.listed.write _ _
    stream := h.stream.congr rfl fun _ => h.nBits }

theorem MidCode.advanceO (h : MidCode s) {n : Nat} (hn : s.o + n ≤ 8186) (hl : Listed s.out 0 (s.o + n)) :
    MidCode (s.advanceO n) :=
  { h with
    widths := { h.widths with o := hn.trans_lt (by decide) }
    arrays := { h.arrays with }
    queue := { h.queue with }
    o := hn
    listed := hl
    stream := h.stream.congr rfl fun _ => h.nBits }

/-! ### The table's new entry (R124) and the trailer (R103 to R106) -/

/-- The slots up to hi are entries: what SEAL leaves and the trailer needs. -/
def FilledToHi (s : State) : Prop := ∀ c, s.clear + 2 ≤ c → c ≤ s.hi → EntryOk s c

/-- With no last code the epoch has no slot to fill: it has just begun, or the table is full (R25, R105). -/
theorem StreamOk.filledToHi (h : StreamOk s) (hl : s.lastValid = false) : FilledToHi s := by
  intro c h₁ h₂
  have he := h.eof
  rcases h.sentinel hl with hhi | ⟨hhi, -⟩
  · omega
  · refine h.table c h₁ ?_
    simp only [tableEnd, hl, Bool.false_eq_true, if_false]
    split <;> omega

/-- An entry stands where it is when another slot is written. -/
theorem EntryOk.seal_other {c a v p : Nat} (h : EntryOk s c) (hc : c ≠ a) : EntryOk ((s.putSuf a v).putPre a p) c where
  sufFresh := by simp [h.sufFresh]
  preFresh := by simp [h.preFresh]
  suf := by simpa [Memory.read_write_other _ _ hc] using h.suf
  pre := by simpa [Memory.read_write_other _ _ hc] using h.pre

/-- Slot hi becomes an entry whose chain goes on at last. -/
theorem entryOk_seal (hv : s.last < s.hi ∧ s.last ≠ s.clear ∧ s.last ≠ s.eof) (hw : s.last < 2 ^ 12) (v : Nat) :
    EntryOk ((s.putSuf s.hi v).putPre s.hi s.last) s.hi where
  sufFresh := by simp
  preFresh := by simp
  suf := by simp
  pre := ⟨BitVec.ofNat 12 s.last, by simp, by rwa [BitVec.toNat_ofNat, Nat.mod_eq_of_lt hw]⟩

theorem arraysOk_seal (h : ArraysOk s) (hh : s.hi < Config.tableSize) (v : Nat) :
    ArraysOk ((s.putSuf s.hi v).putPre s.hi s.last) where
  suf := Memory.wf_write _ hh h.suf
  pre := Memory.wf_write _ hh h.pre
  out := h.out
  sufFresh := risingFrom_markSlot (Nat.zero_le _) hh h.sufFresh
  preFresh := risingFrom_markSlot (Nat.zero_le _) hh h.preFresh

theorem MidCode.seal (h : MidCode s) {v : Nat} (hu : sealEntry v s = .ok u) : MidCode u ∧ FilledToHi u := by
  rcases sealEntry_cases hu with ⟨hl, hh, rfl⟩ | ⟨hl, rfl⟩
  · have hend : tableEnd s = s.hi := by simp [tableEnd, hl]
    have hold : ∀ c, s.clear + 2 ≤ c → c < s.hi → EntryOk ((s.putSuf s.hi v).putPre s.hi s.last) c :=
      fun c h₁ h₂ => (h.stream.table c h₁ (hend ▸ h₂)).seal_other h₂.ne
    obtain ⟨-, hv⟩ := h.stream.valid hl
    refine ⟨{ h with
        widths := { h.widths with }
        arrays := arraysOk_seal h.arrays hh v
        queue := { h.queue with }
        stream := { h.stream with table := fun c h₁ h₂ => hold c h₁ (hend ▸ h₂) } }, fun c h₁ h₂ => ?_⟩
    rcases Nat.lt_or_eq_of_le h₂ with h₂ | rfl
    · exact hold c h₁ h₂
    · exact entryOk_seal hv h.widths.last v
  · exact ⟨h, h.stream.filledToHi hl⟩

end MidCode

section Trailer
variable {s t u : State} {code : Nat}

/-- A code of the classes LITERAL, DICT and KWKWK, as hi stands when it is read (R62): what the trailer records as last. -/
def Recordable (s : State) (code : Nat) : Prop := code ≤ s.hi ∧ code ≠ s.clear ∧ code ≠ s.eof

theorem StreamOk.clear_bounds (h : StreamOk s) : 4 ≤ s.clear ∧ s.clear ≤ 256 := by
  rw [h.clear]
  obtain ⟨hlo, hhi⟩ := h.litWidth
  exact ⟨Nat.pow_le_pow_right Nat.two_pos hlo, Nat.pow_le_pow_right Nat.two_pos hhi⟩

theorem FilledToHi.entry (hf : FilledToHi s) {c : Nat} (h₁ : s.clear + 2 ≤ c) (h₂ : c < s.hi + 1)
    (ha : SameArrays s t) (hc : t.clear = s.clear) (he : t.eof = s.eof) : EntryOk t c :=
  (hf c h₁ (Nat.le_of_lt_succ h₂)).congr ha hc he

/-- The end of a step up to the flush check, phase and trailer, as one update of the state in each of its cases (R97, R103
to R105). -/
theorem trailer_setDecoding_cases (ht : Machine.trailer code s.setDecoding = .ok t) :
    (s.hi + 1 < s.overflow ∧
      t = { s with phase := .decoding, hi := s.hi + 1, lastValid := true, last := code }) ∨
    (s.hi + 1 = s.overflow ∧ s.width ≠ Config.maxWidth ∧
      t = { s with phase := .decoding, hi := s.hi + 1, lastValid := true, last := code, width := s.width + 1,
                   overflow := 2 ^ (s.width + 1) }) ∨
    (s.hi + 1 = s.overflow ∧ s.width = Config.maxWidth ∧
      t = { s with phase := .decoding, lastValid := false, last := (Config.freeValue 12 s.freeCtr).toNat,
                   freeCtr := s.freeCtr + 1 }) := by
  rcases trailer_cases ht with ⟨hlt, rfl⟩ | ⟨heq, hw, rfl⟩ | ⟨heq, hw, rfl⟩
  · exact .inl ⟨hlt, rfl⟩
  · refine .inr (.inr ⟨heq, hw, ?_⟩)
    simp only [State.rollBack, State.invalidateLast, State.bumpHi, State.setLast, State.setDecoding, Nat.add_sub_cancel]
  · exact .inr (.inl ⟨heq, hw, rfl⟩)

/-- The trailer below overflow (R103). -/
theorem StreamOk.record (h : StreamOk s) (hf : FilledToHi s) (hc : Recordable s code) (hlt : s.hi + 1 < s.overflow) :
    StreamOk { s with phase := .decoding, hi := s.hi + 1, lastValid := true, last := code } := by
  obtain ⟨hle, hne⟩ := hc
  obtain ⟨heof, -⟩ := h.hi
  exact { h with
    hi := ⟨Nat.le_succ_of_le heof, hlt⟩
    hiLow := Nat.le_succ_of_le h.hiLow
    epoch := ⟨nofun, fun hhi => absurd hhi (Nat.lt_succ_of_le heof).ne'⟩
    sentinel := nofun
    valid := fun _ => ⟨Nat.lt_succ_of_le heof, Nat.lt_succ_of_le hle, hne⟩
    table := fun c h₁ h₂ => hf.entry h₁ (by simpa [tableEnd] using h₂) ⟨rfl, rfl, rfl, rfl⟩ rfl rfl }

/-- The trailer where the next slot needs a wider code (R104). -/
theorem StreamOk.recordAndGrow (h : StreamOk s) (hf : FilledToHi s) (hc : Recordable s code)
    (heq : s.hi + 1 = s.overflow) (hw : s.width ≠ Config.maxWidth) :
    StreamOk { s with phase := .decoding, hi := s.hi + 1, lastValid := true, last := code, width := s.width + 1,
                      overflow := 2 ^ (s.width + 1) } := by
  obtain ⟨hle, hne⟩ := hc
  obtain ⟨heof, -⟩ := h.hi
  obtain ⟨hw₁, hw₂⟩ := h.width
  have hov : s.hi + 1 = 2 ^ s.width := heq.trans h.overflow
  exact { h with
    width := ⟨Nat.le_succ_of_le hw₁, Nat.lt_of_le_of_ne hw₂ hw⟩
    overflow := rfl
    hi := ⟨Nat.le_succ_of_le heof, hov.trans_lt (Nat.pow_lt_pow_succ (by decide))⟩
    hiLow := hov.ge
    epoch := ⟨nofun, fun hhi => absurd hhi (Nat.lt_succ_of_le heof).ne'⟩
    sentinel := nofun
    valid := fun _ => ⟨Nat.lt_succ_of_le heof, Nat.lt_succ_of_le hle, hne⟩
    nBits := h.nBits.trans (Nat.le_succ _)
    table := fun c h₁ h₂ => hf.entry h₁ (by simpa [tableEnd] using h₂) ⟨rfl, rfl, rfl, rfl⟩ rfl rfl }

/-- The trailer of the code that fills the table: hi stays, no code is recorded, and slot hi is of the epoch (R105). -/
theorem StreamOk.recordAndRollBack (h : StreamOk s) (hf : FilledToHi s) (heq : s.hi + 1 = s.overflow)
    (hw : s.width = Config.maxWidth) (last freeCtr : Nat) :
    StreamOk { s with phase := .decoding, lastValid := false, last, freeCtr } := by
  have hhi : s.hi = 4095 := by
    have := heq.trans h.overflow
    rw [hw, Config.maxWidth] at this
    omega
  have hne : s.hi ≠ s.eof := by
    have := h.clear_bounds
    have := h.eof
    omega
  exact { h with
    epoch := by simp [hne]
    sentinel := fun _ => .inr ⟨hhi, hw⟩
    valid := by simp
    table := fun c h₁ h₂ => hf.entry h₁ (by simpa [tableEnd, hne] using h₂) ⟨rfl, rfl, rfl, rfl⟩ rfl rfl }

/-- Once the slots up to hi are filled, the trailer of a recordable code restores the relations of the live phase. -/
theorem StreamOk.trailer (h : StreamOk s) (hf : FilledToHi s) (hc : Recordable s code)
    (ht : trailer code s.setDecoding = .ok t) : StreamOk t := by
  rcases trailer_setDecoding_cases ht with ⟨hlt, rfl⟩ | ⟨heq, hw, rfl⟩ | ⟨heq, hw, rfl⟩
  · exact h.record hf hc hlt
  · exact h.recordAndGrow hf hc heq hw
  · exact h.recordAndRollBack hf heq hw _ _

/-- The relations of the live phase keep the table's registers inside their widths (R15, R22 to R24). -/
theorem StreamOk.table_lt (h : StreamOk s) : s.width < 2 ^ 4 ∧ s.hi < 2 ^ 12 ∧ s.overflow < 2 ^ 13 := by
  obtain ⟨-, hw⟩ := h.width
  obtain ⟨-, hhi⟩ := h.hi
  have hov : s.overflow ≤ 2 ^ 12 := h.overflow ▸ Nat.pow_le_pow_right (by decide) hw
  simp only [Config.maxWidth] at hw
  omega

/-- The trailer keeps every register but the table's, the phase and the count of free values. -/
theorem trailer_setDecoding_frame (ht : Machine.trailer code s.setDecoding = .ok t) :
    ∃ width hi overflow lastValid last freeCtr, (last = code ∨ last < 2 ^ 12) ∧
      t = { s with phase := .decoding, width, hi, overflow, lastValid, last, freeCtr } := by
  rcases trailer_setDecoding_cases ht with ⟨-, rfl⟩ | ⟨-, -, rfl⟩ | ⟨-, -, rfl⟩
  · exact ⟨_, _, _, _, _, _, .inl rfl, rfl⟩
  · exact ⟨_, _, _, _, _, _, .inl rfl, rfl⟩
  · exact ⟨_, _, _, _, _, _, .inr (Config.freeValue 12 _).isLt, rfl⟩

theorem MidCode.trailer (h : MidCode s) (hf : FilledToHi s) (hc : Recordable s code)
    (ht : trailer code s.setDecoding = .ok t) : MidCode t := by
  have hs : StreamOk t := h.stream.trailer hf hc ht
  obtain ⟨hw, hhi, hov⟩ := hs.table_lt
  have hcode : code < 2 ^ 12 := hc.1.trans_lt h.stream.table_lt.2.1
  obtain ⟨_, _, _, _, _, _, hl, rfl⟩ := trailer_setDecoding_frame ht
  exact { h with
    widths := { h.widths with
      width := hw, hi := hhi.trans (by decide), overflow := hov, last := hl.elim (· ▸ hcode) id }
    arrays := { h.arrays with }
    live := rfl
    queue := { h.queue with }
    stream := hs }

/-- From the output of a code to the end of its step: SEAL, the trailer and the flush check (R97). -/
theorem MidCode.inv_finishCode {v : Nat} (h : MidCode s) (hc : Recordable s code) (hu : sealEntry v s = .ok u)
    (ht : endStep code u = .ok t) : Inv t := by
  obtain ⟨hmid, hf⟩ := h.seal hu
  obtain ⟨w, hw, ht⟩ := endStep_cases ht
  have hcu : Recordable u code := by
    rcases sealEntry_cases hu with ⟨-, -, rfl⟩ | ⟨-, rfl⟩ <;> exact hc
  exact (hmid.trailer hf hcu hw).inv_flushCheck ht

/-- LITERAL (R99). -/
theorem MidCode.inv_literalStep (h : MidCode s) (ho : s.o ≤ 4095) (hc : Recordable s code)
    (ht : literalStep code s = .ok t) : Inv t := by
  obtain ⟨hlt, u, hu, ht⟩ := literalStep_cases ht
  have hmid : MidCode ((s.putOut s.o code).advanceO 1) :=
    (h.putOut code hlt).advanceO (by simp; omega) (h.listed.write_end _)
  exact hmid.inv_finishCode hc hu ht

end Trailer

/-! ### DICT and KWKWK: the walk and the copy -/

section Expansion
variable {s t u : State} {fuel c i head top n src dst code : Nat}

/-- One turn of the walk (R117): it ends on a literal, or goes on at PRE of the entry. -/
theorem walk_cases (h : walk fuel c i s = .ok (head, top, t)) :
    (c < s.clear ∧ i < Config.outSize ∧ top = i ∧ t = s.putOut i c) ∨
    (s.clear ≤ c ∧ i < Config.outSize ∧ ∃ fuel' b p, fuel = fuel' + 1 ∧ preRead s c = .ok p ∧
      walk fuel' p.toNat (i - 1) (s.putOut i b) = .ok (head, top, t)) := by
  unfold walk at h
  split at h
  · split at h
    · cases h
    · rename_i hc _ s' hs'
      obtain ⟨hi, rfl⟩ := outWrite_eq_ok.mp hs'
      cases h
      exact .inl ⟨hc, hi, rfl, rfl⟩
  · rename_i hc
    cases fuel with
    | zero => cases h
    | succ fuel' =>
      simp only at h
      split at h
      · cases h
      · rename_i b _
        split at h
        · cases h
        · rename_i s' hs'
          obtain ⟨hi, rfl⟩ := outWrite_eq_ok.mp hs'
          split at h
          · cases h
          · rename_i p hp
            exact .inr ⟨Nat.le_of_not_lt hc, hi, fuel', b.toNat, p, rfl, hp, h⟩

/-- One turn of the copy (R122). -/
theorem copyUp_succ (h : copyUp (n + 1) src dst s = .ok t) :
    ∃ b, dst < Config.outSize ∧ copyUp n (src + 1) (dst + 1) (s.putOut dst b) = .ok t := by
  unfold copyUp at h
  split at h
  · cases h
  · rename_i b _
    split at h
    · cases h
    · rename_i s' hs'
      obtain ⟨hd, rfl⟩ := outWrite_eq_ok.mp hs'
      exact ⟨b.toNat, hd, h⟩

/-- The walk keeps all that a write of OUT keeps. -/
theorem walk_preserves {P : State → Prop} (hP : ∀ s i v, i < Config.outSize → P s → P (s.putOut i v))
    (h : walk fuel c i s = .ok (head, top, t)) (hs : P s) : P t := by
  induction fuel generalizing c i s with
  | zero =>
    rcases walk_cases h with ⟨-, hi, -, rfl⟩ | ⟨-, -, _, _, _, hf, -⟩
    · exact hP s i c hi hs
    · cases hf
  | succ fuel ih =>
    rcases walk_cases h with ⟨-, hi, -, rfl⟩ | ⟨-, hi, _, b, _, hf, -, hw⟩
    · exact hP s i c hi hs
    · cases hf; exact ih hw (hP s i b hi hs)

/-- The copy keeps all that a write of OUT keeps. -/
theorem copyUp_preserves {P : State → Prop} (hP : ∀ s i v, i < Config.outSize → P s → P (s.putOut i v))
    (h : copyUp n src dst s = .ok t) (hs : P s) : P t := by
  induction n generalizing src dst s with
  | zero => cases h; exact hs
  | succ n ih =>
    obtain ⟨b, hd, h⟩ := copyUp_succ h
    exact ih h (hP s dst b hd hs)

/-- The copy fills the range it copies to. -/
theorem copyUp_listed (h : copyUp n src dst s = .ok t) (hs : Listed s.out 0 dst) : Listed t.out 0 (dst + n) := by
  induction n generalizing src dst s with
  | zero => cases h; exact hs
  | succ n ih =>
    obtain ⟨b, -, h⟩ := copyUp_succ h
    rw [Nat.add_comm n, ← Nat.add_assoc]
    exact ih h (hs.write_end _)

/-- A code that has an expansion: a literal, or a slot of the current epoch (R120). -/
def Chained (s : State) (c : Nat) : Prop := c < s.clear ∨ (s.clear + 2 ≤ c ∧ c < tableEnd s)

/-- A chain descends, and stays among the codes that have an expansion (R33(c), R111). -/
def Descends (s : State) : Prop :=
  ∀ c p, Chained s c → s.clear ≤ c → preRead s c = .ok p → p.toNat < c ∧ Chained s p.toNat

theorem StreamOk.descends (h : StreamOk s) : Descends s := by
  intro c p hc hle hp
  rcases hc with hc | ⟨h₁, h₂⟩
  · exact absurd hc (Nat.not_lt.mpr hle)
  · obtain ⟨q, hq, hlt, hnc, hne⟩ := (h.table c h₁ h₂).pre
    obtain ⟨-, -, hp⟩ := preRead_eq_ok.mp hp
    cases hp.symm.trans hq
    refine ⟨hlt, ?_⟩
    have he := h.eof
    unfold Chained
    omega

/-- The walk goes down one index an entry, so at most as far as the codes above the literals reach (R121). -/
theorem walk_top (hd : Descends s) (hc : Chained s c) (h : walk fuel c i s = .ok (head, top, t)) :
    i ≤ top + (c - (s.clear + 1)) := by
  induction fuel generalizing c i s with
  | zero =>
    rcases walk_cases h with ⟨-, -, rfl, -⟩ | ⟨-, -, _, _, _, hf, -⟩
    · exact Nat.le_add_right _ _
    · cases hf
  | succ fuel ih =>
    rcases walk_cases h with ⟨-, -, rfl, -⟩ | ⟨hle, -, _, b, p, hf, hp, hw⟩
    · exact Nat.le_add_right _ _
    · cases hf
      obtain ⟨hlt, hcp⟩ := hd c p hc hle hp
      have hrest : i - 1 ≤ top + (p.toNat - (s.clear + 1)) := ih (s := s.putOut i b) hd hcp hw
      unfold Chained at hc hcp
      omega

theorem expandStep_steps (h : expandStep code c i s = .ok t) :
    ∃ head top s₁ s₂ u, walk chainFuel c i s = .ok (head, top, s₁) ∧
      copyUp (Config.outSize - top) top s₁.o s₁ = .ok s₂ ∧
      sealEntry head (s₂.advanceO (Config.outSize - top)) = .ok u ∧ endStep code u = .ok t := by
  unfold expandStep at h
  split at h
  · cases h
  · rename_i head top s₁ hw
    split at h
    · cases h
    · rename_i s₂ ha
      unfold assembleTail at ha
      split at ha
      · cases ha
      · rename_i s₂ hcopy
        cases ha
        split at h
        · cases h
        · rename_i u hu
          exact ⟨head, top, s₁, s₂, u, hw, hcopy, hu, h⟩

/-- DICT and KWKWK's common part: what the walk wrote is at most 4091 bytes (R121), so o stays inside OUT (R128). -/
theorem MidCode.inv_expandStep (h : MidCode s) (ho : s.o ≤ 4095) (hr : Recordable s code) (hc : Chained s c)
    (hi : Config.outSize - i + (c - (s.clear + 1)) ≤ 4091) (ht : expandStep code c i s = .ok t) : Inv t := by
  obtain ⟨head, top, s₁, s₂, u, hw, hcopy, hu, ht⟩ := expandStep_steps ht
  have htop := walk_top h.stream.descends hc hw
  have hput : ∀ s i v, i < Config.outSize → MidCode s → MidCode (s.putOut i v) := fun _ _ v hi h => h.putOut v hi
  have h₁ : MidCode s₁ := walk_preserves hput hw h
  have h₂ : MidCode s₂ := copyUp_preserves hput hcopy h₁
  have hl : Listed s₂.out 0 (s₁.o + (Config.outSize - top)) := copyUp_listed hcopy h₁.listed
  obtain ⟨m₁, rfl⟩ := walk_frame hw
  obtain ⟨m₂, rfl⟩ := copyUp_frame hcopy
  have hn : s.o + (Config.outSize - top) ≤ 8186 := by omega
  exact (h₂.advanceO hn hl).inv_finishCode hr hu ht

theorem kwkwkStep_steps (h : kwkwkStep code s = .ok t) :
    ∃ v, expandStep code s.last (Config.outSize - 2) (s.putOut (Config.outSize - 1) v) = .ok t := by
  unfold kwkwkStep at h
  split at h
  · cases h
  · rename_i v _
    split at h
    · cases h
    · rename_i s₁ hs₁
      obtain ⟨-, rfl⟩ := outWrite_eq_ok.mp hs₁
      exact ⟨v, h⟩

/-- A code up to hi that is neither CLEAR nor EOF has an expansion, unless it is hi with last valid: KWKWK (R67). -/
theorem StreamOk.chained (h : StreamOk s) (hr : Recordable s c) (hn : ¬ (c = s.hi ∧ s.lastValid = true)) :
    Chained s c := by
  obtain ⟨hle, hnc, hne⟩ := hr
  have he := h.eof
  cases hl : s.lastValid with
  | true =>
    simp only [Chained, tableEnd, hl, if_true]
    simp only [hl, and_true] at hn
    omega
  | false =>
    rcases Nat.lt_or_ge c s.clear with hc | hc
    · exact .inl hc
    · have h₁ : s.clear + 2 ≤ c := by omega
      refine .inr ⟨h₁, ?_⟩
      simp only [tableEnd, hl, Bool.false_eq_true, if_false]
      split <;> omega

/-- DICT (R115). -/
theorem MidCode.inv_dictStep (h : MidCode s) (ho : s.o ≤ 4095) (hr : Recordable s code)
    (hn : ¬ (code = s.hi ∧ s.lastValid = true)) (ht : dictStep code s = .ok t) : Inv t := by
  have hcode : code < 4096 := hr.1.trans_lt h.stream.table_lt.2.1
  have hclear := h.stream.clear_bounds
  exact h.inv_expandStep ho hr (h.stream.chained hr hn) (by simp only [Config.outSize]; omega) ht

/-- KWKWK (R116): the chain of last and one byte more. -/
theorem MidCode.inv_kwkwkStep (h : MidCode s) (ho : s.o ≤ 4095) (hr : Recordable s code) (hl : s.lastValid = true)
    (ht : kwkwkStep code s = .ok t) : Inv t := by
  obtain ⟨v, ht⟩ := kwkwkStep_steps ht
  obtain ⟨-, hlast, hne⟩ := h.stream.valid hl
  have hhi := h.stream.table_lt.2.1
  have hclear := h.stream.clear_bounds
  have hc : Chained s s.last := h.stream.chained ⟨hlast.le, hne⟩ fun ⟨heq, _⟩ => hlast.ne heq
  have hput : MidCode (s.putOut (Config.outSize - 1) v) := h.putOut v (by decide)
  exact hput.inv_expandStep ho hr hc (by simp only [Config.outSize, State.putOut_clear]; omega) ht

end Expansion

/-! ## A new epoch: INIT and CLEAR -/

section NewEpoch
variable {s : State}

/-- The registers right after INIT or CLEAR (R36, R100): the table has no entry yet. -/
structure EpochStart (s : State) : Prop where
  litWidth  : 2 ≤ s.litWidth ∧ s.litWidth ≤ 8
  clear     : s.clear = 2 ^ s.litWidth
  eof       : s.eof = s.clear + 1
  width     : s.width = s.litWidth + 1
  overflow  : s.overflow = 2 ^ (s.litWidth + 1)
  hi        : s.hi = s.eof
  lastValid : s.lastValid = false
  phase     : s.phase = .cleared
  acc       : AccOk s.order s.bits s.nBits
  nBits     : s.nBits ≤ 7

theorem EpochStart.streamOk (h : EpochStart s) : StreamOk s := by
  obtain ⟨hlw, hlw'⟩ := h.litWidth
  have hclear : 2 ^ 2 ≤ s.clear := h.clear ▸ Nat.pow_le_pow_right Nat.two_pos hlw
  have hover : s.overflow = 2 * s.clear := by rw [h.overflow, h.clear, Nat.pow_succ']
  have hend : tableEnd s = s.clear + 1 := by simp [tableEnd, h.lastValid, h.hi, h.eof]
  exact {
    litWidth := ⟨hlw, hlw'⟩
    clear := h.clear
    eof := h.eof
    width := ⟨h.width.ge, h.width ▸ Nat.succ_le_succ (hlw'.trans (by decide))⟩
    overflow := h.width ▸ h.overflow
    hi := ⟨h.hi.ge, by rw [h.hi, h.eof, hover]; omega⟩
    hiLow := by rw [h.width, h.hi, h.eof, h.clear]; exact Nat.le_succ _
    epoch := ⟨fun _ => h.hi, fun _ => h.phase⟩
    sentinel := fun _ => .inl h.hi
    valid := fun hl => nomatch h.lastValid.symm.trans hl
    acc := h.acc
    nBits := h.nBits.trans (Nat.le_add_left _ _)
    nBitsIdle := fun _ => h.nBits
    table := fun c h₁ h₂ => by omega }

theorem epochStart_startStream (s : State) (ord : Order) {w : Nat} (hw : 2 ≤ w ∧ w ≤ 8) :
    EpochStart (s.startStream ord w) := by
  have hacc : AccOk ord 0#32 0 := by cases ord <;> simp [AccOk]
  exact ⟨hw, rfl, rfl, rfl, rfl, rfl, rfl, rfl, hacc, Nat.zero_le _⟩

theorem MidCode.epochStart_clearTable (h : MidCode s) : EpochStart s.clearTable where
  litWidth := h.stream.litWidth
  clear := h.stream.clear
  eof := h.stream.eof
  width := rfl
  overflow := rfl
  hi := rfl
  lastValid := rfl
  phase := rfl
  acc := h.stream.acc
  nBits := h.nBits

/-- The table's registers at the start of an epoch fit their widths (R15). -/
theorem EpochStart.registers_lt (h : EpochStart s) : s.clear < 2 ^ 9 ∧ s.eof < 2 ^ 9 := by
  have hclear := h.streamOk.clear_bounds
  have heof := h.eof
  omega

/-- CLEAR (R100) keeps the pass going. -/
theorem MidCode.inv_clearTable (h : MidCode s) (ho : s.o ≤ 4095) : Inv s.clearTable := by
  have hs := h.epochStart_clearTable.streamOk
  obtain ⟨hw, hhi, hov⟩ := hs.table_lt
  have hmid : MidCode s.clearTable :=
    { h with
      widths := { h.widths with
        width := hw, hi := hhi.trans (by decide), overflow := hov, last := (Config.freeValue 12 _).isLt }
      arrays := { h.arrays with sufFresh := rfl, preFresh := rfl }
      live := rfl
      queue := { h.queue with }
      stream := hs }
  exact hmid.inv ho

end NewEpoch

/-! ## The steps of a pass -/

section Pass
variable {s t : State}

/-- The invariant does not speak of what the host and the byte source still do, nor of what has been observed. -/
theorem Inv.withAgents (h : Inv s) (host : List HostAct) (source : List SourceWord) (trace : List Event) :
    Inv { s with host, source, trace } where
  widths := { h.widths with }
  arrays := { h.arrays with }
  cond := h.cond
  queue := { h.queue with }
  idle := h.idle
  pass hb := { h.pass hb with }
  stream hl := (h.stream hl).congr rfl (h.stream hl).nBitsIdle

theorem Inv.answered (h : Inv s) (a : Answer) (rest : List SourceWord) : Inv (s.answered a rest) :=
  h.withAgents s.host rest (.fetch a :: s.trace)

theorem Inv.takeCommand (h : Inv s) (w : CmdWord) (rest : List HostAct) : Inv (s.takeCommand w rest) :=
  h.withAgents rest s.source (.command w :: s.trace)

/-- INSERT while the next code is not complete (R86 to R88, R92). -/
theorem Inv.insertByte (h : Inv s) (hb : s.busy.isSome = true) (hn : s.nBits < s.width) (b : Byte) :
    Inv (s.insertByte b) := by
  obtain ⟨hl, he, ho, hlisted⟩ := h.pass hb
  have hs := h.stream hl
  obtain ⟨-, hw⟩ := hs.width
  have hw : s.width ≤ 12 := hw
  exact {
    widths := { h.widths with nBits := by rw [State.insertByte_nBits]; omega }
    arrays := { h.arrays with }
    cond := h.cond
    queue := { h.queue with }
    idle := h.idle
    pass := fun _ => ⟨hl, he, ho, hlisted⟩
    stream := fun _ => { hs with
      acc := accOk_insertBits b (by omega) hs.acc
      nBits := by rw [State.insertByte_nBits, State.insertByte_width]; omega
      nBitsIdle := fun hnone => absurd hb (by rw [State.insertByte_busy] at hnone; simp [hnone])
      table := fun c h₁ h₂ => (hs.table c h₁ h₂).congr ⟨rfl, rfl, rfl, rfl⟩ rfl rfl } }

/-- One Fetch transaction (R86, R91). -/
theorem Inv.inv_fetchByte (h : Inv s) (hb : s.busy.isSome = true) (hn : s.nBits < s.width) (ht : fetchByte s = .next t) :
    Inv t := by
  rcases fetchByte_cases s with ⟨-, hf⟩ | ⟨a, rest, -, ⟨b, -, hf⟩ | ⟨-, hf⟩ | ⟨e, -, hf⟩ | ⟨-, hf⟩⟩ <;> rw [hf] at ht
  · cases ht; exact h
  · cases ht; exact (h.answered (.byte b) rest).insertByte hb hn b
  · exact (h.answered .endOfInput rest).inv_terminate hb (by simp) (finish_eq_next.mp ht)
  · exact (h.answered (.err e) rest).inv_terminate hb (by simp) (finish_eq_next.mp ht)
  · cases ht

/-- EXTRACT leaves fewer than 8 bits (R89, R90, R92). -/
theorem Inv.midCode_dropCode (h : Inv s) (hb : s.busy.isSome = true) (hn : s.width ≤ s.nBits) : MidCode s.dropCode := by
  obtain ⟨hl, he, ho, hlisted⟩ := h.pass hb
  have hs := h.stream hl
  have hbits := hs.nBits
  have h7 : s.nBits - s.width ≤ 7 := by omega
  exact {
    widths := { h.widths with nBits := h7.trans_lt (by decide) }
    arrays := { h.arrays with }
    cond := (condOk_live hl).mp h.cond
    live := hl
    busy := hb
    queue := { h.queue with }
    empty := he
    o := ho.trans (by decide)
    listed := hlisted
    stream := { hs with
      acc := accOk_extractRest hn h.widths.nBits.le hs.acc
      nBits := h7.trans (Nat.le_add_left _ _)
      nBitsIdle := fun _ => h7
      table := fun c h₁ h₂ => (hs.table c h₁ h₂).congr ⟨rfl, rfl, rfl, rfl⟩ rfl rfl }
    nBits := h7 }

/-- The meaning of a classified code (R62, R97). -/
theorem MidCode.inv_exec_classify (h : MidCode s) (ho : s.o ≤ 4095) {code : Code}
    (ht : exec (classify s.codeCtx code) s = .next t) : Inv t := by
  have hinv : Inv s := h.inv ho
  obtain ⟨heof, -⟩ := h.stream.hi
  have he := h.stream.eof
  unfold classify State.codeCtx at ht
  split at ht
  case isTrue hlt =>
    have hlit : literalCode (code.setWidth 8) < s.clear :=
      (BitVec.toNat_setWidth 8 code ▸ Nat.mod_le _ _).trans_lt hlt
    exact h.inv_literalStep ho (by unfold Recordable; omega) (finish_eq_next.mp ht)
  case isFalse hlt =>
    split at ht
    case isTrue => cases ht; exact h.inv_clearTable ho
    case isFalse hnc =>
      split at ht
      case isTrue => exact hinv.inv_terminate h.busy (by simp) (finish_eq_next.mp ht)
      case isFalse hne =>
        split at ht
        case isTrue hle =>
          have hr : Recordable s (codeIndex code) := ⟨hle, hnc, hne⟩
          split at ht
          case isTrue hk => exact h.inv_kwkwkStep ho hr hk.2 (finish_eq_next.mp ht)
          case isFalse hk => exact h.inv_dictStep ho hr hk (finish_eq_next.mp ht)
        case isFalse => exact hinv.inv_terminate h.busy (by simp) (finish_eq_next.mp ht)

end Pass

/-! ## The commands -/

section Commands
variable {s t : State}

theorem atRest_startStream (s : State) (ord : Order) {w : Nat} (hw : 2 ≤ w ∧ w ≤ 8) : AtRest (s.startStream ord w) := by
  have hstart := epochStart_startStream s ord hw
  obtain ⟨hwidth, hhi, hov⟩ := hstart.streamOk.table_lt
  obtain ⟨hclear, heof⟩ := hstart.registers_lt
  exact {
    widths := {
      litWidth := hw.2.trans_lt (by decide), clear := hclear, eof := heof, nBits := by simp, width := hwidth
      hi := hhi.trans (by decide), overflow := hov, last := (Config.freeValue 12 _).isLt, o := by simp
      pendPos := by simp, pendEnd := by simp }
    arrays := ⟨rfl, rfl, rfl, rfl, rfl⟩
    cond := rfl
    queue := ⟨le_rfl, Nat.zero_le _, listed_empty _ le_rfl⟩
    o := rfl
    stream := fun _ => hstart.streamOk
    nBits := fun _ => Nat.zero_le _ }

/-- A failed INIT leaves free values, each of its register's width (R37). -/
theorem AtRest.failStream (h : AtRest s) : AtRest s.failStream where
  widths :=
    { litWidth := BitVec.isLt _, clear := BitVec.isLt _, eof := BitVec.isLt _, nBits := BitVec.isLt _
      width := BitVec.isLt _, hi := BitVec.isLt _, overflow := BitVec.isLt _, last := BitVec.isLt _
      o := by simp, pendPos := by simp, pendEnd := by simp }
  arrays := { h.arrays with }
  cond := by simp [condOk]
  queue := ⟨le_rfl, Nat.zero_le _, listed_empty _ le_rfl⟩
  o := rfl
  stream hl := nomatch hl
  nBits hl := nomatch hl

theorem AtRest.setClosed (h : AtRest s) : AtRest s.setClosed where
  widths := { h.widths with }
  arrays := { h.arrays with }
  cond := rfl
  queue := { h.queue with }
  o := h.o
  stream hl := nomatch hl
  nBits hl := nomatch hl

theorem AtRest.inv_execInit (h : AtRest s) {ord : Order} {w : BitVec 4} (ht : execInit ord w s = .next t) : Inv t := by
  obtain ⟨-, ht⟩ := whenIdle_eq_next.mp ht
  split at ht <;> cases ht
  case isTrue hw => exact (atRest_startStream s ord (of_decide_eq_true hw)).inv_respond _
  case isFalse => exact h.failStream.inv_respond _

theorem AtRest.inv_execRead (h : AtRest s) {n : BitVec 16} (ht : execRead n s = .next t) : Inv t := by
  obtain ⟨-, ht⟩ := whenIdle_eq_next.mp ht
  split at ht
  case isTrue => cases ht; exact h.inv_respond _
  case isFalse hu => exact h.inv_readLoop hu (finish_eq_next.mp ht)

/-- The meaning of a command word (R132). -/
theorem AtRest.inv_exec_decodeCommand (h : AtRest s) {w : CmdWord} (ht : exec (decodeCommand w) s = .next t) : Inv t := by
  unfold decodeCommand at ht
  split at ht
  · exact h.inv_execInit ht
  · split at ht
    · exact h.inv_execRead ht
    · split at ht <;> obtain ⟨-, ht⟩ := whenIdle_eq_next.mp ht <;> cases ht
      · exact h.setClosed.inv_respond _
      · exact h.inv_respond _

end Commands

/-- Settles O45: a step is a Fetch, a code after EXTRACT, or a command on an idle block, and each keeps the invariant. -/
theorem stepKeepsInv : Obligations.StepKeepsInv := by
  intro s t h ht
  rcases step_cases s with ⟨_, _, -, hs⟩ | ⟨-, ⟨hb, hn, hs⟩ | ⟨hb, hn, hs⟩ | ⟨hb, w, rest, -, hs⟩ | ⟨-, -, hs⟩⟩ <;>
    rw [hs] at ht
  · cases ht
  · exact h.inv_fetchByte hb (of_decide_eq_true hn) ht
  · have hmid := h.midCode_dropCode hb (Nat.le_of_not_lt (of_decide_eq_false hn))
    exact hmid.inv_exec_classify (h.pass hb).o ht
  · exact ((h.takeCommand w rest).atRest hb).inv_exec_decodeCommand ht
  · cases ht; exact h

end Sys2Proof.Machine

/-! PROOFS. What no instruction but INIT writes: the configuration and the accumulator; settles O49. -/

namespace Sys2Proof.Machine

section SameInput
variable {s t : State} {code : Nat}

/-- The registers of the input side: the configuration (R16 to R19), OUT's free contents and the accumulator (R20, R21). -/
def State.inputView (s : State) := (s.order, s.litWidth, s.clear, s.eof, s.outFree, s.bits, s.nBits)

theorem inputView_eq_iff : t.inputView = s.inputView ↔ SameConfig s t ∧ SameAcc s t := by
  simp only [State.inputView, SameConfig, SameAcc, Prod.mk.injEq, and_assoc]

theorem readLoop_inputView {n : BitVec 16} (h : readLoop n s = .ok t) : t.inputView = s.inputView := by
  rcases readLoop_cases h with ⟨-, hd⟩ | ⟨-, -, rfl⟩ | ⟨-, -, rfl⟩
  · obtain ⟨_, -, rfl⟩ := deliver_cases hd; rfl
  · rfl
  · rfl

theorem endPass_inputView (h : endPass s = .ok t) : t.inputView = s.inputView := by
  rcases endPass_cases h with ⟨n, -, hr⟩ | ⟨-, rfl⟩
  · exact readLoop_inputView (s := s.flush) hr
  · rfl

theorem sealEntry_inputView {v : Nat} (h : sealEntry v s = .ok t) : t.inputView = s.inputView := by
  rcases sealEntry_cases h with ⟨-, -, rfl⟩ | ⟨-, rfl⟩ <;> rfl

theorem endStep_inputView (h : endStep code s = .ok t) : t.inputView = s.inputView := by
  obtain ⟨u, hu, hf⟩ := endStep_cases h
  have hui : u.inputView = s.inputView := by
    obtain ⟨_, _, _, _, _, _, -, rfl⟩ := trailer_setDecoding_frame hu; rfl
  rcases flushCheck_cases hf with ⟨-, he⟩ | ⟨-, rfl⟩
  · exact (endPass_inputView he).trans hui
  · exact hui

/-- A code's step: the output, which keeps these registers by definition, then the seal and the end of the step. -/
theorem codeStep_inputView {out u : State} {v : Nat} (hu : sealEntry v out = .ok u)
    (h : endStep code u = .ok t) (hout : out.inputView = s.inputView) : t.inputView = s.inputView :=
  (endStep_inputView h).trans ((sealEntry_inputView hu).trans hout)

/-- Every meaning but INIT's keeps the configuration and the accumulator. -/
theorem exec_inputView {i : Instr} (hi : ∀ ord w, i ≠ .init ord w) (h : exec i s = .next t) :
    t.inputView = s.inputView := by
  cases i with
  | literal b =>
    obtain ⟨-, u, hu, he⟩ := literalStep_cases (finish_eq_next.mp h)
    exact codeStep_inputView hu he rfl
  | clear => cases h; rfl
  | eof => exact endPass_inputView (s := s.terminate .eof none) (finish_eq_next.mp h)
  | kwkwk code =>
    obtain ⟨_, _, _, _, hu, he⟩ := kwkwkStep_cases (finish_eq_next.mp h)
    exact codeStep_inputView hu he rfl
  | dict code =>
    obtain ⟨_, _, _, _, hu, he⟩ := expandStep_cases (finish_eq_next.mp h)
    exact codeStep_inputView hu he rfl
  | invalid _ => exact endPass_inputView (s := s.terminate .invalidCode none) (finish_eq_next.mp h)
  | init ord w => exact absurd rfl (hi ord w)
  | read n =>
    obtain ⟨-, h⟩ := whenIdle_eq_next.mp h
    split at h
    · cases h; rfl
    · exact readLoop_inputView (finish_eq_next.mp h)
  | close => obtain ⟨-, h⟩ := whenIdle_eq_next.mp h; cases h; rfl
  | reserved _ => obtain ⟨-, h⟩ := whenIdle_eq_next.mp h; cases h; rfl

end SameInput

/-- Settles O49: the configuration is part of what every meaning but INIT's keeps. -/
theorem onlyInitConfigures : Obligations.OnlyInitConfigures :=
  fun _ _ _ hi h => (inputView_eq_iff.mp (exec_inputView hi h)).1

end Sys2Proof.Machine

/-! PROOFS. INIT, power-on reset and the codes of phase and status; settles O35, O36, O46 and O57. -/

namespace Sys2Proof.Machine

theorem execInit_of_idle {s : State} (hb : s.busy = none) (ord : Order) (w : BitVec 4) :
    execInit ord w s = .next (if legalLitWidth w then (s.startStream ord w.toNat).respond (.status .ok)
      else s.failStream.respond (.status .badLitWidth)) := by
  simp [execInit, whenIdle, hb]

/-- Settles O35: a legal INIT is `State.startStream` and the response OK. -/
theorem initCompletes : Obligations.InitCompletes := by
  intro s ord w hb hlo hhi
  have hw : legalLitWidth w = true := decide_eq_true ⟨hlo, hhi⟩
  refine ⟨(s.startStream ord w.toNat).respond (.status .ok), ?_, ?_⟩
  · exact (execInit_of_idle hb ord w).trans (by rw [hw, if_pos rfl])
  · simp [Memory.read, SameAgents]

/-- Settles O36: an INIT with any other litWidth is `State.failStream` and the response BAD_LITWIDTH. -/
theorem initFailureCompletes : Obligations.InitFailureCompletes := by
  intro s ord w hb hout
  have hw : ¬ legalLitWidth w = true := fun h => by have := of_decide_eq_true h; omega
  refine ⟨s.failStream.respond (.status .badLitWidth), ?_, ?_⟩
  · exact (execInit_of_idle hb ord w).trans (by rw [if_neg hw])
  · simp [SameAgents]

/-- Settles O46: after reset the block is idle and not configured, and no array has an entry. -/
theorem resetHasInv : Obligations.ResetHasInv where
  widths := by constructor <;> decide
  arrays := ⟨rfl, rfl, rfl, rfl, rfl⟩
  cond := rfl
  queue := ⟨le_rfl, Nat.zero_le _, listed_empty _ le_rfl⟩
  idle _ := rfl
  pass hb := nomatch hb
  stream hl := nomatch hl

/-- Settles O57, by the two tables of codes. -/
theorem phaseAndStatusCodes : Obligations.PhaseAndStatusCodes := ⟨rfl, rfl⟩

end Sys2Proof.Machine

/-! PROOFS. From a state with the invariant no step ends in a fault (R42, R46, R106, R111): where each operation of a step
succeeds, from the deliveries up to the codes and commands; settles O47. -/

namespace Sys2Proof.Machine

/-! ## Outcomes without a fault -/

section Outcomes
variable {s : State} {r : Except Fault State} {k : Host.Outcome State Fault Refusal}

theorem noFault_finish (h : ∃ t, r = .ok t) : NoFault (finish r) := by
  obtain ⟨t, rfl⟩ := h
  exact nofun

theorem noFault_whenIdle (h : NoFault k) : NoFault (whenIdle s k) := by
  unfold whenIdle
  split
  · exact nofun
  · exact h

end Outcomes

/-! ## Where the operations of a code's step succeed -/

section Operations
variable {s : State} {n : BitVec 16} {code v : Nat}

/-- A queue inside OUT can be delivered (R42, R136). -/
theorem readLoop_ok (h : s.pendEnd ≤ Config.outSize) : ∃ t, readLoop n s = .ok t := by
  unfold readLoop
  split
  · have hk : deliverCount s n ≤ s.pendEnd - s.pendPos := Nat.min_le_right _ _
    obtain ⟨bs, hbs⟩ : ∃ bs, outWindow s s.pendPos (deliverCount s n) = .ok bs := outWindow_ok (by omega)
    exact ⟨_, by rw [deliver, hbs]⟩
  · split <;> exact ⟨_, rfl⟩

theorem endPass_ok (h : s.o ≤ Config.outSize) : ∃ t, endPass s = .ok t := by
  unfold endPass
  split
  · exact readLoop_ok (s := s.flush) h
  · exact ⟨_, rfl⟩

theorem flushCheck_ok (h : s.o ≤ Config.outSize) : ∃ t, flushCheck s = .ok t := by
  unfold flushCheck
  split
  · exact endPass_ok h
  · exact ⟨_, rfl⟩

/-- The trailer raises the internal fault only above overflow (R106). -/
theorem trailer_ok (h : s.hi < s.overflow) : ∃ t, trailer code s = .ok t := by
  have hnot : ¬ (s.setLast code).bumpHi.overflow < (s.setLast code).bumpHi.hi := Nat.not_lt.mpr h
  unfold trailer growthCheck
  rw [if_neg hnot]
  split
  · split <;> exact ⟨_, rfl⟩
  · exact ⟨_, rfl⟩

theorem endStep_ok (hhi : s.hi < s.overflow) (ho : s.o ≤ Config.outSize) : ∃ t, endStep code s = .ok t := by
  obtain ⟨u, hu⟩ : ∃ u, trailer code s.setDecoding = .ok u := trailer_ok hhi
  have hou : u.o = s.o := by obtain ⟨_, _, _, _, _, _, -, rfl⟩ := trailer_setDecoding_frame hu; rfl
  obtain ⟨t, ht⟩ := flushCheck_ok (hou.trans_le ho)
  exact ⟨t, by rw [endStep, hu]; exact ht⟩

/-- The seal and the end of the step: all of a code's step behind its output (R97). -/
theorem sealThenEnd_ok (v code : Nat) (hhi : s.hi < s.overflow) (htable : s.hi < Config.tableSize)
    (ho : s.o ≤ Config.outSize) : ∃ u t, sealEntry v s = .ok u ∧ endStep code u = .ok t := by
  have hu := sealEntry_ok (v := v) (s := s) fun _ => htable
  obtain ⟨t, ht⟩ : ∃ t, endStep code (if s.lastValid then (s.putSuf s.hi v).putPre s.hi s.last else s) = .ok t := by
    split <;> exact endStep_ok hhi ho
  exact ⟨_, t, hu, ht⟩

theorem literalStep_ok (hhi : s.hi < s.overflow) (htable : s.hi < Config.tableSize) (ho : s.o < Config.outSize) :
    ∃ t, literalStep code s = .ok t := by
  obtain ⟨u, t, hu, ht⟩ := sealThenEnd_ok (s := (s.putOut s.o code).advanceO 1) code code hhi htable ho
  have hout : outWrite s s.o code = .ok (s.putOut s.o code) := outWrite_eq_ok.mpr ⟨ho, rfl⟩
  exact ⟨t, by simp only [literalStep, putByte, hout, hu, ht]⟩

end Operations

/-! ## Where an expansion succeeds -/

section Expansion
variable {s : State} {fuel c i n src dst code : Nat}

/-- SUF and PRE have an entry of the current epoch for every code of a chain above the literals (R33(c), R46). -/
def Readable (s : State) : Prop :=
  ∀ c, Chained s c → s.clear ≤ c → (∃ b, sufRead s c = .ok b) ∧ ∃ p, preRead s c = .ok p

theorem StreamOk.tableEnd_le (h : StreamOk s) : tableEnd s ≤ Config.tableSize := by
  obtain ⟨-, hhi, -⟩ := h.table_lt
  simp only [tableEnd, Config.tableSize]
  split
  · omega
  · split <;> omega

theorem StreamOk.readable (h : StreamOk s) : Readable s := by
  intro c hc hle
  obtain ⟨h₁, h₂⟩ : s.clear + 2 ≤ c ∧ c < tableEnd s := hc.resolve_left (Nat.not_lt.mpr hle)
  have hlt : c < Config.tableSize := h₂.trans_le h.tableEnd_le
  obtain ⟨hsf, hpf, ⟨b, hb⟩, p, hp, -⟩ := h.table c h₁ h₂
  exact ⟨⟨b, sufRead_eq_ok.mpr ⟨hlt, hsf, hb⟩⟩, p, preRead_eq_ok.mpr ⟨hlt, hpf, hp⟩⟩

theorem walk_literal (hc : c < s.clear) (hi : i < Config.outSize) :
    walk fuel c i s = .ok (c, i, s.putOut i c) := by
  have hout : outWrite s i c = .ok (s.putOut i c) := outWrite_eq_ok.mpr ⟨hi, rfl⟩
  cases fuel <;> simp only [walk, if_pos hc, hout]

theorem walk_entry {b : Byte} {p : Code} (hc : s.clear ≤ c) (hi : i < Config.outSize) (hb : sufRead s c = .ok b)
    (hp : preRead s c = .ok p) : walk (fuel + 1) c i s = walk fuel p.toNat (i - 1) (s.putOut i b.toNat) := by
  have hout : outWrite s i b.toNat = .ok (s.putOut i b.toNat) := outWrite_eq_ok.mpr ⟨hi, rfl⟩
  have hp' : preRead (s.putOut i b.toNat) c = .ok p := hp
  simp only [walk, if_neg (Nat.not_lt.mpr hc), hb, hout, hp']

/-- The walk of a chain ends, inside OUT: every entry reads, and the codes descend, so the fuel lasts (R111, R117). -/
theorem walk_ok (hd : Descends s) (hr : Readable s) (hc : Chained s c) (hf : c ≤ fuel) (hi : i < Config.outSize) :
    ∃ head top t, walk fuel c i s = .ok (head, top, t) ∧ top < Config.outSize := by
  induction fuel generalizing c i s with
  | zero =>
    have hlit : c < s.clear := hc.resolve_right fun ⟨h, _⟩ => by omega
    exact ⟨_, _, _, walk_literal hlit hi, hi⟩
  | succ fuel ih =>
    rcases Nat.lt_or_ge c s.clear with hlit | hle
    · exact ⟨_, _, _, walk_literal hlit hi, hi⟩
    · obtain ⟨⟨b, hb⟩, p, hp⟩ := hr c hc hle
      obtain ⟨hlt, hcp⟩ := hd c p hc hle hp
      rw [walk_entry hle hi hb hp]
      exact ih (s := s.putOut i b.toNat) hd hr hcp (by omega) (by omega)

/-- HEAD ends on every chain (R111, R118). -/
theorem headOf_ok (hd : Descends s) (hr : Readable s) (hc : Chained s c) (hf : c ≤ fuel) :
    ∃ head, headOf s fuel c = .ok head := by
  induction fuel generalizing c with
  | zero =>
    have hlit : c < s.clear := hc.resolve_right fun ⟨h, _⟩ => by omega
    exact ⟨c, by rw [headOf, if_pos hlit]⟩
  | succ fuel ih =>
    rcases Nat.lt_or_ge c s.clear with hlit | hle
    · exact ⟨c, by rw [headOf, if_pos hlit]⟩
    · obtain ⟨-, p, hp⟩ := hr c hc hle
      obtain ⟨hlt, hcp⟩ := hd c p hc hle hp
      simp only [headOf, if_neg (Nat.not_lt.mpr hle), hp]
      exact ih hcp (by omega)

/-- A copy between ranges inside OUT succeeds (R42, R122). -/
theorem copyUp_ok (hsrc : src + n ≤ Config.outSize) (hdst : dst + n ≤ Config.outSize) :
    ∃ t, copyUp n src dst s = .ok t := by
  induction n generalizing src dst s with
  | zero => exact ⟨s, rfl⟩
  | succ n ih =>
    have hread : outRead s src = .ok (outByte s src) := outRead_eq_ok.mpr ⟨by omega, rfl⟩
    have hwrite : outWrite s dst (outByte s src).toNat = .ok (s.putOut dst (outByte s src).toNat) :=
      outWrite_eq_ok.mpr ⟨by omega, rfl⟩
    simp only [copyUp, hread, hwrite]
    exact ih (by omega) (by omega)

/-- What the table gives the end of a code's step: hi is below overflow and inside the arrays (R33, R38). -/
theorem StreamOk.hi_lt (h : StreamOk s) : s.hi < s.overflow ∧ s.hi < Config.tableSize :=
  ⟨h.hi.2, h.table_lt.2.1⟩

/-- DICT and KWKWK's common part: the walk starts i short of the end of OUT, and the bytes it writes fit behind o (R128). -/
theorem StreamOk.expandStep_ok (h : StreamOk s) (ho : s.o ≤ 4095) (hc : Chained s c) (hi : i < Config.outSize)
    (hlen : Config.outSize - i + (c - (s.clear + 1)) ≤ 4091) : ∃ t, expandStep code c i s = .ok t := by
  have hf : c ≤ chainFuel := by
    have := h.clear_bounds
    have := h.tableEnd_le
    have : chainFuel = Config.tableSize := rfl
    have : Config.tableSize = 4096 := rfl
    unfold Chained at hc
    omega
  obtain ⟨head, top, s₁, hwalk, htop⟩ := walk_ok h.descends h.readable hc hf hi
  have hbelow := walk_top h.descends hc hwalk
  obtain ⟨m₁, rfl⟩ := walk_frame hwalk
  have hfit : s.o + (Config.outSize - top) ≤ Config.outSize := by
    have : Config.outSize = 8192 := rfl
    omega
  obtain ⟨s₂, hcopy⟩ : ∃ s₂, copyUp (Config.outSize - top) top (s.withOut m₁).o (s.withOut m₁) = .ok s₂ :=
    copyUp_ok (by omega) hfit
  obtain ⟨m₂, rfl⟩ := copyUp_frame hcopy
  have hasm : assembleTail top (s.withOut m₁) =
      .ok (((s.withOut m₁).withOut m₂).advanceO (Config.outSize - top)) := by
    rw [assembleTail, hcopy]
  obtain ⟨hov, htable⟩ := h.hi_lt
  obtain ⟨u, t, hu, ht⟩ := sealThenEnd_ok
    (s := ((s.withOut m₁).withOut m₂).advanceO (Config.outSize - top)) head code hov htable hfit
  exact ⟨t, by simp only [expandStep, hwalk, hasm, hu, ht]⟩

/-- DICT of a code that is not KWKWK's (R115). -/
theorem MidCode.dictStep_ok (h : MidCode s) (ho : s.o ≤ 4095) (hr : Recordable s code)
    (hn : ¬ (code = s.hi ∧ s.lastValid = true)) : ∃ t, dictStep code s = .ok t := by
  have hcode : code < 4096 := hr.1.trans_lt h.stream.table_lt.2.1
  have hclear := h.stream.clear_bounds
  exact h.stream.expandStep_ok ho (h.stream.chained hr hn) (by decide) (by simp only [Config.outSize]; omega)

/-- KWKWK with a last code (R116). -/
theorem MidCode.kwkwkStep_ok (h : MidCode s) (ho : s.o ≤ 4095) (hl : s.lastValid = true) :
    ∃ t, kwkwkStep code s = .ok t := by
  obtain ⟨-, hlast, hne⟩ := h.stream.valid hl
  have hhi := h.stream.table_lt.2.1
  have hclear := h.stream.clear_bounds
  have hc : Chained s s.last := h.stream.chained ⟨hlast.le, hne⟩ fun ⟨heq, _⟩ => hlast.ne heq
  obtain ⟨v, hv⟩ := headOf_ok h.stream.descends h.stream.readable hc (fuel := chainFuel) (hlast.trans hhi).le
  have hout : outWrite s (Config.outSize - 1) v = .ok (s.putOut (Config.outSize - 1) v) :=
    outWrite_eq_ok.mpr ⟨by decide, rfl⟩
  have hput : MidCode (s.putOut (Config.outSize - 1) v) := h.putOut v (by decide)
  simp only [kwkwkStep, hv, hout]
  exact hput.stream.expandStep_ok ho hc (by decide)
    (by simp only [Config.outSize, State.putOut_clear, State.putOut_last]; omega)

end Expansion

/-! ## The steps of the block -/

section Steps
variable {s : State}

/-- A condition that ends the pass raises no fault: what is flushed lies inside OUT (R98, R127). -/
theorem noFault_terminate (ho : s.o ≤ 4095) (c : Status) (e : Option SrcErr) :
    NoFault (finish (endPass (s.terminate c e))) :=
  noFault_finish (endPass_ok (s := s.terminate c e) (ho.trans (by decide)))

/-- One Fetch transaction (R86, R91). -/
theorem noFault_fetchByte (ho : s.o ≤ 4095) : NoFault (fetchByte s) := by
  rcases fetchByte_cases s with ⟨-, hf⟩ | ⟨a, rest, -, ⟨b, -, hf⟩ | ⟨-, hf⟩ | ⟨e, -, hf⟩ | ⟨-, hf⟩⟩ <;> rw [hf]
  · exact nofun
  · exact nofun
  · exact noFault_terminate (s := s.answered .endOfInput rest) ho _ _
  · exact noFault_terminate (s := s.answered (.err e) rest) ho _ _
  · exact nofun

/-- The meaning of a classified code (R62, R97). -/
theorem MidCode.noFault_exec_classify (h : MidCode s) (ho : s.o ≤ 4095) (code : Code) :
    NoFault (exec (classify s.codeCtx code) s) := by
  obtain ⟨hov, htable⟩ := h.stream.hi_lt
  unfold classify State.codeCtx
  split
  case isTrue => exact noFault_finish (literalStep_ok hov htable (ho.trans_lt (by decide)))
  case isFalse hlt =>
    split
    case isTrue => exact nofun
    case isFalse hnc =>
      split
      case isTrue => exact noFault_terminate ho _ _
      case isFalse hne =>
        split
        case isTrue hle =>
          split
          case isTrue hk => exact noFault_finish (h.kwkwkStep_ok ho hk.2)
          case isFalse hk => exact noFault_finish (h.dictStep_ok ho ⟨hle, hnc, hne⟩ hk)
        case isFalse => exact noFault_terminate ho _ _

/-- Every command but READ answers at once, and READ delivers a queue that lies inside OUT (R29, R132, R136). -/
theorem noFault_exec_decodeCommand (hq : s.pendEnd ≤ 8186) (w : CmdWord) : NoFault (exec (decodeCommand w) s) := by
  unfold decodeCommand
  split
  · exact noFault_whenIdle nofun
  · split
    · refine noFault_whenIdle ?_
      split
      · exact nofun
      · exact noFault_finish (readLoop_ok (hq.trans (by decide)))
    · split <;> exact noFault_whenIdle nofun

end Steps

/-- Settles O47: with the invariant a Fetch and a command succeed, and EXTRACT leaves `MidCode`, from which every code
succeeds. -/
theorem invStepNeverFaults : Obligations.InvStepNeverFaults := by
  intro s h
  rcases step_cases s with ⟨_, _, -, hs⟩ | ⟨-, ⟨hb, -, hs⟩ | ⟨hb, hn, hs⟩ | ⟨-, w, rest, -, hs⟩ | ⟨-, -, hs⟩⟩ <;> rw [hs]
  · exact nofun
  · exact noFault_fetchByte (h.pass hb).o
  · exact (h.midCode_dropCode hb (Nat.le_of_not_lt (of_decide_eq_false hn))).noFault_exec_classify (h.pass hb).o _
  · exact noFault_exec_decodeCommand (s := s.takeCommand w rest) h.queue.bound w
  · exact nofun

end Sys2Proof.Machine

/-! PROOFS. Every instruction keeps SUF, PRE and OUT canonical and inside their spaces (R38, R43), and an entry of an old
epoch or of none is not read (R46); settles O48 and O33. -/

namespace Sys2Proof.Machine

section Arrays
variable {s t out u : State} {n : BitVec 16} {code c i v : Nat}

theorem ArraysOk.putOut (h : ArraysOk s) (v : Nat) (hi : i < Config.outSize) : ArraysOk (s.putOut i v) :=
  { h with out := Memory.wf_write _ hi h.out }

theorem ArraysOk.readLoop (h : ArraysOk s) (ht : readLoop n s = .ok t) : ArraysOk t := by
  rcases readLoop_cases ht with ⟨-, hd⟩ | ⟨-, -, rfl⟩ | ⟨-, -, rfl⟩
  · obtain ⟨_, -, rfl⟩ := deliver_cases hd
    exact { h with }
  · exact { h with }
  · exact { h with }

theorem ArraysOk.endPass (h : ArraysOk s) (ht : endPass s = .ok t) : ArraysOk t := by
  have hflush : ArraysOk s.flush := { h with }
  rcases endPass_cases ht with ⟨_, -, hr⟩ | ⟨-, rfl⟩
  · exact hflush.readLoop hr
  · exact hflush

theorem ArraysOk.sealEntry (h : ArraysOk s) (hu : sealEntry v s = .ok u) : ArraysOk u := by
  rcases sealEntry_cases hu with ⟨-, hhi, rfl⟩ | ⟨-, rfl⟩
  · exact arraysOk_seal h hhi v
  · exact h

theorem ArraysOk.endStep (h : ArraysOk s) (ht : endStep code s = .ok t) : ArraysOk t := by
  obtain ⟨u, hu, hf⟩ := endStep_cases ht
  have hau : ArraysOk u := by
    obtain ⟨_, _, _, _, _, _, -, rfl⟩ := trailer_setDecoding_frame hu
    exact { h with }
  rcases flushCheck_cases hf with ⟨-, he⟩ | ⟨-, rfl⟩
  · exact hau.endPass he
  · exact hau

theorem ArraysOk.literalStep (h : ArraysOk s) (ht : literalStep code s = .ok t) : ArraysOk t := by
  obtain ⟨ho, u, hu, he⟩ := literalStep_cases ht
  have hout : ArraysOk ((s.putOut s.o code).advanceO 1) := { h.putOut code ho with }
  exact (hout.sealEntry hu).endStep he

/-- The walk and the copy write OUT only, and only inside it. -/
theorem ArraysOk.expandStep (h : ArraysOk s) (ht : expandStep code c i s = .ok t) : ArraysOk t := by
  obtain ⟨head, top, s₁, s₂, u, hw, hcopy, hu, he⟩ := expandStep_steps ht
  have hput : ∀ s i v, i < Config.outSize → ArraysOk s → ArraysOk (s.putOut i v) := fun _ _ v hi h => h.putOut v hi
  have h₂ : ArraysOk s₂ := copyUp_preserves hput hcopy (walk_preserves hput hw h)
  have hout : ArraysOk (s₂.advanceO (Config.outSize - top)) := { h₂ with }
  exact (hout.sealEntry hu).endStep he

theorem ArraysOk.kwkwkStep (h : ArraysOk s) (ht : kwkwkStep code s = .ok t) : ArraysOk t := by
  obtain ⟨v, ht⟩ := kwkwkStep_steps ht
  exact (h.putOut v (by decide)).expandStep ht

theorem ArraysOk.terminate (h : ArraysOk s) (c : Status) (e : Option SrcErr) : ArraysOk (s.terminate c e) := { h with }

end Arrays

/-- Settles O48, by the operation each instruction runs. -/
theorem execKeepsArrays : Obligations.ExecKeepsArrays := by
  intro i s t h ht
  cases i with
  | literal b => exact h.literalStep (finish_eq_next.mp ht)
  | clear => cases ht; exact { h with sufFresh := rfl, preFresh := rfl }
  | eof => exact (h.terminate .eof none).endPass (finish_eq_next.mp ht)
  | kwkwk code => exact h.kwkwkStep (finish_eq_next.mp ht)
  | dict code => exact h.expandStep (finish_eq_next.mp ht)
  | invalid _ => exact (h.terminate .invalidCode none).endPass (finish_eq_next.mp ht)
  | init ord w =>
    obtain ⟨-, ht⟩ := whenIdle_eq_next.mp ht
    split at ht <;> cases ht
    · exact ⟨rfl, rfl, rfl, rfl, rfl⟩
    · exact { h with }
  | read n =>
    obtain ⟨-, ht⟩ := whenIdle_eq_next.mp ht
    split at ht
    · cases ht; exact { h with }
    · exact h.readLoop (finish_eq_next.mp ht)
  | close => obtain ⟨-, ht⟩ := whenIdle_eq_next.mp ht; cases ht; exact { h with }
  | reserved _ => obtain ⟨-, ht⟩ := whenIdle_eq_next.mp ht; cases ht; exact { h with }

/-- A slot of SUF that the current epoch has not written does not read (R46, I2). -/
theorem sufRead_unwritten {s : State} {c : Nat} (hc : c < Config.tableSize) (hn : c ∉ s.sufFresh) :
    sufRead s c = .error .unwrittenEntry := by
  rw [sufRead, if_neg (Nat.not_le.mpr hc), if_neg (by simpa using hn)]

/-- A walk from a code above the literals begins with a read of SUF (R117). -/
theorem walk_sufRead_error {s : State} {fuel c i : Nat} {f : Fault} (hc : s.clear ≤ c) (hr : sufRead s c = .error f) :
    walk (fuel + 1) c i s = .error f := by
  simp only [walk, if_neg (Nat.not_lt.mpr hc), hr]

/-- Settles O33: DICT's walk reads the slot first. -/
theorem unwrittenEntryFaults : Obligations.UnwrittenEntryFaults := by
  intro s code hc hn
  have hread : sufRead s code.toNat = .error .unwrittenEntry := sufRead_unwritten code.isLt hn
  have hwalk : walk chainFuel code.toNat (Config.outSize - 1) s = .error .unwrittenEntry :=
    walk_sufRead_error (fuel := Config.tableSize - 1) hc hread
  have hstep : dictStep code.toNat s = .error .unwrittenEntry := by simp only [dictStep, expandStep, hwalk]
  exact congrArg finish hstep

end Sys2Proof.Machine

/-! PROOFS. The accumulator, bytes and codes as stream bits (R47, R48): INSERT appends, EXTRACT takes; settles O7 and O8. -/

namespace Sys2Proof.Machine

/-- Bit j, in stream order, of a value `w` bits wide: from the least significant up in LSB order (R47), from the most
significant down in MSB order (R48). -/
def orderedBit {m : Nat} (ord : Order) (w : Nat) (v : BitVec m) (j : Nat) : Bool :=
  match ord with
  | .lsb => v.getLsbD j
  | .msb => v.getLsbD (w - 1 - j)

section StreamOrder
variable (ord : Order) {bits : AccWord} {n w j : Nat}

theorem accBits_eq (bits : AccWord) (n : Nat) : accBits ord bits n = (List.range n).map (orderedBit ord 32 bits) := by
  cases ord <;> rfl

theorem byteBits_eq (b : Byte) : byteBits ord b = (List.range 8).map (orderedBit ord 8 b) := by
  cases ord <;> rfl

theorem codeBits_eq (w : Nat) (code : Code) : codeBits ord w code = (List.range w).map (orderedBit ord w code) := by
  cases ord <;> rfl

variable {ord}

/-- The bits behind the valid ones are 0 (R20, R93). -/
theorem AccOk.orderedBit_eq_false (h : AccOk ord bits n) (hn : n ≤ j) (hj : j < 32) : orderedBit ord 32 bits j = false := by
  cases ord with
  | lsb => exact Nat.testBit_lt_two_pow (h.trans_le (Nat.pow_le_pow_right Nat.two_pos hn))
  | msb =>
    have hmod : (bits.toNat % 2 ^ (32 - n)).testBit (32 - 1 - j) = false := by
      rw [show bits.toNat % 2 ^ (32 - n) = 0 from h, Nat.zero_testBit]
    rw [Nat.testBit_mod_two_pow] at hmod
    simpa [orderedBit, BitVec.getLsbD, show 31 - j < 32 - n by omega] using hmod

/-- INSERT leaves the valid bits (R87, R88). -/
theorem orderedBit_insertBits_valid (b : Byte) (hn : n ≤ 24) (hj : j < n) :
    orderedBit ord 32 (insertBits ord bits n b) j = orderedBit ord 32 bits j := by
  cases ord with
  | lsb => simp [orderedBit, insertBits, hj]
  | msb =>
    have hb : b.getLsbD (31 - j - (24 - n)) = false := b.getLsbD_of_ge _ (by omega)
    simp [orderedBit, insertBits, hb]

/-- INSERT puts the byte's bits behind the valid ones, where the accumulator was 0 (R87, R88). -/
theorem orderedBit_insertBits_byte (h : AccOk ord bits n) (b : Byte) (hn : n ≤ 24) (hj : j < 8) :
    orderedBit ord 32 (insertBits ord bits n b) (n + j) = orderedBit ord 8 b j := by
  have hz : orderedBit ord 32 bits (n + j) = false := h.orderedBit_eq_false (by omega) (by omega)
  cases ord with
  | lsb =>
    have hz : bits.getLsbD (n + j) = false := hz
    have hlt : n + j < 32 ∧ j < 32 := by omega
    simp [-BitVec.getLsbD_eq_getElem, orderedBit, insertBits, hz, hlt]
  | msb =>
    have hz : bits.getLsbD (31 - (n + j)) = false := hz
    have hpos : 31 - (n + j) - (24 - n) = 7 - j := by omega
    have hlt : 31 - (n + j) < 32 ∧ ¬ 31 - (n + j) < 24 - n ∧ 7 - j < 32 := by omega
    simp [-BitVec.getLsbD_eq_getElem, orderedBit, insertBits, hz, hpos, hlt]

/-- EXTRACT's code is the first `w` bits (R89, R90). -/
theorem orderedBit_extractCode (bits : AccWord) (hw : w ≤ 12) (hj : j < w) :
    orderedBit ord w (extractCode ord bits w) j = orderedBit ord 32 bits j := by
  have hj' : j < 12 ∧ j < 32 := by omega
  cases ord with
  | lsb => simp [orderedBit, extractCode, BitVec.getLsbD_ofNat, Nat.testBit_two_pow_sub_one, hj, hj']
  | msb =>
    have hpos : 32 - w + (w - 1 - j) = 31 - j := by omega
    have hlt : w - 1 - j < 12 := by omega
    simp [orderedBit, extractCode, hpos, hlt]

/-- EXTRACT moves the bits behind the code to the front (R89, R90). -/
theorem orderedBit_extractRest (bits : AccWord) (hj : w + j < 32) :
    orderedBit ord 32 (extractRest ord bits w) j = orderedBit ord 32 bits (w + j) := by
  cases ord with
  | lsb => simp [orderedBit, extractRest]
  | msb =>
    have hpos : 31 - j - w = 31 - (w + j) := by omega
    have hlt : 31 - j < 32 ∧ ¬ 31 - j < w := by omega
    simp [-BitVec.getLsbD_eq_getElem, orderedBit, extractRest, hpos, hlt]

end StreamOrder

/-- Settles O7: the valid bits stay, and the 8 positions behind them hold the byte's bits. -/
theorem insertAppendsByteBits : Obligations.InsertAppendsByteBits := by
  intro ord bits n b hn h
  have hvalid : ∀ j ∈ List.range n, orderedBit ord 32 (insertBits ord bits n b) j = orderedBit ord 32 bits j :=
    fun j hj => orderedBit_insertBits_valid b hn (List.mem_range.mp hj)
  have hbyte : ∀ j ∈ List.range 8, orderedBit ord 32 (insertBits ord bits n b) (n + j) = orderedBit ord 8 b j :=
    fun j hj => orderedBit_insertBits_byte h b hn (List.mem_range.mp hj)
  rw [accBits_eq, accBits_eq, byteBits_eq, List.range_add, List.map_append, List.map_map]
  exact congrArg₂ _ (List.map_congr_left hvalid) (List.map_congr_left hbyte)

/-- Settles O8: the first `width` valid bits are the code's, and the others move to the front. -/
theorem extractTakesCodeBits : Obligations.ExtractTakesCodeBits := by
  intro ord bits n w hw hwn hn
  obtain ⟨k, rfl⟩ := Nat.exists_eq_add_of_le hwn
  have hcode : ∀ j ∈ List.range w, orderedBit ord w (extractCode ord bits w) j = orderedBit ord 32 bits j :=
    fun j hj => orderedBit_extractCode bits hw (List.mem_range.mp hj)
  have hrest : ∀ j ∈ List.range k, orderedBit ord 32 (extractRest ord bits w) j = orderedBit ord 32 bits (w + j) :=
    fun j hj => orderedBit_extractRest bits (by have := List.mem_range.mp hj; omega)
  have hlen : ((List.range w).map (orderedBit ord 32 bits)).length = w := by simp
  rw [Nat.add_sub_cancel_left, accBits_eq, accBits_eq, codeBits_eq, List.range_add, List.map_append, List.map_map,
    List.take_left' hlen, List.drop_left' hlen]
  exact ⟨List.map_congr_left hcode, List.map_congr_left hrest⟩

end Sys2Proof.Machine

/-! PROOFS. Codes and command words: the classification of a code (R62), the fields of a command word (R73 to R77), decoding
against encoding; settles O2, O3, O4, O5, O6 and O1. -/

namespace Sys2Proof

/-! ## The classification of codes (R62): an equation for each class, and the case split -/

section Classification
variable {c : CodeCtx} {code : Code}

theorem classify_literal (h : code.toNat < c.clear) : classify c code = .literal (code.setWidth 8) := by
  rw [classify, if_pos h]

theorem classify_clear (h : code.toNat = c.clear) : classify c code = .clear := by
  rw [classify, if_neg h.not_lt, if_pos h]

/-- Above CLEAR the tests that are left: EOF, hi and last_valid. -/
theorem classify_above_clear (h : c.clear < code.toNat) :
    classify c code = if code.toNat = c.eof then .eof
      else if code.toNat ≤ c.hi then
        if code.toNat = c.hi ∧ c.lastValid = true then .kwkwk code else .dict code
      else .invalid code := by
  rw [classify, if_neg h.not_gt, if_neg h.ne']

theorem classify_eof (h : c.clear < code.toNat) (he : code.toNat = c.eof) : classify c code = .eof := by
  rw [classify_above_clear h, if_pos he]

theorem classify_kwkwk (h : c.clear < code.toNat) (he : code.toNat ≠ c.eof)
    (hk : code.toNat = c.hi ∧ c.lastValid = true) : classify c code = .kwkwk code := by
  rw [classify_above_clear h, if_neg he, if_pos hk.1.le, if_pos hk]

theorem classify_dict (h : c.clear < code.toNat) (he : code.toNat ≠ c.eof) (hle : code.toNat ≤ c.hi)
    (hk : ¬ (code.toNat = c.hi ∧ c.lastValid = true)) : classify c code = .dict code := by
  rw [classify_above_clear h, if_neg he, if_pos hle, if_neg hk]

theorem classify_invalid (h : c.clear < code.toNat) (he : code.toNat ≠ c.eof) (hhi : c.hi < code.toNat) :
    classify c code = .invalid code := by
  rw [classify_above_clear h, if_neg he, if_neg (Nat.not_le.mpr hhi)]

/-- The class of a code, with what its value meets. -/
theorem classify_cases (c : CodeCtx) (code : Code) :
    (code.toNat < c.clear ∧ classify c code = .literal (code.setWidth 8)) ∨
    (code.toNat = c.clear ∧ classify c code = .clear) ∨
    (c.clear < code.toNat ∧ code.toNat = c.eof ∧ classify c code = .eof) ∨
    (c.clear < code.toNat ∧ code.toNat ≠ c.eof ∧ (code.toNat = c.hi ∧ c.lastValid = true) ∧
      classify c code = .kwkwk code) ∨
    (c.clear < code.toNat ∧ code.toNat ≠ c.eof ∧ code.toNat ≤ c.hi ∧ ¬ (code.toNat = c.hi ∧ c.lastValid = true) ∧
      classify c code = .dict code) ∨
    (c.clear < code.toNat ∧ code.toNat ≠ c.eof ∧ c.hi < code.toNat ∧ classify c code = .invalid code) := by
  rcases Nat.lt_trichotomy code.toNat c.clear with h | h | h
  · exact .inl ⟨h, classify_literal h⟩
  · exact .inr (.inl ⟨h, classify_clear h⟩)
  refine .inr (.inr ?_)
  by_cases he : code.toNat = c.eof
  · exact .inl ⟨h, he, classify_eof h he⟩
  by_cases hk : code.toNat = c.hi ∧ c.lastValid = true
  · exact .inr (.inl ⟨h, he, hk, classify_kwkwk h he hk⟩)
  rcases Nat.lt_or_ge c.hi code.toNat with hhi | hle
  · exact .inr (.inr (.inr ⟨h, he, hhi, classify_invalid h he hhi⟩))
  · exact .inr (.inr (.inl ⟨h, he, hle, hk, classify_dict h he hle hk⟩))

theorem classify_ne_literal (h : c.clear ≤ code.toNat) (b : Byte) : classify c code ≠ .literal b := by
  rcases classify_cases c code with ⟨h', -⟩ | ⟨-, hi⟩ | ⟨-, -, hi⟩ | ⟨-, -, -, hi⟩ | ⟨-, -, -, -, hi⟩ | ⟨-, -, -, hi⟩
  · exact absurd h' h.not_gt
  all_goals rw [hi]; nofun

theorem classify_ne_invalid (h : code.toNat ≤ c.hi) (code' : Code) : classify c code ≠ .invalid code' := by
  rcases classify_cases c code with ⟨-, hi⟩ | ⟨-, hi⟩ | ⟨-, -, hi⟩ | ⟨-, -, -, hi⟩ | ⟨-, -, -, -, hi⟩ | ⟨-, -, h', -⟩
  case inr.inr.inr.inr.inr => exact absurd h' h.not_gt
  all_goals rw [hi]; nofun

/-! ### In a legal context -/

theorem CodeCtx.legal_iff : c.legal = true ↔ 4 ≤ c.clear ∧ c.clear ≤ 256 ∧ c.eof = c.clear + 1 ∧
    c.width ≤ Config.maxWidth ∧ c.eof ≤ c.hi ∧ c.hi < 2 ^ c.width := decide_eq_true_iff

/-- The values of CLEAR and EOF fit a code. -/
theorem CodeCtx.toNat_ofNat_of_legal (hc : c.legal = true) :
    (BitVec.ofNat 12 c.clear).toNat = c.clear ∧ (BitVec.ofNat 12 c.eof).toNat = c.eof := by
  obtain ⟨-, h, he, -⟩ := CodeCtx.legal_iff.mp hc
  simp only [BitVec.toNat_ofNat]
  omega

theorem wellFormed_classify (hc : c.legal = true) (hv : code.toNat < 2 ^ c.width) :
    wellFormed c (classify c code) = true := by
  obtain ⟨-, -, heof, -, hle, hhi⟩ := CodeCtx.legal_iff.mp hc
  rcases classify_cases c code with
    ⟨h, hi⟩ | ⟨-, hi⟩ | ⟨-, -, hi⟩ | ⟨h, hne, hk, hi⟩ | ⟨h, hne, hd, hk, hi⟩ | ⟨-, -, h, hi⟩ <;>
    rw [hi] <;> refine decide_eq_true ?_
  · exact (BitVec.toNat_setWidth 8 code ▸ Nat.mod_le _ _).trans_lt h
  · omega
  · omega
  · exact ⟨by omega, hk.1, hk.2, hv⟩
  · exact ⟨by omega, hd, hk, hv⟩
  · exact ⟨h, hv⟩

/-- The encoding has every bit of the code: a literal's 8 bits hold all of it, since clear is at most 256. -/
theorem encode_classify (hc : c.legal = true) : encode c (classify c code) = .code c.width code := by
  obtain ⟨-, hclear, -⟩ := CodeCtx.legal_iff.mp hc
  rcases classify_cases c code with
    ⟨h, hi⟩ | ⟨h, hi⟩ | ⟨-, h, hi⟩ | ⟨-, -, -, hi⟩ | ⟨-, -, -, -, hi⟩ | ⟨-, -, -, hi⟩ <;> rw [hi]
  · have hb : (code.setWidth 8).setWidth 12 = code := by
      apply BitVec.eq_of_toNat_eq
      simp only [BitVec.toNat_setWidth]
      omega
    rw [encode, hb]
  · rw [encode, ← h, BitVec.ofNat_toNat, BitVec.setWidth_eq]
  · rw [encode, ← h, BitVec.ofNat_toNat, BitVec.setWidth_eq]
  all_goals rfl

end Classification

/-! ## Command words (R73 to R77) -/

section CommandWords

theorem decodeCommand_encodeInit (ord : Order) (lw : BitVec 4) : decodeCommand (encodeInit ord lw) = .init ord lw := by
  revert lw
  cases ord <;> decide

theorem toNat_encodeRead (n : BitVec 16) : (encodeRead n).toNat = n.toNat * 2 ^ 16 + 2 := by
  have hn : n.toNat < 2 ^ 16 := n.isLt
  have hor : n.toNat <<< 16 + 2 = n.toNat <<< 16 ||| 2 := Nat.shiftLeft_add_eq_or_of_lt (by decide) _
  simp only [encodeRead, BitVec.toNat_or, BitVec.toNat_shiftLeft, BitVec.toNat_setWidth, BitVec.toNat_ofNat]
  rw [Nat.mod_eq_of_lt (hn.trans (by decide) : n.toNat < 2 ^ 32), Nat.or_comm, ← Nat.shiftLeft_eq, hor, Nat.shiftLeft_eq,
    Nat.mod_eq_of_lt (by omega : n.toNat * 2 ^ 16 < 2 ^ 32)]

/-- READ's opcode is what R75's mask leaves of its word. -/
theorem encodeRead_and_mask (n : BitVec 16) : encodeRead n &&& 0x0000FFFF#32 = 0x00000002#32 := by
  apply BitVec.eq_of_toNat_eq
  rw [BitVec.toNat_and, toNat_encodeRead]
  exact (Nat.and_two_pow_sub_one_eq_mod _ 16).trans (by simp)

theorem extractLsb'_encodeRead (n : BitVec 16) : (encodeRead n).extractLsb' 16 16 = n := by
  have hn : n.toNat < 2 ^ 16 := n.isLt
  apply BitVec.eq_of_toNat_eq
  rw [BitVec.extractLsb'_toNat, toNat_encodeRead, Nat.shiftRight_eq_div_pow]
  omega

/-- No word has the opcodes of INIT and READ: both masks keep bits 0 to 3 and 5 to 7. -/
theorem not_init_of_read {w : CmdWord} (hr : w &&& 0x0000FFFF#32 = 0x00000002#32) :
    w &&& 0xFFFFF0EF#32 ≠ 0x00000001#32 := by
  intro hi
  have hcommon : w &&& 0xFFFFF0EF#32 &&& 0xEF#32 = w &&& 0x0000FFFF#32 &&& 0xEF#32 := by
    rw [BitVec.and_assoc, BitVec.and_assoc]
    rfl
  rw [hi, hr] at hcommon
  exact absurd hcommon (by decide)

theorem decodeCommand_encodeRead (n : BitVec 16) : decodeCommand (encodeRead n) = .read n := by
  have hr := encodeRead_and_mask n
  rw [decodeCommand, if_neg (not_init_of_read hr), if_pos hr, extractLsb'_encodeRead]

/-- The reserved words are those that fail the three tests of `decodeCommand` (R77). -/
theorem isReservedWord_iff {w : CmdWord} :
    isReservedWord w = true ↔ ¬ w &&& 0xFFFFF0EF#32 = 0x00000001#32 ∧ ¬ w &&& 0x0000FFFF#32 = 0x00000002#32 ∧
      ¬ w &&& 0xFFFFFFFF#32 = 0x00000003#32 := by
  have hw : w &&& 0xFFFFFFFF#32 = w := BitVec.and_allOnes
  rw [hw]
  simp [isReservedWord, and_assoc]

theorem decodeCommand_reserved {w : CmdWord} (h : isReservedWord w = true) : decodeCommand w = .reserved w := by
  obtain ⟨hi, hr, hc⟩ := isReservedWord_iff.mp h
  rw [decodeCommand, if_neg hi, if_neg hr, if_neg hc]

theorem orderBit_orderOfBit (b : BitVec 1) : orderBit (orderOfBit b) = b := by
  revert b
  decide

/-- A field of a word, put back at its place, is the word under the field's mask. -/
theorem shiftLeft_extractLsb' (w : CmdWord) (k m : Nat) :
    (w.extractLsb' k m).setWidth 32 <<< k = w &&& ((BitVec.allOnes m).setWidth 32 <<< k) := by
  ext j hj
  rcases Nat.lt_or_ge j k with hjk | hjk
  · simp [hjk]
  · simp [Nat.add_sub_cancel' hjk, hjk.not_gt, Bool.and_comm, BitVec.getLsbD_eq_getElem hj]

/-- INIT's mask and its two fields cover the word (R74). -/
theorem encodeInit_of_mask {w : CmdWord} (h : w &&& 0xFFFFF0EF#32 = 0x00000001#32) :
    encodeInit (orderOfBit (w.extractLsb' 4 1)) (w.extractLsb' 8 4) = w := by
  rw [encodeInit, orderBit_orderOfBit, shiftLeft_extractLsb', shiftLeft_extractLsb', ← h, ← BitVec.and_or_distrib_left,
    ← BitVec.and_or_distrib_left]
  exact BitVec.and_allOnes

/-- READ's mask and its field cover the word (R75). -/
theorem encodeRead_of_mask {w : CmdWord} (h : w &&& 0x0000FFFF#32 = 0x00000002#32) :
    encodeRead (w.extractLsb' 16 16) = w := by
  rw [encodeRead, shiftLeft_extractLsb', ← h, ← BitVec.and_or_distrib_left]
  exact BitVec.and_allOnes

end CommandWords

/-! ## The masks of LITERAL (R63) -/

section Masks
variable {code : Code} {l w : Nat}

theorem getLsbD_highMask (hl : l ≤ w) (hw : w ≤ 12) (j : Nat) :
    (BitVec.ofNat 12 ((2 ^ w - 1) - (2 ^ l - 1))).getLsbD j = decide (l ≤ j ∧ j < w) := by
  have hmask : (2 ^ w - 1) - (2 ^ l - 1) = (2 ^ (w - l) - 1) <<< l := by
    have := Nat.two_pow_pos l
    rw [Nat.shiftLeft_eq, Nat.sub_mul, ← Nat.pow_add, Nat.sub_add_cancel hl]
    omega
  rw [hmask, BitVec.getLsbD_ofNat, Nat.testBit_shiftLeft, Nat.testBit_two_pow_sub_one, ← Bool.decide_and,
    ← Bool.decide_and, decide_eq_decide]
  omega

/-- The bits from `l` up to the code's width are all 0 exactly when the code is below 2^l. -/
theorem and_highMask_eq_zero_iff (hl : l ≤ w) (hw : w ≤ 12) (hv : code.toNat < 2 ^ w) :
    code &&& BitVec.ofNat 12 ((2 ^ w - 1) - (2 ^ l - 1)) = 0#12 ↔ code.toNat < 2 ^ l := by
  have hbelow {k : Nat} (h : code.toNat < 2 ^ k) {j : Nat} (hj : k ≤ j) : code.getLsbD j = false :=
    Nat.testBit_lt_two_pow (h.trans_le (Nat.pow_le_pow_right Nat.two_pos hj))
  constructor
  · intro h
    refine Nat.lt_pow_two_of_testBit _ fun j hj => ?_
    rcases Nat.lt_or_ge j w with hjw | hjw
    · have hbit : code.getLsbD j = false := by
        simpa [-BitVec.getLsbD_eq_getElem, getLsbD_highMask hl hw, hj, hjw] using congrArg (·.getLsbD j) h
      exact hbit
    · exact hbelow hv hjw
  · intro h
    refine BitVec.eq_of_getLsbD_eq fun j _ => ?_
    rw [BitVec.getLsbD_and, getLsbD_highMask hl hw, BitVec.getLsbD_zero]
    rcases Nat.lt_or_ge j l with hj | hj
    · rw [decide_eq_false (fun hm => hj.not_ge hm.1), Bool.and_false]
    · rw [hbelow h hj, Bool.false_and]

theorem and_lowMask_eq_self (hl : l ≤ 12) (h : code.toNat < 2 ^ l) : code &&& BitVec.ofNat 12 (2 ^ l - 1) = code := by
  have hp : 2 ^ l ≤ 2 ^ 12 := Nat.pow_le_pow_right Nat.two_pos hl
  apply BitVec.eq_of_toNat_eq
  rw [BitVec.toNat_and, BitVec.toNat_ofNat, Nat.mod_eq_of_lt (by omega), Nat.and_two_pow_sub_one_of_lt_two_pow h]

end Masks

/-! ## The statements -/

/-- Settles O2: the encoding of each instruction meets the tests of its own class or word. -/
theorem decodeOfEncode : Obligations.DecodeOfEncode := by
  intro c i hc hi
  obtain ⟨hclear, heof⟩ := CodeCtx.toNat_ofNat_of_legal hc
  obtain ⟨-, -, hsucc, -, hle, -⟩ := CodeCtx.legal_iff.mp hc
  cases i with
  | literal b =>
    have hb : (b.setWidth 12).toNat < c.clear := by
      have hlt : b.toNat < c.clear := of_decide_eq_true hi
      exact (BitVec.toNat_setWidth 12 b ▸ Nat.mod_le _ _).trans_lt hlt
    exact (classify_literal hb).trans (by simp)
  | clear => exact classify_clear hclear
  | eof => exact classify_eof (by omega) heof
  | kwkwk code =>
    obtain ⟨h, hk, hl, -⟩ := of_decide_eq_true hi
    exact classify_kwkwk (by omega) h.ne' ⟨hk, hl⟩
  | dict code =>
    obtain ⟨h, hd, hk, -⟩ := of_decide_eq_true hi
    exact classify_dict (by omega) h.ne' hd hk
  | invalid code =>
    obtain ⟨h, -⟩ := of_decide_eq_true hi
    exact classify_invalid (by omega) (by omega) h
  | init ord lw => exact decodeCommand_encodeInit ord lw
  | read n => exact decodeCommand_encodeRead n
  | close => rfl
  | reserved w => exact decodeCommand_reserved hi

/-- The code an instruction is encoded as is classified as that instruction. -/
theorem classify_of_encode {c : CodeCtx} {i : Instr} {w : Nat} {v : Code} (hc : c.legal = true)
    (hi : wellFormed c i = true) (he : encode c i = .code w v) : classify c v = i := by
  have hdec := decodeOfEncode c i hc hi
  rwa [he] at hdec

/-- Settles O3: the mask of the row that a word meets and the row's fields cover the word. -/
theorem encodeOfDecodedCommand : Obligations.EncodeOfDecodedCommand := by
  intro c w
  unfold decodeCommand
  split
  case isTrue hi => exact ⟨congrArg _ (encodeInit_of_mask hi), rfl⟩
  case isFalse hi =>
    split
    case isTrue hr => exact ⟨congrArg _ (encodeRead_of_mask hr), rfl⟩
    case isFalse hr =>
      split
      case isTrue hc =>
        have hw : encodeClose = w := hc.symm.trans BitVec.and_allOnes
        exact ⟨congrArg _ hw, rfl⟩
      case isFalse hc => exact ⟨rfl, isReservedWord_iff.mpr ⟨hi, hr, hc⟩⟩

/-- Settles O4: a code is the encoding of its class, and O2 makes it the encoding of no other instruction. -/
theorem classesCoverAndExclude : Obligations.ClassesCoverAndExclude := fun _ _ hc hv =>
  ⟨wellFormed_classify hc hv, encode_classify hc, fun _ hi he => (classify_of_encode hc hi he).symm⟩

/-- Settles O5: the rule's match says that the code is below clear. -/
theorem literalMaskMatch : Obligations.LiteralMaskMatch := by
  intro c l code _ hl hlw hw hclear hv
  have hmatch := and_highMask_eq_zero_iff hlw.le hw hv
  constructor
  · intro h
    have hlt := hmatch.mp h
    rw [and_lowMask_eq_self (hl.trans (by decide)) hlt]
    exact classify_literal (hclear ▸ hlt)
  · intro h
    exact classify_ne_literal (Nat.le_of_not_lt fun hlt => h (hmatch.mpr (hclear ▸ hlt)))

/-- Settles O6: no 12-bit code is above 4095. -/
theorem fullTableHasNoInvalid : Obligations.FullTableHasNoInvalid := fun _ code code' hhi =>
  classify_ne_invalid (hhi ▸ Nat.le_of_lt_succ code.isLt) code'

/-- Settles O1, by running the decoder on each word. -/
theorem tableWordsDecode : Obligations.TableWordsDecode := ⟨rfl, rfl, rfl, rfl, rfl, rfl, rfl, rfl⟩

end Sys2Proof

/-! PROOFS. Packing stream bits into bytes (R81) and the fill loop over those bytes (R86): both keep the stream's bits;
settles O10. -/

namespace Sys2Proof.Machine

/-! ## Bytes packed from stream bits -/

section Packing
variable {ord : Order} {l part : List Bool} {j : Nat}

theorem testBit_natOfBits (l : List Bool) (j : Nat) : (natOfBits l).testBit j = l.getD j false := by
  induction l generalizing j with
  | nil => simp [natOfBits]
  | cons b bs ih =>
    cases j with
    | zero => cases b <;> simp [natOfBits, Nat.testBit_zero]
    | succ j =>
      have hhalf : natOfBits (b :: bs) / 2 = natOfBits bs := by rw [natOfBits]; split <;> omega
      rw [Nat.testBit_succ, hhalf, ih, List.getD_cons_succ]

/-- A byte in stream order holds the bits it is made of, then zeros. -/
theorem orderedBit_byteOfBits (hl : l.length ≤ 8) (hj : j < 8) :
    orderedBit ord 8 (byteOfBits ord l) j = (l ++ List.replicate (8 - l.length) false).getD j false := by
  have hofNat (k : Nat) (m : Nat) (hk : k < 8) : (BitVec.ofNat 8 m).getLsbD k = m.testBit k := by
    simp [-BitVec.getLsbD_eq_getElem, BitVec.getLsbD_ofNat, hk]
  cases ord with
  | lsb =>
    rw [orderedBit, byteOfBits, hofNat j _ hj, testBit_natOfBits]
    rcases Nat.lt_or_ge j l.length with h | h
    · rw [List.getD_append _ _ _ _ h]
    · rw [List.getD_append_right _ _ _ _ h, List.getD_replicate _ (by omega), List.getD_eq_default _ _ h]
  | msb =>
    have hlen : (l ++ List.replicate (8 - l.length) false).length = 8 := by simp; omega
    have hrev : 8 - 1 - j < (l ++ List.replicate (8 - l.length) false).reverse.length := by
      rw [List.length_reverse, hlen]; omega
    rw [orderedBit, byteOfBits, hofNat _ _ (by omega), testBit_natOfBits, List.getD_eq_getElem _ _ hrev,
      List.getElem_reverse, List.getD_eq_getElem _ _ (by omega)]
    congr 1
    omega

theorem byteBits_byteOfBits (hl : l.length ≤ 8) :
    byteBits ord (byteOfBits ord l) = l ++ List.replicate (8 - l.length) false := by
  rw [byteBits_eq]
  refine List.ext_getElem (by simp; omega) fun j h₁ h₂ => ?_
  rw [List.getElem_map, List.getElem_range, orderedBit_byteOfBits hl (by simpa using h₁), List.getD_eq_getElem _ _ h₂]

/-- Packing keeps the stream's bits and pads the last byte with zeros (R81). -/
theorem flatMap_byteBits_packBits (l : List Bool) (hp : part.length < 8) :
    ∃ k < 8, (packBits ord l part).flatMap (byteBits ord) = part ++ l ++ List.replicate k false := by
  induction l generalizing part with
  | nil =>
    cases part with
    | nil => exact ⟨0, by decide, by simp [packBits]⟩
    | cons p ps =>
      refine ⟨8 - (p :: ps).length, Nat.sub_lt (by decide) (Nat.succ_pos _), ?_⟩
      simp [packBits, byteBits_byteOfBits hp.le]
  | cons b bs ih =>
    unfold packBits
    split
    case isTrue h7 =>
      obtain ⟨k, hk, hbits⟩ := ih (part := []) (by decide)
      have hbyte : byteBits ord (byteOfBits ord (part ++ [b])) = part ++ [b] := by
        rw [byteBits_byteOfBits (by simp [h7])]; simp [h7]
      exact ⟨k, hk, by simp [hbits, hbyte]⟩
    case isFalse h7 =>
      obtain ⟨k, hk, hbits⟩ := ih (part := part ++ [b]) (by simp; omega)
      exact ⟨k, hk, by simp [hbits]⟩

end Packing

/-! ## The fill loop and EXTRACT on the stream's bits -/

section Fill
variable {ord : Order} {bits : AccWord} {n w : Nat}

/-- The bits still to be decoded, in stream order: the accumulator's valid bits, then those of the bytes (R20, R86). -/
def pendingBits (ord : Order) (bits : AccWord) (n : Nat) (bytes : List Byte) : List Bool :=
  accBits ord bits n ++ bytes.flatMap (byteBits ord)

theorem length_accBits (bits : AccWord) (n : Nat) : (accBits ord bits n).length = n := by simp [accBits_eq]

theorem length_codeBits (code : Code) (w : Nat) : (codeBits ord w code).length = w := by simp [codeBits_eq]

theorem pendingBits_insertBits (hn : n ≤ 24) (h : AccOk ord bits n) (b : Byte) (bs : List Byte) :
    pendingBits ord (insertBits ord bits n b) (n + 8) bs = pendingBits ord bits n (b :: bs) := by
  simp [pendingBits, insertAppendsByteBits ord bits n b hn h]

/-- Where enough bits come, the fill loop gathers a code and moves bits from the bytes to the accumulator only. -/
theorem fillBits_ok (hw : w ≤ 12) {bytes : List Byte} (hn : n ≤ 32) (h : AccOk ord bits n)
    (hlen : w ≤ (pendingBits ord bits n bytes).length) :
    ∃ acc m rest, fillBits ord w bits n bytes = .ok (acc, m, rest) ∧ w ≤ m ∧ m ≤ 32 ∧
      pendingBits ord acc m rest = pendingBits ord bits n bytes := by
  induction bytes generalizing bits n with
  | nil =>
    have hwn : w ≤ n := by simpa [pendingBits, length_accBits] using hlen
    exact ⟨bits, n, [], by rw [fillBits, if_neg hwn.not_gt], hwn, hn, rfl⟩
  | cons b bs ih =>
    unfold fillBits
    split
    case isTrue hlt =>
      have hstream := pendingBits_insertBits (by omega) h b bs
      rw [← hstream] at hlen ⊢
      exact ih (by omega) (accOk_insertBits b (by omega) h) hlen
    case isFalse hge => exact ⟨bits, n, b :: bs, rfl, Nat.le_of_not_lt hge, hn, rfl⟩

theorem extractCode_lt (bits : AccWord) (hw : w ≤ 12) : (extractCode ord bits w).toNat < 2 ^ w := by
  have hpos := Nat.two_pow_pos w
  cases ord with
  | lsb =>
    have hp : 2 ^ w ≤ 2 ^ 12 := Nat.pow_le_pow_right Nat.two_pos hw
    refine (Nat.mod_le _ _).trans_lt (Nat.and_lt_two_pow _ ?_)
    show (2 ^ w - 1) % 2 ^ 32 < 2 ^ w
    omega
  | msb =>
    refine (Nat.mod_le _ _).trans_lt ?_
    rw [BitVec.toNat_ushiftRight, Nat.shiftRight_eq_div_pow, Nat.div_lt_iff_lt_mul (Nat.two_pow_pos _), ← Nat.pow_add,
      Nat.add_sub_cancel' (by omega)]
    exact bits.isLt

/-- A code of `w` bits is known by its stream bits (R60). -/
theorem codeBits_injective {a b : Code} (ha : a.toNat < 2 ^ w) (hb : b.toNat < 2 ^ w)
    (h : codeBits ord w a = codeBits ord w b) : a = b := by
  rw [codeBits_eq, codeBits_eq, List.map_inj_left] at h
  have hbit : ∀ j, j < w → a.getLsbD j = b.getLsbD j := by
    intro j hj
    cases ord with
    | lsb => exact h j (List.mem_range.mpr hj)
    | msb =>
      have hj' := h (w - 1 - j) (List.mem_range.mpr (by omega))
      rwa [orderedBit, orderedBit, show w - 1 - (w - 1 - j) = j by omega] at hj'
  apply BitVec.eq_of_toNat_eq
  refine Nat.eq_of_testBit_eq fun j => ?_
  rcases Nat.lt_or_ge j w with hj | hj
  · exact hbit j hj
  · have hp : 2 ^ w ≤ 2 ^ j := Nat.pow_le_pow_right Nat.two_pos hj
    rw [Nat.testBit_lt_two_pow (ha.trans_le hp), Nat.testBit_lt_two_pow (hb.trans_le hp)]

/-- EXTRACT takes the code at the front of the stream and leaves the bits behind it (R89, R90). -/
theorem extract_of_pendingBits {bytes : List Byte} {v : Code} {rest : List Bool} (hw : w ≤ 12) (hwn : w ≤ n) (hn : n ≤ 32)
    (hv : v.toNat < 2 ^ w) (h : pendingBits ord bits n bytes = codeBits ord w v ++ rest) :
    extractCode ord bits w = v ∧ pendingBits ord (extractRest ord bits w) (n - w) bytes = rest := by
  obtain ⟨hcode, hrest⟩ := extractTakesCodeBits ord bits n w hw hwn hn
  have hle : w ≤ (accBits ord bits n).length := hwn.trans_eq (length_accBits bits n).symm
  constructor
  · refine codeBits_injective (ord := ord) (extractCode_lt bits hw) hv ?_
    rw [hcode, ← List.take_append_of_le_length hle, ← pendingBits, h, List.take_left' (length_codeBits v w)]
  · rw [pendingBits, hrest, ← List.drop_append_of_le_length hle, ← pendingBits, h, List.drop_left' (length_codeBits v w)]

end Fill

/-- The encoding of every well-formed instruction fits the width in force (R60). -/
theorem fits_encode (i : Instr) : Laws.FitsWidth.Statement i := by
  cases i with
  | literal b => exact Laws.FitsWidth.literal b
  | clear => exact Laws.FitsWidth.clear
  | eof => exact Laws.FitsWidth.eof
  | kwkwk code => exact Laws.FitsWidth.kwkwk code
  | dict code => exact Laws.FitsWidth.dict code
  | invalid code => exact Laws.FitsWidth.invalid code
  | init ord w => exact Laws.FitsWidth.init ord w
  | read n => exact Laws.FitsWidth.read n
  | close => exact Laws.FitsWidth.close
  | reserved w => exact Laws.FitsWidth.reserved w

/-- Settles O10: packing, the fill loop and EXTRACT each keep the stream's bits, and O2 classifies the code they give. -/
theorem packedStreamDecodes : Obligations.PackedStreamDecodes := by
  intro ord c i v rest hc hi he
  obtain ⟨-, hv⟩ : Laws.FitsWidth.fits c (.code c.width v) := he ▸ fits_encode i c hc hi
  obtain ⟨-, -, -, hw, -⟩ := CodeCtx.legal_iff.mp hc
  obtain ⟨k, hk, hpack⟩ := flatMap_byteBits_packBits (ord := ord) (part := []) (codeBits ord c.width v ++ rest) (by decide)
  have hstart : pendingBits ord 0#32 0 (packBits ord (codeBits ord c.width v ++ rest) []) =
      codeBits ord c.width v ++ (rest ++ List.replicate k false) := by
    simp [pendingBits, accBits_eq, hpack]
  have hclean : AccOk ord 0#32 0 := by cases ord <;> simp [AccOk]
  obtain ⟨acc, m, bytes, hfill, hwm, hm, hbits⟩ := fillBits_ok hw (by decide) hclean
    (by rw [hstart, List.length_append, length_codeBits]; exact Nat.le_add_right _ _)
  obtain ⟨hcode, hleft⟩ := extract_of_pendingBits hw hwm hm hv (hbits.trans hstart)
  refine ⟨_, _, _, k, ?_, hk, hleft⟩
  rw [decodeCodeBytes, hfill]
  simp only [hcode, classify_of_encode hc hi he]

end Sys2Proof.Machine

/-! PROOFS. The registers the classification reads, after a step: their width, and how a producer tracks them (R69, R70, R81);
settles O55 and O56. -/

namespace Sys2Proof.Machine

section Width
variable {s : State}

/-- In a live phase hi has exactly `width` significant bits (R69). -/
theorem StreamOk.width_eq_log2 (h : StreamOk s) : s.width = Nat.log2 s.hi + 1 := by
  obtain ⟨hwidth, -⟩ := h.width
  obtain ⟨-, hhi⟩ := h.hi
  have hpos : s.width - 1 + 1 = s.width := by omega
  have hne : s.hi ≠ 0 := ((Nat.two_pow_pos _).trans_le h.hiLow).ne'
  rw [(Nat.log2_eq_iff hne).mpr ⟨h.hiLow, by rwa [hpos, ← h.overflow]⟩, hpos]

end Width

/-- Settles O55: the invariant after the step bounds hi by the width on both sides. -/
theorem widthIsSignificantBits : Obligations.WidthIsSignificantBits := fun s t h ht hl =>
  ((stepKeepsInv s t h ht).stream hl).width_eq_log2

section Tracking
variable {s t u : State} {code v : Nat}

theorem readLoop_codeCtx {n : BitVec 16} (h : readLoop n s = .ok t) : t.codeCtx = s.codeCtx := by
  rcases readLoop_cases h with ⟨-, hd⟩ | ⟨-, -, rfl⟩ | ⟨-, -, rfl⟩
  · obtain ⟨_, -, rfl⟩ := deliver_cases hd; rfl
  · rfl
  · rfl

theorem flushCheck_codeCtx (h : flushCheck s = .ok t) : t.codeCtx = s.codeCtx := by
  rcases flushCheck_cases h with ⟨-, he⟩ | ⟨-, rfl⟩
  · rcases endPass_cases he with ⟨n, -, hr⟩ | ⟨-, rfl⟩
    · exact readLoop_codeCtx (s := s.flush) hr
    · rfl
  · rfl

/-- The context after a code of the classes LITERAL, DICT and KWKWK (R103 to R105): what `trackCode` answers for them. -/
def recordedCtx (c : CodeCtx) : CodeCtx :=
  if c.hi + 1 < 2 ^ c.width then { c with hi := c.hi + 1, lastValid := true }
  else if c.width = Config.maxWidth then { c with lastValid := false }
  else { c with hi := c.hi + 1, width := c.width + 1, lastValid := true }

theorem trailer_codeCtx (hov : s.overflow = 2 ^ s.width) (h : trailer code s.setDecoding = .ok t) :
    t.codeCtx = recordedCtx s.codeCtx := by
  have hover : s.codeCtx.hi + 1 < 2 ^ s.codeCtx.width ↔ s.hi + 1 < s.overflow := by rw [hov]; rfl
  rcases trailer_setDecoding_cases h with ⟨hlt, rfl⟩ | ⟨heq, hw, rfl⟩ | ⟨heq, hw, rfl⟩
  · rw [recordedCtx, if_pos (hover.mpr hlt)]; rfl
  · rw [recordedCtx, if_neg (mt hover.mp heq.not_lt), if_neg (show s.codeCtx.width ≠ _ from hw)]; rfl
  · rw [recordedCtx, if_neg (mt hover.mp heq.not_lt), if_pos (show s.codeCtx.width = _ from hw)]; rfl

/-- A code's step from its output on: the seal keeps the context, the trailer records the code. -/
theorem codeStep_codeCtx {out : State} (hov : s.overflow = 2 ^ s.width) (hu : sealEntry v out = .ok u)
    (h : endStep code u = .ok t) (hctx : out.codeCtx = s.codeCtx) (hover : out.overflow = s.overflow) :
    t.codeCtx = recordedCtx s.codeCtx := by
  have hseal : u.codeCtx = out.codeCtx ∧ u.overflow = out.overflow := by
    rcases sealEntry_cases hu with ⟨-, -, rfl⟩ | ⟨-, rfl⟩ <;> exact ⟨rfl, rfl⟩
  obtain ⟨w, hw, hf⟩ := endStep_cases h
  have hctx' : u.codeCtx = s.codeCtx := hseal.1.trans hctx
  have hwidth : u.width = s.width := congrArg CodeCtx.width hctx'
  rw [flushCheck_codeCtx hf, trailer_codeCtx (by rw [hseal.2, hover, hov, hwidth]) hw, hctx']

theorem StreamOk.clearTable_codeCtx (h : StreamOk s) :
    s.clearTable.codeCtx = { s.codeCtx with width := Nat.log2 s.clear + 1, hi := s.eof, lastValid := false } := by
  rw [h.clear, Nat.log2_two_pow]
  rfl

end Tracking

/-- Settles O56: the class of the code says which of the producer's cases its step follows. -/
theorem producerTracksDecoder : Obligations.ProducerTracksDecoder := by
  intro s t code h hl _ hle hne ht
  have hs := h.stream hl
  rw [trackCode]
  rcases classify_cases s.codeCtx code with
    ⟨-, hi⟩ | ⟨-, hi⟩ | ⟨-, he, -⟩ | ⟨-, -, -, hi⟩ | ⟨-, -, -, -, hi⟩ | ⟨-, -, hhi, -⟩
  · rw [hi] at ht ⊢
    obtain ⟨-, u, hu, he⟩ := literalStep_cases (finish_eq_next.mp ht)
    exact codeStep_codeCtx hs.overflow hu he rfl rfl
  · rw [hi] at ht ⊢
    cases ht
    exact hs.clearTable_codeCtx
  · exact absurd he hne
  · rw [hi] at ht ⊢
    obtain ⟨_, _, _, u, hu, he⟩ := kwkwkStep_cases (finish_eq_next.mp ht)
    exact codeStep_codeCtx hs.overflow hu he rfl rfl
  · rw [hi] at ht ⊢
    obtain ⟨_, _, _, u, hu, he⟩ := expandStep_cases (finish_eq_next.mp ht)
    exact codeStep_codeCtx hs.overflow hu he rfl rfl
  · exact absurd hhi hle.not_gt

end Sys2Proof.Machine

/-! PROOFS. Answers: a command gets one response, given in the step that ends its service (R78), and a Fetch answer with the
reserved tag has no meaning (R79); settles O52 and O17. -/

namespace Sys2Proof.Machine

section Responses
variable {s t : State} {n : BitVec 16} {code : Nat}

/-- t follows s with one more response if t has no command in service, and with none otherwise. -/
def AnswersOnEnd (s t : State) : Prop :=
  responseCount t.trace = responseCount s.trace + if t.busy = none then 1 else 0

/-- A response ends the service. -/
theorem answersOnEnd_respond (s : State) (r : Response) : AnswersOnEnd s (s.respond r) := rfl

/-- Without a response the command stays in service. -/
theorem answersOnEnd_of_busy (hb : t.busy.isSome = true) (hr : responseCount t.trace = responseCount s.trace) :
    AnswersOnEnd s t := by
  rw [AnswersOnEnd, if_neg (Option.isSome_iff_ne_none.mp hb), hr, Nat.add_zero]

theorem readLoop_answersOnEnd (h : readLoop n s = .ok t) : AnswersOnEnd s t := by
  rcases readLoop_cases h with ⟨-, hd⟩ | ⟨-, -, rfl⟩ | ⟨-, -, rfl⟩
  · obtain ⟨_, -, rfl⟩ := deliver_cases hd
    exact answersOnEnd_respond (s.takePending _) _
  · exact answersOnEnd_respond s _
  · exact answersOnEnd_of_busy rfl rfl

theorem endPass_answersOnEnd (hb : s.busy.isSome = true) (h : endPass s = .ok t) : AnswersOnEnd s t := by
  rcases endPass_cases h with ⟨_, -, hr⟩ | ⟨hn, -⟩
  · exact readLoop_answersOnEnd (s := s.flush) hr
  · simp [hn] at hb

theorem flushCheck_answersOnEnd (hb : s.busy.isSome = true) (h : flushCheck s = .ok t) : AnswersOnEnd s t := by
  rcases flushCheck_cases h with ⟨-, he⟩ | ⟨-, rfl⟩
  · exact endPass_answersOnEnd hb he
  · exact answersOnEnd_of_busy hb rfl

/-- A code's step from its output on: only the flush check can respond. -/
theorem codeStep_answersOnEnd {out u : State} {v : Nat} (hb : s.busy.isSome = true) (hu : sealEntry v out = .ok u)
    (h : endStep code u = .ok t) (hout : SameService s out) : AnswersOnEnd s t := by
  obtain ⟨w, hw, hf⟩ := endStep_cases h
  have hwout : SameService out w := by
    obtain ⟨_, _, _, _, _, _, -, rfl⟩ := trailer_setDecoding_frame hw
    rcases sealEntry_cases hu with ⟨-, -, rfl⟩ | ⟨-, rfl⟩ <;> exact ⟨rfl, rfl⟩
  obtain ⟨hbusy, htrace⟩ := hwout
  have hans := flushCheck_answersOnEnd (by rwa [hbusy, hout.1]) hf
  rwa [AnswersOnEnd, htrace, hout.2] at hans

/-- The meaning of a classified code, with a READ in service. -/
theorem exec_classify_answersOnEnd {c : CodeCtx} {code : Code} (hb : s.busy.isSome = true)
    (h : exec (classify c code) s = .next t) : AnswersOnEnd s t := by
  rcases classify_cases c code with
    ⟨-, hi⟩ | ⟨-, hi⟩ | ⟨-, -, hi⟩ | ⟨-, -, -, hi⟩ | ⟨-, -, -, -, hi⟩ | ⟨-, -, -, hi⟩ <;> rw [hi] at h
  · obtain ⟨-, u, hu, he⟩ := literalStep_cases (finish_eq_next.mp h)
    exact codeStep_answersOnEnd hb hu he ⟨rfl, rfl⟩
  · cases h
    exact answersOnEnd_of_busy hb rfl
  · exact endPass_answersOnEnd (s := s.terminate .eof none) hb (finish_eq_next.mp h)
  · obtain ⟨_, _, _, u, hu, he⟩ := kwkwkStep_cases (finish_eq_next.mp h)
    exact codeStep_answersOnEnd hb hu he ⟨rfl, rfl⟩
  · obtain ⟨_, _, _, u, hu, he⟩ := expandStep_cases (finish_eq_next.mp h)
    exact codeStep_answersOnEnd hb hu he ⟨rfl, rfl⟩
  · exact endPass_answersOnEnd (s := s.terminate .invalidCode none) hb (finish_eq_next.mp h)

/-- One Fetch transaction: END and ERR end the pass, a byte or no answer leaves the READ in service. -/
theorem fetchByte_answersOnEnd (hb : s.busy.isSome = true) (h : fetchByte s = .next t) : AnswersOnEnd s t := by
  rcases fetchByte_cases s with ⟨-, hf⟩ | ⟨a, rest, -, ⟨b, -, hf⟩ | ⟨-, hf⟩ | ⟨e, -, hf⟩ | ⟨-, hf⟩⟩ <;> rw [hf] at h
  · cases h
    exact answersOnEnd_of_busy hb rfl
  · cases h
    exact answersOnEnd_of_busy hb rfl
  · exact endPass_answersOnEnd (s := (s.answered .endOfInput rest).terminate _ _) hb (finish_eq_next.mp h)
  · exact endPass_answersOnEnd (s := (s.answered (.err e) rest).terminate _ _) hb (finish_eq_next.mp h)
  · cases h

/-- Every command answers at once, but a READ that starts a decode pass (R78, R138). -/
theorem exec_decodeCommand_answersOnEnd {w : CmdWord} (h : exec (decodeCommand w) s = .next t) : AnswersOnEnd s t := by
  unfold decodeCommand at h
  split at h
  · obtain ⟨-, h⟩ := whenIdle_eq_next.mp h
    split at h <;> cases h
    · exact answersOnEnd_respond (s.startStream _ _) _
    · exact answersOnEnd_respond s.failStream _
  · split at h
    · obtain ⟨-, h⟩ := whenIdle_eq_next.mp h
      split at h
      · cases h
        exact answersOnEnd_respond s _
      · exact readLoop_answersOnEnd (finish_eq_next.mp h)
    · split at h <;> obtain ⟨-, h⟩ := whenIdle_eq_next.mp h <;> cases h
      · exact answersOnEnd_respond s.setClosed _
      · exact answersOnEnd_respond s _

end Responses

/-- Settles O52: a step with a command in service or presented answers exactly if it leaves none in service. -/
theorem oneResponsePerCommand : Obligations.OneResponsePerCommand := by
  intro s t _ ht
  rcases step_cases s with ⟨_, _, -, hs⟩ | ⟨-, ⟨hb, -, hs⟩ | ⟨hb, -, hs⟩ | ⟨-, w, rest, hh, hs⟩ | ⟨hb, hh, hs⟩⟩ <;>
    rw [hs] at ht
  · cases ht
  · simpa [AnswersOnEnd, hb] using fetchByte_answersOnEnd hb ht
  · simpa [AnswersOnEnd, hb] using exec_classify_answersOnEnd (s := s.dropCode) hb ht
  · simpa [AnswersOnEnd, responseCount, hh] using exec_decodeCommand_answersOnEnd ht
  · cases ht
    simp [hb, hh]

/-- Settles O17: the Fetch that the step makes decodes the answer it is offered. -/
theorem reservedTagRefused : Obligations.ReservedTagRefused := by
  intro s n a rest hh hb hn ho ha
  have hneed : needsFetch s = true := decide_eq_true hn
  have hanswer : decodeAnswer a = .reservedTag := by simp [decodeAnswer, ha]
  rw [step_inService hh (by rw [hb]; rfl), if_pos hneed, fetchByte, nextAnswer_eq_some.mpr ho]
  simp only [hanswer]

end Sys2Proof.Machine

/-! PROOFS. The accumulator over the steps of a pass: its other bits stay 0 (R93), no instruction but INIT writes it after
EXTRACT (R94), and EXTRACT leaves at most 7 bits (R92); settles O9, O22 and O50. -/

namespace Sys2Proof.Machine

/-- Settles O9: INSERT and EXTRACT each keep `AccOk`. -/
theorem accumulatorStaysClean : Obligations.AccumulatorStaysClean := fun _ _ _ h =>
  ⟨fun b hn => accOk_insertBits b hn h, fun _ hw hn => accOk_extractRest hw hn h⟩

/-- Settles O50: the accumulator is part of what every meaning but INIT's keeps. -/
theorem onlyInitResetsAccumulator : Obligations.OnlyInitResetsAccumulator :=
  fun _ _ _ hi h => (inputView_eq_iff.mp (exec_inputView hi h)).2

/-- Settles O22: EXTRACT leaves at most 7 bits, and the meaning of the code, which is never INIT's, keeps them. -/
theorem codeStepLeavesFewBits : Obligations.CodeStepLeavesFewBits := by
  intro s t n h hb hw ht
  have hbusy : s.busy.isSome = true := by rw [hb]; rfl
  rcases step_cases s with ⟨_, _, -, hs⟩ | ⟨-, ⟨-, hn, -⟩ | ⟨-, -, hs⟩ | ⟨hnone, -⟩ | ⟨hnone, -⟩⟩
  · rw [hs] at ht; cases ht
  · exact absurd (of_decide_eq_true hn) (Nat.not_lt.mpr hw)
  · obtain ⟨-, hnBits⟩ := onlyInitResetsAccumulator _ _ _ (classify_ne_init _ _) (hs.symm.trans ht)
    exact hnBits.trans_le (h.midCode_dropCode hbusy hw).nBits
  · rw [hb] at hnone; cases hnone
  · rw [hb] at hnone; cases hnone

end Sys2Proof.Machine

/-! PROOFS. One Fetch (R86 to R88, R91), and the end of a pass with a condition: the flush, then the READ served from the
flushed bytes or answered with the condition (R98, R127, R137, R141); settles O14, O15 and O16. -/

namespace Sys2Proof.Machine

section Fetch
variable {s : State} {n : BitVec 16} {a : SourceWord} {rest : List SourceWord}

/-- With a READ in service and too few bits gathered, the step is a Fetch (R86). -/
theorem step_fetch (hh : ∀ w acts, s.host ≠ .overlap w :: acts) (hb : s.busy = some n) (hn : s.nBits < s.width) :
    step s = fetchByte s := by
  rw [step_inService hh (by rw [hb]; rfl), if_pos (show needsFetch s = true from decide_eq_true hn)]

theorem fetchByte_of_byte (ho : Offers s a rest) (ha : a.tag = 0#2) :
    fetchByte s = .next ((s.answered (.byte a.byte) rest).insertByte a.byte) := by
  simp [fetchByte, nextAnswer_eq_some.mpr ho, decodeAnswer, ha]

theorem fetchByte_of_end (ho : Offers s a rest) (ha : a.tag = 1#2) :
    fetchByte s = finish (endPass ((s.answered .endOfInput rest).terminate .unexpectedEof none)) := by
  simp [fetchByte, nextAnswer_eq_some.mpr ho, decodeAnswer, ha]

theorem fetchByte_of_err (ho : Offers s a rest) (ha : a.tag = 2#2) :
    fetchByte s = finish (endPass ((s.answered (.err a.err) rest).terminate .sourceError (some a.err))) := by
  simp [fetchByte, nextAnswer_eq_some.mpr ho, decodeAnswer, ha]

end Fetch

section TerminatedPass
variable {s : State} {n : BitVec 16}

/-- What a window read answers stands in OUT from its first index on. -/
theorem holdsBytes_of_outWindow {p k : Nat} {bs : List Byte} (h : outWindow s p k = .ok bs) : HoldsBytes s p bs := by
  obtain ⟨hlen, hbytes⟩ := outWindow_eq_ok h
  intro j b hj
  obtain ⟨hlt, -⟩ := List.getElem?_eq_some_iff.mp hj
  obtain ⟨-, hb⟩ := hbytes j (hlen ▸ hlt)
  exact Option.some.inj (hb.symm.trans hj)

/-- After the flush of a pass that decoded bytes, READ's loop delivers the first of them (R127, R136). -/
theorem readLoop_flush (n : BitVec 16) (hpos : 0 < s.o) (ho : s.o ≤ Config.outSize) :
    ∃ data, data.length = min n.toNat s.o ∧ HoldsBytes s 0 data ∧
      readLoop n s.flush = .ok ((s.flush.takePending (min n.toNat s.o)).respond
        (.read .ok (BitVec.ofNat 16 (min n.toNat s.o)) data none)) := by
  have hk : min n.toNat s.o ≤ s.o := Nat.min_le_right _ _
  obtain ⟨data, hdata⟩ : ∃ data, outWindow s.flush 0 (min n.toNat s.o) = .ok data := outWindow_ok (by omega)
  obtain ⟨hlen, -⟩ := outWindow_eq_ok hdata
  refine ⟨data, hlen, holdsBytes_of_outWindow (s := s.flush) hdata, ?_⟩
  have hcount : deliverCount s.flush n = min n.toNat s.o := rfl
  have hqueue : s.flush.pendPos < s.flush.pendEnd := hpos
  rw [readLoop, if_pos hqueue, deliver, hcount, State.flush_pendPos, hdata]

/-- With nothing decoded in the pass, READ's loop reports the condition stored (R137). -/
theorem readLoop_flush_of_terminal (hzero : s.o = 0) (ht : s.phase.terminal = true) :
    readLoop n s.flush = .ok (respondStored s.flush) := by
  have hqueue : ¬ s.flush.pendPos < s.flush.pendEnd := by simp [hzero]
  rw [readLoop, if_neg hqueue, if_pos (show s.flush.phase.terminal = true from ht)]

theorem State.terminate_terminal (s : State) (c : Status) (e : Option SrcErr) :
    (s.terminate c e).phase.terminal = true := by
  rw [State.terminate_phase]
  split <;> rfl

/-- A condition that ends the pass of a READ in service: the READ has ended as `PassEnded` says, with the payload stored where
the condition is SOURCE_ERROR, and the accumulator and the agents are as they were. -/
theorem endPass_terminate (hb : s.busy = some n) (ho : s.o ≤ Config.outSize) (c : Status) (e : Option SrcErr) :
    ∃ t, endPass (s.terminate c e) = .ok t ∧ t.phase = (s.terminate c e).phase ∧ t.condPayload = e.getD s.condPayload ∧
      PassEnded s t n c (if c = .sourceError then some (e.getD s.condPayload) else none) ∧ SameAcc s t ∧
      SameAgents s t := by
  have hend : endPass (s.terminate c e) = readLoop n (s.terminate c e).flush := by
    rw [endPass, State.terminate_busy, hb]
  rw [hend]
  rcases Nat.eq_zero_or_pos s.o with hzero | hpos
  · refine ⟨_, readLoop_flush_of_terminal hzero (s.terminate_terminal c e), rfl, rfl, ⟨rfl, rfl, ?_, ?_⟩, ?_⟩
    · rw [if_neg hzero.not_gt]
      exact ⟨rfl, rfl, hzero, rfl, rfl⟩
    · simp [respondStored, SameConfig, SameTable, SameArrays]
    · simp [respondStored, SameAcc, SameAgents]
  · obtain ⟨data, hlen, hbytes, hloop⟩ := readLoop_flush (s := s.terminate c e) n hpos ho
    refine ⟨_, hloop, rfl, rfl, ⟨rfl, rfl, ?_, ?_⟩, ?_⟩
    · rw [if_pos hpos]
      exact ⟨rfl, rfl, Nat.zero_add _, rfl, data, hlen, hbytes, rfl⟩
    · simp [SameConfig, SameTable, SameArrays]
    · simp [SameAcc, SameAgents]

end TerminatedPass

/-- Settles O14: the step is a Fetch, and INSERT puts the byte where the order says. -/
theorem fetchInsertsByte : Obligations.FetchInsertsByte := by
  intro s n b a rest hh hb hn ho ha hbyte
  subst hbyte
  exact (step_fetch hh hb hn).trans (fetchByte_of_byte ho ha)

/-- Settles O15: END ends the pass with UNEXPECTED_EOF. -/
theorem fetchEndTerminates : Obligations.FetchEndTerminates := by
  intro s n a rest hh hb hn hoff ha ho
  obtain ⟨t, ht, hphase, hpayload, hended, hacc, hhost, hsource, hloop⟩ :=
    endPass_terminate (s := s.answered .endOfInput rest) hb ho .unexpectedEof none
  refine ⟨t, ?_, hphase, hpayload, hended, hacc, hhost, hsource, hloop⟩
  rw [step_fetch hh hb hn, fetchByte_of_end hoff ha, ht, finish]

/-- Settles O16: ERR(e) ends the pass with SOURCE_ERROR, which stores and reports e. -/
theorem fetchErrTerminates : Obligations.FetchErrTerminates := by
  intro s n a e rest hh hb hn hoff ha he ho
  subst he
  obtain ⟨t, ht, hphase, hpayload, hended, hacc, hhost, hsource, hloop⟩ :=
    endPass_terminate (s := s.answered (.err a.err) rest) hb ho .sourceError (some a.err)
  refine ⟨t, ?_, hphase, hpayload, hended, hacc, hhost, hsource, hloop⟩
  rw [step_fetch hh hb hn, fetchByte_of_err hoff ha, ht, finish]

end Sys2Proof.Machine

/-! PROOFS. What a command can do in its own step: it answers, or it is a READ that starts a decode pass; neither fetches
(R95, R132); settles O21. -/

namespace Sys2Proof.Machine

section CommandSteps
variable {s t : State}

theorem decodeCommand_cases (w : CmdWord) :
    (∃ ord lw, decodeCommand w = .init ord lw) ∨ (∃ n, decodeCommand w = .read n) ∨ decodeCommand w = .close ∨
      decodeCommand w = .reserved w := by
  unfold decodeCommand
  split
  · exact .inl ⟨_, _, rfl⟩
  · split
    · exact .inr (.inl ⟨_, rfl⟩)
    · split
      · exact .inr (.inr (.inl rfl))
      · exact .inr (.inr (.inr rfl))

/-- t is a state with the same agents and the same observations as s, answered. -/
def Answered (s t : State) : Prop := ∃ u r, SameAgents s u ∧ u.trace = s.trace ∧ t = u.respond r

/-- A turn of READ's loop answers, or starts a pass with nothing pending and no condition stored (R136 to R138). -/
theorem readLoop_answers_or_starts {n : BitVec 16} (h : readLoop n s = .ok t) :
    Answered s t ∨ (s.pendEnd ≤ s.pendPos ∧ s.phase.terminal = false ∧ t = s.startPass n) := by
  rcases readLoop_cases h with ⟨-, hd⟩ | ⟨-, -, rfl⟩ | hstart
  · obtain ⟨_, -, rfl⟩ := deliver_cases hd
    exact .inl ⟨s.takePending _, _, ⟨rfl, rfl, rfl⟩, rfl, rfl⟩
  · exact .inl ⟨s, _, ⟨rfl, rfl, rfl⟩, rfl, rfl⟩
  · exact .inr hstart

/-- Everything a command can do to the agents and the service: only a READ in a live phase with nothing pending does not
answer at once (R132, R138). -/
theorem exec_decodeCommand_cases {w : CmdWord} (h : exec (decodeCommand w) s = .next t) :
    Answered s t ∨
    ∃ n, decodeCommand w = .read n ∧ s.pendEnd ≤ s.pendPos ∧ s.phase.terminal = false ∧ t = s.startPass n := by
  rcases decodeCommand_cases w with ⟨ord, lw, hw⟩ | ⟨n, hw⟩ | hw | hw <;> rw [hw] at h <;>
    obtain ⟨-, h⟩ := whenIdle_eq_next.mp h
  · split at h <;> cases h
    · exact .inl ⟨s.startStream ord lw.toNat, _, ⟨rfl, rfl, rfl⟩, rfl, rfl⟩
    · exact .inl ⟨s.failStream, _, ⟨rfl, rfl, rfl⟩, rfl, rfl⟩
  · split at h
    · cases h
      exact .inl ⟨s, _, ⟨rfl, rfl, rfl⟩, rfl, rfl⟩
    · exact (readLoop_answers_or_starts (finish_eq_next.mp h)).imp_right fun hstart => ⟨n, hw, hstart⟩
  · cases h
    exact .inl ⟨s.setClosed, _, ⟨rfl, rfl, rfl⟩, rfl, rfl⟩
  · cases h
    exact .inl ⟨s, _, ⟨rfl, rfl, rfl⟩, rfl, rfl⟩

end CommandSteps

/-- Settles O21: an idle block serves a command or stays; the one command that is not over after its step is a READ with
nothing pending in a phase that is not terminal. -/
theorem noFetchOutsidePass : Obligations.NoFetchOutsidePass := by
  intro s t hb ht
  rcases step_cases s with ⟨_, _, -, hs⟩ | ⟨-, ⟨hsome, -⟩ | ⟨hsome, -⟩ | ⟨-, w, rest, hh, hs⟩ | ⟨-, hh, hs⟩⟩
  · rw [hs] at ht; cases ht
  · rw [hb] at hsome; cases hsome
  · rw [hb] at hsome; cases hsome
  · rcases exec_decodeCommand_cases (hs.symm.trans ht) with
      ⟨u, r, ⟨-, hsource, hloop⟩, htrace, rfl⟩ | ⟨n, hread, hempty, hphase, rfl⟩
    · refine ⟨hsource, hloop, ?_, fun _ _ _ _ => rfl⟩
      rw [State.respond_trace, htrace]
      rfl
    · refine ⟨rfl, rfl, rfl, fun w' rest' hh' hover => ?_⟩
      obtain ⟨⟨rfl⟩, -⟩ := List.cons.inj (hh.symm.trans hh')
      rcases hover with ⟨ord, lw, hinit⟩ | hclose | ⟨-, hpending⟩ | hterm
      · exact nomatch hread.symm.trans hinit
      · exact nomatch hread.symm.trans hclose
      · exact absurd hpending hempty.not_gt
      · exact nomatch hphase.symm.trans hterm
  · cases hs.symm.trans ht
    exact ⟨rfl, rfl, rfl, fun w rest hh' => nomatch hh.symm.trans hh'⟩

end Sys2Proof.Machine

/-! PROOFS. A code's step from its output on: SEAL leaves `Sealed` and the trailer `TrailerDone` (R99, R103 to R105, R124), and the
flush check goes on or serves the READ (R107, R127, R136); with them LITERAL; settles O23 and O24. -/

namespace Sys2Proof.Machine

section Seal
variable {s t u : State} {code v : Nat} {b : Byte}

theorem sealEntry_sealed (hu : sealEntry v s = .ok u) : Sealed s u (BitVec.ofNat 8 v) := by
  unfold Sealed
  rcases sealEntry_cases hu with ⟨hl, -, rfl⟩ | ⟨hl, rfl⟩
  · rw [if_pos hl]
    refine ⟨by simp, by simp, by simp, by simp, fun c hc => ?_⟩
    simp [Memory.read_write_other _ _ hc, hc]
  · simp [hl, SameArrays]

/-- What SEAL leaves is said of the arrays only. -/
theorem Sealed.congr (h : Sealed s u b) (ha : SameArrays u t) : Sealed s t b := by
  obtain ⟨hsuf, hpre, hsufFresh, hpreFresh⟩ := ha
  unfold Sealed SameArrays at h ⊢
  rwa [hsuf, hpre, hsufFresh, hpreFresh]

theorem sealEntry_frame (hu : sealEntry v s = .ok u) :
    ∃ suf pre sufFresh preFresh, u = { s with suf, pre, sufFresh, preFresh } := by
  rcases sealEntry_cases hu with ⟨-, -, rfl⟩ | ⟨-, rfl⟩ <;> exact ⟨_, _, _, _, rfl⟩

theorem readLoop_sameArrays {n : BitVec 16} (h : readLoop n s = .ok t) : SameArrays s t := by
  rcases readLoop_cases h with ⟨-, hd⟩ | ⟨-, -, rfl⟩ | ⟨-, -, rfl⟩
  · obtain ⟨_, -, rfl⟩ := deliver_cases hd
    exact ⟨rfl, rfl, rfl, rfl⟩
  · exact ⟨rfl, rfl, rfl, rfl⟩
  · exact ⟨rfl, rfl, rfl, rfl⟩

/-- Behind SEAL a code's step does not write the table. -/
theorem endStep_sameArrays (h : endStep code s = .ok t) : SameArrays s t := by
  obtain ⟨w, hw, hf⟩ := endStep_cases h
  obtain ⟨_, _, _, _, _, _, -, rfl⟩ := trailer_setDecoding_frame hw
  rcases flushCheck_cases hf with ⟨-, he⟩ | ⟨-, rfl⟩
  · rcases endPass_cases he with ⟨n, -, hr⟩ | ⟨-, rfl⟩
    · obtain ⟨hsuf, hpre, hfresh⟩ := readLoop_sameArrays hr
      exact ⟨hsuf, hpre, hfresh⟩
    · exact ⟨rfl, rfl, rfl, rfl⟩
  · exact ⟨rfl, rfl, rfl, rfl⟩

/-- A code's output leaves all that SEAL speaks of as it was. -/
theorem Sealed.of_output {m : Memory Byte} {n : Nat} (h : Sealed ((s.withOut m).advanceO n) t b) : Sealed s t b := h

/-- A code's step from its output on leaves the entry that SEAL writes. -/
theorem codeStep_sealed (hu : sealEntry v s = .ok u) (ht : endStep code u = .ok t) : Sealed s t (BitVec.ofNat 8 v) :=
  (sealEntry_sealed hu).congr (endStep_sameArrays ht)

end Seal

section CodeStep
variable {s t u : State} {n : BitVec 16} {code v : Nat}

theorem trailer_done (ht : trailer code s.setDecoding = .ok t) : TrailerDone s t code := by
  unfold TrailerDone
  rcases trailer_setDecoding_cases ht with ⟨hlt, rfl⟩ | ⟨heq, hw, rfl⟩ | ⟨heq, hw, rfl⟩
  · rw [if_pos hlt]
    exact ⟨rfl, rfl, rfl, rfl, rfl, rfl⟩
  · rw [if_neg heq.not_lt, if_neg (show s.width ≠ 12 from hw)]
    exact ⟨rfl, rfl, rfl, rfl, rfl, rfl⟩
  · rw [if_neg heq.not_lt, if_pos (show s.width = 12 from hw)]
    exact ⟨rfl, rfl, rfl, rfl, rfl⟩

/-- What every code of the classes LITERAL, DICT and KWKWK leaves behind its output, flushed or not: the entry with head byte b,
the trailer, the phase, and the rest as it was (R97, R103, R108, R124). -/
structure CodeRecorded (s t : State) (b : Byte) (code : Nat) : Prop where
  sealed  : Sealed s t b
  trailer : TrailerDone s t code
  phase   : t.phase = .decoding
  out     : t.out = s.out
  config  : SameConfig s t
  acc     : SameAcc s t
  cond    : SameCond s t
  agents  : SameAgents s t

/-- SEAL and the trailer, up to the flush check. -/
theorem recordCode_ok (v code : Nat) (hhi : s.hi < s.overflow) (htable : s.lastValid = true → s.hi < Config.tableSize) :
    ∃ u w, sealEntry v s = .ok u ∧ trailer code u.setDecoding = .ok w ∧ CodeRecorded s w (BitVec.ofNat 8 v) code ∧
      w.o = s.o ∧ SameQueue s w ∧ SameService s w := by
  obtain ⟨u, hu⟩ : ∃ u, sealEntry v s = .ok u := ⟨_, sealEntry_ok htable⟩
  have hsealed := sealEntry_sealed hu
  obtain ⟨_, _, _, _, hframe⟩ := sealEntry_frame hu
  obtain ⟨w, hw⟩ : ∃ w, trailer code u.setDecoding = .ok w := trailer_ok (by subst hframe; exact hhi)
  have hdone := trailer_done hw
  subst hframe
  obtain ⟨_, _, _, _, _, _, -, rfl⟩ := trailer_setDecoding_frame hw
  refine ⟨_, _, hu, hw, ?_, rfl, ⟨rfl, rfl⟩, rfl, rfl⟩
  exact {
    sealed := hsealed.congr ⟨rfl, rfl, rfl, rfl⟩
    trailer := hdone
    phase := rfl
    out := rfl
    config := ⟨rfl, rfl, rfl, rfl, rfl⟩
    acc := ⟨rfl, rfl⟩
    cond := ⟨rfl, rfl⟩
    agents := ⟨rfl, rfl, rfl⟩ }

/-- Below the flush threshold the pass goes on (R107). -/
theorem finishCode_completes (v code : Nat) (ho : s.o < Config.flushThreshold) (hhi : s.hi < s.overflow)
    (htable : s.lastValid = true → s.hi < Config.tableSize) :
    ∃ u t, sealEntry v s = .ok u ∧ endStep code u = .ok t ∧ CodeRecorded s t (BitVec.ofNat 8 v) code ∧ t.o = s.o ∧
      SameQueue s t ∧ SameService s t := by
  obtain ⟨u, w, hu, hw, hrec, hwo, hqueue, hservice⟩ := recordCode_ok v code hhi htable
  refine ⟨u, w, hu, ?_, hrec, hwo, hqueue, hservice⟩
  simp only [endStep, hw, flushCheck, if_neg (hwo.trans_lt ho).not_ge]

/-- From the flush threshold on the bytes are flushed and the READ in service is answered from them (R107, R127, R136). -/
theorem finishCode_flushes (v code : Nat) (hb : s.busy = some n) (hlo : Config.flushThreshold ≤ s.o)
    (ho : s.o ≤ Config.outSize) (hhi : s.hi < s.overflow) (htable : s.lastValid = true → s.hi < Config.tableSize) :
    ∃ u t, sealEntry v s = .ok u ∧ endStep code u = .ok t ∧ CodeRecorded s t (BitVec.ofNat 8 v) code ∧
      QueueServed s t n s.o := by
  obtain ⟨u, w, hu, hw, hrec, hwo, -, hbusy, htrace⟩ := recordCode_ok v code hhi htable
  have hpos : 0 < w.o := hwo ▸ (show 0 < Config.flushThreshold by decide).trans_le hlo
  obtain ⟨data, hlen, hbytes, hloop⟩ := readLoop_flush n hpos (hwo.trans_le ho)
  rw [hwo] at hlen hloop
  have hend : endStep code u = readLoop n w.flush := by
    simp only [endStep, hw, flushCheck, if_pos (hlo.trans_eq hwo.symm), endPass, hbusy.trans hb]
  refine ⟨u, _, hu, hend.trans hloop, { hrec with }, rfl, hwo, Nat.zero_add _, rfl, data, hlen, hbytes, ?_⟩
  rw [State.respond_trace, ← htrace]
  rfl

end CodeStep

section Literal
variable {s t u : State} {b : Byte}

/-- LITERAL's output, in front of its table write and the end of its step (R99). -/
theorem execLiteral_eq (ho : s.o < Config.outSize)
    (hu : sealEntry b.toNat ((s.putOut s.o b.toNat).advanceO 1) = .ok u) :
    exec (.literal b) s = finish (endStep b.toNat u) := by
  have hout : outWrite s s.o b.toNat = .ok (s.putOut s.o b.toNat) := outWrite_eq_ok.mpr ⟨ho, rfl⟩
  simp only [exec, execLiteral, literalCode, literalStep, putByte, hout, hu]

theorem outByte_congr (hout : t.out = s.out) (hfree : t.outFree = s.outFree) (i : Nat) : outByte t i = outByte s i := by
  rw [outByte, outByte, hout, hfree]

/-- After LITERAL OUT has its byte at o, and every other byte is as before. -/
theorem outByte_literal (hrec : CodeRecorded ((s.putOut s.o b.toNat).advanceO 1) t b b.toNat) :
    outByte t s.o = b ∧ ∀ i, i ≠ s.o → outByte t i = outByte s i := by
  obtain ⟨-, -, -, -, hfree⟩ := hrec.config
  have hbyte (i : Nat) : outByte t i = if i = s.o then BitVec.ofNat 8 b.toNat else outByte s i :=
    (outByte_congr hrec.out hfree i).trans (outByte_putOut s s.o i b.toNat)
  refine ⟨?_, fun i hi => (hbyte i).trans (if_neg hi)⟩
  rw [hbyte, if_pos rfl, BitVec.ofNat_toNat, BitVec.setWidth_eq]

end Literal

/-- Settles O23: the byte is written, and the rest of the step goes on below the threshold. -/
theorem literalCompletes : Obligations.LiteralCompletes := by
  intro s b ho hhi htable
  obtain ⟨u, t, hu, ht, hrec, hto, hqueue, hservice⟩ :=
    finishCode_completes (s := (s.putOut s.o b.toNat).advanceO 1) b.toNat b.toNat ho hhi htable
  rw [BitVec.ofNat_toNat, BitVec.setWidth_eq] at hrec
  obtain ⟨hbyte, hother⟩ := outByte_literal hrec
  have hexec : exec (.literal b) s = .next t := by
    rw [execLiteral_eq (by simp only [Config.outSize]; omega) hu, ht, finish]
  exact ⟨t, hexec, hto, hbyte, hother, hrec.sealed, hrec.trailer, hrec.phase, hrec.config, hrec.acc, hqueue, hrec.cond,
    hrec.agents, hservice⟩

/-- Settles O24: the byte is written, and the rest of the step flushes. -/
theorem literalFlushes : Obligations.LiteralFlushes := by
  intro s b n hb hlo ho hhi htable
  obtain ⟨u, t, hu, ht, hrec, hserved⟩ :=
    finishCode_flushes (s := (s.putOut s.o b.toNat).advanceO 1) b.toNat b.toNat hb hlo ho hhi htable
  rw [BitVec.ofNat_toNat, BitVec.setWidth_eq] at hrec
  obtain ⟨hbyte, hother⟩ := outByte_literal hrec
  have hexec : exec (.literal b) s = .next t := by rw [execLiteral_eq ho hu, ht, finish]
  exact ⟨t, hexec, hserved, hbyte, hother, hrec.sealed, hrec.trailer, hrec.phase, hrec.config, hrec.acc, hrec.cond,
    hrec.agents⟩

end Sys2Proof.Machine

/-! PROOFS. The expansion of a code (R120): its cases, where it succeeds and how long it is (R111, R121), what it depends on, and
the walk that goes through it; then the entry a step seals (R110, R125), and the fault of a trailer above overflow (R106);
settles O34, O53 and O54. -/

namespace Sys2Proof.Machine

section Expansion
variable {s t : State} {fuel fuel' c i bound : Nat} {bs : List Byte}

/-! ## What an expansion is -/

theorem expansion_literal (hc : c < s.clear) : expansion s fuel c = .ok [BitVec.ofNat 8 c] := by
  cases fuel <;> rw [expansion, if_pos hc]

theorem expansion_entry {b : Byte} {p : Code} (hc : s.clear ≤ c) (hb : sufRead s c = .ok b) (hp : preRead s c = .ok p)
    (hbs : expansion s fuel p.toNat = .ok bs) : expansion s (fuel + 1) c = .ok (bs ++ [b]) := by
  simp only [expansion, if_neg hc.not_gt, hb, hp, hbs]

theorem expansion_cases (h : expansion s fuel c = .ok bs) :
    (c < s.clear ∧ bs = [BitVec.ofNat 8 c]) ∨
    (s.clear ≤ c ∧ ∃ fuel' b p ps, fuel = fuel' + 1 ∧ sufRead s c = .ok b ∧ preRead s c = .ok p ∧
      expansion s fuel' p.toNat = .ok ps ∧ bs = ps ++ [b]) := by
  rcases Nat.lt_or_ge c s.clear with hc | hc
  · rw [expansion_literal hc] at h
    cases h
    exact .inl ⟨hc, rfl⟩
  · cases fuel with
    | zero => rw [expansion, if_neg hc.not_gt] at h; cases h
    | succ fuel =>
      simp only [expansion, if_neg hc.not_gt] at h
      split at h
      · cases h
      · rename_i b hb
        split at h
        · cases h
        · rename_i p hp
          split at h
          · cases h
          · rename_i ps hps
            cases h
            exact .inr ⟨hc, fuel, b, p, ps, rfl, hb, hp, hps, rfl⟩

/-- More fuel answers the same. -/
theorem expansion_mono (hf : fuel ≤ fuel') (h : expansion s fuel c = .ok bs) : expansion s fuel' c = .ok bs := by
  induction fuel generalizing fuel' c bs with
  | zero =>
    rcases expansion_cases h with ⟨hc, rfl⟩ | ⟨-, _, _, _, _, hf, -⟩
    · exact expansion_literal hc
    · cases hf
  | succ fuel ih =>
    rcases expansion_cases h with ⟨hc, rfl⟩ | ⟨hc, _, b, p, ps, hfuel, hb, hp, hps, rfl⟩
    · exact expansion_literal hc
    · cases hfuel
      obtain ⟨fuel', rfl⟩ := Nat.exists_eq_add_one.mpr (Nat.zero_lt_of_lt hf)
      exact expansion_entry hc hb hp (ih (Nat.le_of_succ_le_succ hf) hps)

theorem expansion_length_pos (h : expansion s fuel c = .ok bs) : 0 < bs.length := by
  rcases expansion_cases h with ⟨-, rfl⟩ | ⟨-, _, _, _, _, -, -, -, -, rfl⟩ <;> simp

/-! ## Where an expansion succeeds -/

/-- Every code of a chain expands, to one byte more than the slots its chain can go through (R111, R121). -/
theorem expansion_ok (hd : Descends s) (hr : Readable s) (hc : Chained s c) (hf : c ≤ fuel) :
    ∃ bs, expansion s fuel c = .ok bs ∧ bs.length ≤ 1 + (c - (s.clear + 1)) := by
  induction fuel generalizing c with
  | zero =>
    have hlit : c < s.clear := hc.resolve_right fun ⟨h, _⟩ => by omega
    exact ⟨_, expansion_literal hlit, Nat.le_add_right _ _⟩
  | succ fuel ih =>
    rcases Nat.lt_or_ge c s.clear with hlit | hle
    · exact ⟨_, expansion_literal hlit, Nat.le_add_right _ _⟩
    · obtain ⟨⟨b, hb⟩, p, hp⟩ := hr c hc hle
      obtain ⟨hlt, hcp⟩ := hd c p hc hle hp
      obtain ⟨ps, hps, hlen⟩ := ih hcp (by omega)
      refine ⟨_, expansion_entry hle hb hp hps, ?_⟩
      unfold Chained at hc hcp
      simp only [List.length_append, List.length_singleton]
      omega

/-- An entry has a byte of its own behind the expansion its chain goes on with. -/
theorem expansion_entry_length (hc : s.clear ≤ c) (h : expansion s fuel c = .ok bs) : 2 ≤ bs.length := by
  rcases expansion_cases h with ⟨hlit, -⟩ | ⟨-, _, b, p, ps, -, -, -, hps, rfl⟩
  · exact absurd hlit hc.not_gt
  · have := expansion_length_pos hps
    simp only [List.length_append, List.length_singleton]
    omega

/-! ## What an expansion depends on -/

/-- s and t have the same literals, and their table reads agree on the slots below bound. -/
def SameReadsBelow (bound : Nat) (s t : State) : Prop :=
  t.clear = s.clear ∧ ∀ d, d < bound → sufRead t d = sufRead s d ∧ preRead t d = preRead s d

/-- A chain descends, so an expansion depends only on the slots up to its code (R33(c)). -/
theorem expansion_congr (hst : SameReadsBelow bound s t) (hd : Descends s) (hc : Chained s c) (hlt : c < bound)
    (h : expansion s fuel c = .ok bs) : expansion t fuel c = .ok bs := by
  obtain ⟨hclear, hreads⟩ := hst
  induction fuel generalizing c bs with
  | zero =>
    rcases expansion_cases h with ⟨hlit, rfl⟩ | ⟨-, _, _, _, _, hf, -⟩
    · exact expansion_literal (hclear ▸ hlit)
    · cases hf
  | succ fuel ih =>
    rcases expansion_cases h with ⟨hlit, rfl⟩ | ⟨hle, _, b, p, ps, hfuel, hb, hp, hps, rfl⟩
    · exact expansion_literal (hclear ▸ hlit)
    · cases hfuel
      obtain ⟨hsuf, hpre⟩ := hreads c hlt
      obtain ⟨hdown, hcp⟩ := hd c p hc hle hp
      exact expansion_entry (hclear ▸ hle) (hsuf ▸ hb) (hpre ▸ hp) (ih hcp (hdown.trans hlt) hps)

/-- An expansion does not depend on OUT. -/
theorem expansion_withOut (m : Memory Byte) : expansion (s.withOut m) fuel c = expansion s fuel c := by
  have hsuf (d : Nat) : sufRead (s.withOut m) d = sufRead s d := rfl
  have hpre (d : Nat) : preRead (s.withOut m) d = preRead s d := rfl
  have hclear : (s.withOut m).clear = s.clear := rfl
  induction fuel generalizing c with
  | zero => rw [expansion, expansion, hclear]
  | succ fuel ih => simp only [expansion, hclear, hsuf, hpre, ih]

/-! ## The walk and HEAD on an expansion -/

/-- WALK goes through the expansion from its last byte down, and ends on its first (R117, R120). -/
theorem walk_of_expansion (hi : i < Config.outSize) (h : expansion s fuel c = .ok bs) :
    ∃ head tail m, bs = BitVec.ofNat 8 head :: tail ∧ walk fuel c i s = .ok (head, i - tail.length, s.withOut m) := by
  induction fuel generalizing c i bs s with
  | zero =>
    rcases expansion_cases h with ⟨hlit, rfl⟩ | ⟨-, _, _, _, _, hf, -⟩
    · exact ⟨c, [], _, rfl, walk_literal hlit hi⟩
    · cases hf
  | succ fuel ih =>
    rcases expansion_cases h with ⟨hlit, rfl⟩ | ⟨hle, _, b, p, ps, hfuel, hb, hp, hps, rfl⟩
    · exact ⟨c, [], _, rfl, walk_literal hlit hi⟩
    · cases hfuel
      have hps' : expansion (s.putOut i b.toNat) fuel p.toNat = .ok ps := (expansion_withOut _).trans hps
      obtain ⟨head, tail, m, rfl, hwalk⟩ := ih (Nat.sub_lt_of_lt hi) hps'
      refine ⟨head, tail ++ [b], m, rfl, ?_⟩
      rw [walk_entry hle hi hb hp, hwalk, List.length_append, List.length_singleton, Nat.sub_sub, Nat.add_comm 1]
      rfl

/-- HEAD answers the first byte of the expansion (R118, R120). -/
theorem headOf_of_expansion (h : expansion s fuel c = .ok bs) :
    ∃ head tail, bs = BitVec.ofNat 8 head :: tail ∧ headOf s fuel c = .ok head := by
  induction fuel generalizing c bs with
  | zero =>
    rcases expansion_cases h with ⟨hlit, rfl⟩ | ⟨-, _, _, _, _, hf, -⟩
    · exact ⟨c, [], rfl, by rw [headOf, if_pos hlit]⟩
    · cases hf
  | succ fuel ih =>
    rcases expansion_cases h with ⟨hlit, rfl⟩ | ⟨hle, _, b, p, ps, hfuel, hb, hp, hps, rfl⟩
    · exact ⟨c, [], rfl, by rw [headOf, if_pos hlit]⟩
    · cases hfuel
      obtain ⟨head, tail, rfl, hhead⟩ := ih hps
      exact ⟨head, tail ++ [b], rfl, by simp only [headOf, if_neg hle.not_gt, hp, hhead]⟩

end Expansion

/-- Settles O53: a slot of the epoch is an entry, and its chain descends. -/
theorem expansionBound : Obligations.ExpansionBound := by
  intro s c h hl hlo hhi
  have hs := h.stream hl
  have hfuel : c ≤ chainFuel := (hhi.trans_le hs.tableEnd_le).le
  obtain ⟨bs, hbs, hlen⟩ := expansion_ok hs.descends hs.readable (.inr ⟨hlo, hhi⟩) hfuel
  exact ⟨bs, hbs, expansion_entry_length (by omega) hbs, by omega⟩

/-! ## The entry a step seals -/

section SealedEntry
variable {s t : State} {bs : List Byte} {b : Byte} {code c i : Nat}

theorem sufRead_congr (hread : Memory.read t.suf c = Memory.read s.suf c) (hfresh : c ∈ t.sufFresh ↔ c ∈ s.sufFresh) :
    sufRead t c = sufRead s c := by
  simp only [sufRead, List.contains_iff_mem, hread, hfresh]

theorem preRead_congr (hread : Memory.read t.pre c = Memory.read s.pre c) (hfresh : c ∈ t.preFresh ↔ c ∈ s.preFresh) :
    preRead t c = preRead s c := by
  simp only [preRead, List.contains_iff_mem, hread, hfresh]

/-- With a last code its chain stands below hi (R25, R33). -/
theorem StreamOk.chained_last (h : StreamOk s) (hl : s.lastValid = true) : Chained s s.last := by
  obtain ⟨-, hlast, hne⟩ := h.valid hl
  exact h.chained ⟨hlast.le, hne⟩ fun ⟨heq, _⟩ => hlast.ne heq

/-- The new entry is last's expansion and the byte sealed: the slots below hi, where last's chain stands, keep their contents
(R110, R125). -/
theorem Sealed.expansion_hi (h : Sealed s t b) (hs : StreamOk s) (hl : s.lastValid = true) (hclear : t.clear = s.clear)
    (hbs : expansion s chainFuel s.last = .ok bs) : expansion t chainFuel s.hi = .ok (bs ++ [b]) := by
  obtain ⟨-, hhi⟩ := hs.hi_lt
  obtain ⟨heof, hlast, -⟩ := hs.valid hl
  rw [Sealed, if_pos hl] at h
  obtain ⟨hsuf, hpre, hsufFresh, hpreFresh, hother⟩ := h
  have hsame : SameReadsBelow s.hi s t := by
    refine ⟨hclear, fun d hd => ?_⟩
    obtain ⟨hsuf, hpre, hsufFresh, hpreFresh⟩ := hother d hd.ne
    exact ⟨sufRead_congr hsuf hsufFresh, preRead_congr hpre hpreFresh⟩
  have hchain := hs.chained_last hl
  have hfuel : s.last ≤ 4095 := Nat.le_of_lt_succ (hlast.trans hhi)
  obtain ⟨bs', hbs', -⟩ := expansion_ok hs.descends hs.readable hchain hfuel
  cases (expansion_mono (Nat.le_succ 4095) hbs').symm.trans hbs
  have hpreHi : expansion t 4095 (BitVec.ofNat 12 s.last).toNat = .ok bs := by
    rw [BitVec.toNat_ofNat, Nat.mod_eq_of_lt (show s.last < 2 ^ 12 from hlast.trans hhi)]
    exact expansion_congr hsame hs.descends hchain hlast hbs'
  have hentry : t.clear ≤ s.hi := by have := hs.eof; omega
  exact expansion_entry hentry (sufRead_eq_ok.mpr ⟨hhi, hsufFresh, hsuf⟩) (preRead_eq_ok.mpr ⟨hhi, hpreFresh, hpre⟩) hpreHi

/-- LITERAL seals its byte. -/
theorem literalStep_sealed (ht : literalStep code s = .ok t) : Sealed s t (BitVec.ofNat 8 code) := by
  obtain ⟨-, u, hu, ht⟩ := literalStep_cases ht
  exact (codeStep_sealed hu ht).of_output

/-- The common part of DICT and KWKWK seals the first byte of the expansion walked (R115, R116, R124). -/
theorem expandStep_sealed (hi : i < Config.outSize) (hbs : expansion s chainFuel c = .ok bs)
    (ht : expandStep code c i s = .ok t) : ∃ b, bs.head? = some b ∧ Sealed s t b := by
  obtain ⟨head, top, s₁, s₂, u, hwalk, hcopy, hu, ht⟩ := expandStep_steps ht
  obtain ⟨head', tail, m, rfl, hwalk'⟩ := walk_of_expansion hi hbs
  cases hwalk.symm.trans hwalk'
  obtain ⟨m', rfl⟩ := copyUp_frame hcopy
  exact ⟨_, rfl, (codeStep_sealed hu ht).of_output⟩

theorem kwkwkStep_sealed (hbs : expansion s chainFuel s.last = .ok bs) (ht : kwkwkStep code s = .ok t) :
    ∃ b, bs.head? = some b ∧ Sealed s t b := by
  obtain ⟨v, ht⟩ := kwkwkStep_steps ht
  exact expandStep_sealed (s := s.putOut (Config.outSize - 1) v) (by decide) ((expansion_withOut _).trans hbs) ht

end SealedEntry

/-- Settles O54: each class seals the first byte of its output, and the entry sealed is last's expansion and that byte. -/
theorem sealedEntryExpands : Obligations.SealedEntryExpands := by
  intro s t code head bs outBytes h hl hvalid heof hle hnc hne hbs hout hhead ht
  have hs := h.stream hl
  obtain ⟨-, -, hclear, -⟩ := onlyInitConfigures _ _ _ (classify_ne_init _ _) ht
  suffices hsealed : Sealed s t head from hsealed.expansion_hi hs hvalid hclear hbs
  rcases Nat.lt_or_ge code.toNat s.clear with hlit | hge
  · have hhi : code.toNat ≠ s.hi := by have := hs.eof; omega
    rw [if_neg hhi, expansion_literal hlit] at hout
    cases hout
    cases hhead
    rw [classify_literal (c := s.codeCtx) hlit] at ht
    have hsealed := literalStep_sealed (finish_eq_next.mp ht)
    rwa [literalCode, BitVec.ofNat_toNat, BitVec.setWidth_eq, ← BitVec.ofNat_toNat] at hsealed
  have hgt : s.clear < code.toNat := Nat.lt_of_le_of_ne hge hnc.symm
  by_cases hk : code.toNat = s.hi
  · rw [if_pos hk] at hout
    rw [classify_kwkwk (c := s.codeCtx) hgt hne ⟨hk, hvalid⟩] at ht
    obtain ⟨b, hb, hsealed⟩ := kwkwkStep_sealed hbs (finish_eq_next.mp ht)
    obtain ⟨tail, rfl⟩ := List.head?_eq_some_iff.mp hb
    subst hout
    cases hhead
    exact hsealed
  · rw [if_neg hk] at hout
    rw [classify_dict (c := s.codeCtx) hgt hne hle fun ⟨heq, _⟩ => hk heq] at ht
    obtain ⟨b, hb, hsealed⟩ := expandStep_sealed (by decide) hout (finish_eq_next.mp ht)
    cases hb.symm.trans hhead
    exact hsealed

/-! ## The internal fault -/

section InternalFault
variable {s : State} {bs : List Byte} {code c i : Nat}

/-- A trailer that takes hi above overflow (R106). -/
theorem endStep_internalFault (h : s.overflow < s.hi + 1) : endStep code s = .error .internalFault := by
  have habove : (s.setDecoding.setLast code).bumpHi.overflow < (s.setDecoding.setLast code).bumpHi.hi := h
  simp only [endStep, trailer, growthCheck, if_pos habove, if_pos habove.le]

/-- SEAL does not look at overflow, so the fault is the trailer's. -/
theorem sealThenEnd_internalFault (v code : Nat) (htable : s.lastValid = true → s.hi < Config.tableSize)
    (h : s.overflow < s.hi + 1) : ∃ u, sealEntry v s = .ok u ∧ endStep code u = .error .internalFault := by
  obtain ⟨u, hu⟩ : ∃ u, sealEntry v s = .ok u := ⟨_, sealEntry_ok htable⟩
  obtain ⟨_, _, _, _, hframe⟩ := sealEntry_frame hu
  exact ⟨u, hu, endStep_internalFault (by subst hframe; exact h)⟩

/-- Where the code has an expansion that fits behind o in OUT, the common part of DICT and KWKWK comes down to SEAL and the end of
the step (R115 to R117, R122). -/
theorem expandStep_eq_endStep (code : Nat) (hi : i < Config.outSize) (hbs : expansion s chainFuel c = .ok bs)
    (hfit : s.o + (Config.outSize - i + (bs.length - 1)) ≤ Config.outSize) :
    ∃ head n m, ∀ u, sealEntry head ((s.withOut m).advanceO n) = .ok u → expandStep code c i s = endStep code u := by
  obtain ⟨head, tail, m, rfl, hwalk⟩ := walk_of_expansion hi hbs
  rw [List.length_cons, Nat.add_sub_cancel] at hfit
  obtain ⟨s₂, hcopy⟩ : ∃ s₂, copyUp (Config.outSize - (i - tail.length)) (i - tail.length) s.o (s.withOut m) = .ok s₂ :=
    copyUp_ok (by omega) (by omega)
  obtain ⟨m₂, rfl⟩ := copyUp_frame hcopy
  have hasm : assembleTail (i - tail.length) (s.withOut m) =
      .ok ((s.withOut m₂).advanceO (Config.outSize - (i - tail.length))) := by
    have ho : (s.withOut m).o = s.o := rfl
    rw [assembleTail, ho, hcopy]
    rfl
  exact ⟨head, Config.outSize - (i - tail.length), m₂, fun u hu => by simp only [expandStep, hwalk, hasm, hu]⟩

theorem expandStep_internalFault (code : Nat) (htable : s.lastValid = true → s.hi < Config.tableSize)
    (h : s.overflow < s.hi + 1) (hi : i < Config.outSize) (hbs : expansion s chainFuel c = .ok bs)
    (hfit : s.o + (Config.outSize - i + (bs.length - 1)) ≤ Config.outSize) :
    expandStep code c i s = .error .internalFault := by
  obtain ⟨head, n, m, hstep⟩ := expandStep_eq_endStep code hi hbs hfit
  obtain ⟨u, hu, hend⟩ := sealThenEnd_internalFault (s := (s.withOut m).advanceO n) head code htable h
  exact (hstep u hu).trans hend

/-- KWKWK puts the head byte in front of the walk (R116, R118). -/
theorem kwkwkStep_eq_expandStep (code : Nat) (hbs : expansion s chainFuel s.last = .ok bs) :
    ∃ v, kwkwkStep code s = expandStep code s.last (Config.outSize - 2) (s.putOut (Config.outSize - 1) v) := by
  obtain ⟨head, _, -, hhead⟩ := headOf_of_expansion hbs
  have hout : outWrite s (Config.outSize - 1) head = .ok (s.putOut (Config.outSize - 1) head) :=
    outWrite_eq_ok.mpr ⟨by decide, rfl⟩
  exact ⟨head, by simp only [kwkwkStep, hhead, hout, State.putOut_last]⟩

end InternalFault

/-- Settles O34: each class reaches its trailer, which is above overflow. -/
theorem internalFaultRaised : Obligations.InternalFaultRaised := by
  intro s htable h
  refine ⟨fun b ho => ?_, fun code bs hbs hfit => ?_, fun code bs hbs hfit => ?_⟩
  · obtain ⟨u, hu, hend⟩ :=
      sealThenEnd_internalFault (s := (s.putOut s.o b.toNat).advanceO 1) b.toNat b.toNat htable h
    rw [execLiteral_eq ho hu, hend, finish]
  · have := expansion_length_pos hbs
    have hstep : dictStep code.toNat s = .error .internalFault :=
      expandStep_internalFault code.toNat htable h (by decide) hbs (by simp only [Config.outSize]; omega)
    exact congrArg finish hstep
  · have := expansion_length_pos hbs
    obtain ⟨v, hk⟩ := kwkwkStep_eq_expandStep code.toNat hbs
    have hstep : kwkwkStep code.toNat s = .error .internalFault :=
      hk.trans (expandStep_internalFault (s := s.putOut (Config.outSize - 1) v) code.toNat htable h (by decide)
        ((expansion_withOut _).trans hbs) (by simp only [Config.outSize, State.putOut_o]; omega))
    exact congrArg finish hstep

end Sys2Proof.Machine

/-! PROOFS. EOF and INVALID, which end the pass with a condition (R101, R102), and CLEAR (R100); settles O25 to O28. -/

namespace Sys2Proof.Machine

/-- Settles O25: CLEAR is `State.clearTable`. -/
theorem clearCompletes : Obligations.ClearCompletes := by
  intro s
  refine ⟨s.clearTable, rfl, ?_⟩
  simp [SameConfig, SameAcc, SameQueue, SameCond, SameAgents, SameService]

/-- Settles O26: CLEAR leaves hi at eof, so the code is above hi. -/
theorem firstCodeAfterClear : Obligations.FirstCodeAfterClear := by
  intro s t code hce ht hcode
  cases ht
  exact classify_invalid (c := s.clearTable.codeCtx) (hce.trans hcode) hcode.ne' hcode

/-- Settles O27: EOF ends the pass with the condition EOF. -/
theorem eofCompletes : Obligations.EofCompletes := by
  intro s n hb ho
  obtain ⟨t, ht, hended⟩ := endPass_terminate hb ho .eof none
  exact ⟨t, congrArg finish ht, hended⟩

/-- Settles O28: INVALID ends the pass with the condition INVALID_CODE. -/
theorem invalidCompletes : Obligations.InvalidCompletes := by
  intro s code n hb ho
  obtain ⟨t, ht, hended⟩ := endPass_terminate hb ho .invalidCode none
  exact ⟨t, congrArg finish ht, hended⟩

end Sys2Proof.Machine

/-! PROOFS. The code the next step runs: the one EXTRACT takes (R97), and a word of the opcode table where the step finds it
(log 14); settles O11 and O13. -/

namespace Sys2Proof.Machine

/-- With a READ in service and a code at hand, the step is EXTRACT and the meaning of the code (R89, R90, R97). -/
theorem step_code {s : State} (hh : ∀ w rest, s.host ≠ .overlap w :: rest) (hb : s.busy.isSome = true)
    (hn : s.width ≤ s.nBits) : step s = exec (classify s.codeCtx s.nextCode) s.dropCode := by
  have hfetch : needsFetch s = false := decide_eq_false hn.not_gt
  rw [step_inService hh hb, hfetch, if_neg Bool.false_ne_true]

/-- Settles O11: `step_code`, with EXTRACT written out. -/
theorem stepRunsDecodedCode : Obligations.StepRunsDecodedCode :=
  fun _ _ hh hb hn => step_code hh (by rw [hb]; rfl) hn

section TableWords
variable {nbits w : Nat} {i : Instr}

theorem dropOverlaps_ne_overlap (acts : List HostAct) (v : CmdWord) (rest : List HostAct) :
    dropOverlaps acts ≠ .overlap v :: rest := by
  fun_induction dropOverlaps acts with
  | case1 w acts ih => exact ih
  | case2 acts h => exact fun heq => h _ _ heq

/-- The two bytes of a word of 16 bits, inserted in LSB order, are the word (R87). -/
theorem insertBits_two_bytes (hw : w < 2 ^ 16) :
    insertBits .lsb (insertBits .lsb 0#32 0 (BitVec.ofNat 8 w)) 8 (BitVec.ofNat 8 (w / 256)) = BitVec.ofNat 32 w := by
  refine BitVec.eq_of_getLsbD_eq fun j hj => ?_
  have hdiv : w / 256 = w >>> 8 := (Nat.shiftRight_eq_div_pow w 8).symm
  simp only [insertBits, hdiv, BitVec.getLsbD_or, BitVec.getLsbD_shiftLeft, BitVec.getLsbD_setWidth, BitVec.getLsbD_ofNat,
    Nat.testBit_shiftRight, Nat.zero_testBit]
  rcases Nat.lt_or_ge j 8 with hlo | hlo
  · simp [hlo, hj]
  rw [Nat.add_sub_cancel' hlo]
  rcases Nat.lt_or_ge j 16 with hhi | hhi
  · have h8 : j - 8 < 8 := by omega
    simp [hlo.not_gt, hj, h8, h8.trans (by decide : 8 < 32)]
  · have hzero : w.testBit j = false := Nat.testBit_lt_two_pow (hw.trans_le (Nat.pow_le_pow_right Nat.two_pos hhi))
    simp [hlo.not_gt, hzero]

theorem fillBits_two_bytes (hw : w < 2 ^ 16) :
    fillBits .lsb (CodeCtx.afterInit 8).width 0#32 0 [BitVec.ofNat 8 w, BitVec.ofNat 8 (w / 256)] =
      .ok (BitVec.ofNat 32 w, 16, []) := by
  rw [← insertBits_two_bytes hw]
  rfl

/-- A code row of the table is the code of the two bytes at width 9 right after INIT LSB, 8. -/
theorem decodeTableWord_code (hn : nbits ≤ 16) (h : decodeTableWord nbits w = some i) :
    i = classify (CodeCtx.afterInit 8) (extractCode .lsb (BitVec.ofNat 32 (w % 2 ^ nbits)) 9) := by
  have hw : w % 2 ^ nbits < 2 ^ 16 :=
    (Nat.mod_lt _ (Nat.two_pow_pos _)).trans_le (Nat.pow_le_pow_right Nat.two_pos hn)
  rw [decodeTableWord, if_pos hn, decodeCodeBytes, fillBits_two_bytes hw] at h
  exact (Option.some.inj h).symm

theorem decodeTableWord_command (hn : 16 < nbits) (h : decodeTableWord nbits w = some i) :
    i = decodeCommand (BitVec.ofNat 32 (w % 2 ^ nbits)) := by
  rw [decodeTableWord, if_neg hn.not_ge] at h
  split at h <;> cases h
  rfl

end TableWords

/-- Settles O13: `withFetchWord` puts a code row into the accumulator and a longer row on the host's list. -/
theorem tableWordRunsNext : Obligations.TableWordRunsNext := by
  intro s nbits w i h
  refine ⟨fun hn => ?_, fun hn => ?_⟩
  · rw [decodeTableWord_code hn h, State.withFetchWord, if_pos hn]
    exact step_code (dropOverlaps_ne_overlap s.host) rfl (by decide : 9 ≤ 16)
  · rw [decodeTableWord_command hn h, State.withFetchWord, if_neg hn.not_ge]
    exact step_command rfl rfl

end Sys2Proof.Machine

/-! PROOFS. DICT and KWKWK (R115, R116): the walk leaves the output at the end of OUT (R117, R119), ASSEMBLE copies it to o, also
where the two overlap (R122, R123), and the rest is a code's step behind its output; settles O29 to O32. -/

namespace Sys2Proof.Machine

/-! ## Bytes written into OUT -/

section Written
variable {m m₁ m₂ : Memory Byte} {s t : State} {p o : Nat} {as bs : List Byte} {b : Byte}

/-- The bytes of `bs` are written in OUT from p on, so that no free value shows through (log 8). -/
def BytesAt (m : Memory Byte) (p : Nat) (bs : List Byte) : Prop :=
  ∀ k b, bs[k]? = some b → Memory.read m (p + k) = some b

theorem BytesAt.holdsBytes (h : BytesAt t.out p bs) : HoldsBytes t p bs := fun k b hk => outByte_of_read (h k b hk)

theorem bytesAt_nil (m : Memory Byte) (p : Nat) : BytesAt m p [] := nofun

theorem bytesAt_cons : BytesAt m p (b :: bs) ↔ Memory.read m p = some b ∧ BytesAt m (p + 1) bs := by
  constructor
  · exact fun h => ⟨h 0 b rfl, fun k c hk => by rw [Nat.add_right_comm]; exact h (k + 1) c hk⟩
  · rintro ⟨hb, hbs⟩ (_ | k) c hk
    · cases hk
      exact hb
    · rw [← Nat.add_assoc, Nat.add_right_comm]
      exact hbs k c hk

theorem bytesAt_append : BytesAt m p (as ++ bs) ↔ BytesAt m p as ∧ BytesAt m (p + as.length) bs := by
  induction as generalizing p with
  | nil => simp [bytesAt_nil]
  | cons a as ih => simp only [List.cons_append, bytesAt_cons, ih, List.length_cons, and_assoc, Nat.add_assoc, Nat.add_comm 1]

/-- Bytes stay where nothing else is written. -/
theorem BytesAt.congr (h : BytesAt m p bs)
    (hsame : ∀ j, p ≤ j → j < p + bs.length → Memory.read m₁ j = Memory.read m j) : BytesAt m₁ p bs := by
  intro k b hk
  obtain ⟨hlt, -⟩ := List.getElem?_eq_some_iff.mp hk
  exact (hsame (p + k) (Nat.le_add_right _ _) (Nat.add_lt_add_left hlt p)).trans (h k b hk)

/-- m₁ is m with the bytes of `bs` written from p on. -/
structure OutWritten (m m₁ : Memory Byte) (p : Nat) (bs : List Byte) : Prop where
  bytes : BytesAt m₁ p bs
  other : ∀ j, j < p ∨ p + bs.length ≤ j → Memory.read m₁ j = Memory.read m j

theorem outWritten_nil (m : Memory Byte) (p : Nat) : OutWritten m m p [] := ⟨bytesAt_nil m p, fun _ _ => rfl⟩

theorem outWritten_write (m : Memory Byte) (p : Nat) (b : Byte) : OutWritten m (Memory.write m p b) p [b] where
  bytes := bytesAt_cons.mpr ⟨Memory.read_write_same m p b, bytesAt_nil _ _⟩
  other j hj := Memory.read_write_other m b (by simp only [List.length_singleton] at hj; omega)

/-- Downwards, as the walk goes: the bytes in front are written last. -/
theorem OutWritten.append_front (h : OutWritten m m₁ (p + as.length) bs) (h₁ : OutWritten m₁ m₂ p as) :
    OutWritten m m₂ p (as ++ bs) where
  bytes := bytesAt_append.mpr ⟨h₁.bytes, h.bytes.congr fun j hj _ => h₁.other j (.inr hj)⟩
  other j hj := by
    rw [List.length_append] at hj
    rw [h₁.other j (by omega), h.other j (by omega)]

/-- Upwards, as the copy goes: the bytes behind are written last. -/
theorem OutWritten.append_back (h : OutWritten m m₁ p as) (h₁ : OutWritten m₁ m₂ (p + as.length) bs) :
    OutWritten m m₂ p (as ++ bs) where
  bytes := bytesAt_append.mpr ⟨h.bytes.congr fun j _ hj => h₁.other j (.inl hj), h₁.bytes⟩
  other j hj := by
    rw [List.length_append] at hj
    rw [h₁.other j (by omega), h.other j (by omega)]

/-- The walk writes the expansion, its last byte at i (R117, R119, R120). -/
theorem walk_outWritten {fuel c i head top : Nat} (hp : p + bs.length = i + 1) (hi : i < Config.outSize)
    (h : expansion s fuel c = .ok bs) (hwalk : walk fuel c i s = .ok (head, top, t)) : OutWritten s.out t.out p bs := by
  induction fuel generalizing c i bs s with
  | zero =>
    rcases expansion_cases h with ⟨hlit, rfl⟩ | ⟨-, _, _, _, _, hf, -⟩
    · cases (walk_literal hlit hi).symm.trans hwalk
      cases hp
      exact outWritten_write _ _ _
    · cases hf
  | succ fuel ih =>
    rcases expansion_cases h with ⟨hlit, rfl⟩ | ⟨hle, _, b, pre, ps, hfuel, hb, hpre, hps, rfl⟩
    · cases (walk_literal hlit hi).symm.trans hwalk
      cases hp
      exact outWritten_write _ _ _
    · cases hfuel
      rw [walk_entry hle hi hb hpre] at hwalk
      have hpos := expansion_length_pos hps
      rw [List.length_append, List.length_singleton] at hp
      have hlast : OutWritten s.out (s.putOut i b.toNat).out (p + ps.length) [b] := by
        rw [State.putOut_out, BitVec.ofNat_toNat, BitVec.setWidth_eq, show i = p + ps.length by omega]
        exact outWritten_write _ _ _
      exact hlast.append_front (ih (by omega) (by omega) ((expansion_withOut _).trans hps) hwalk)

/-- An ascending copy to a place below its source is right even where the two overlap: what it overwrites it has read before
(R122, R123). -/
theorem copyUp_outWritten {src dst : Nat} (hlt : dst < src) (hfit : src + bs.length ≤ Config.outSize)
    (h : BytesAt s.out src bs) : ∃ m, copyUp bs.length src dst s = .ok (s.withOut m) ∧ OutWritten s.out m dst bs := by
  induction bs generalizing src dst s with
  | nil => exact ⟨s.out, rfl, outWritten_nil _ _⟩
  | cons b bs ih =>
    rw [List.length_cons] at hfit
    obtain ⟨hb, hbs⟩ := bytesAt_cons.mp h
    have hread : outRead s src = .ok b := outRead_eq_ok.mpr ⟨by omega, outByte_of_read hb⟩
    have hwrite : outWrite s dst b.toNat = .ok (s.putOut dst b.toNat) := outWrite_eq_ok.mpr ⟨by omega, rfl⟩
    have hfirst : OutWritten s.out (s.putOut dst b.toNat).out dst [b] := by
      rw [State.putOut_out, BitVec.ofNat_toNat, BitVec.setWidth_eq]
      exact outWritten_write _ _ _
    have hrest : BytesAt (s.putOut dst b.toNat).out (src + 1) bs :=
      hbs.congr fun j hj _ => hfirst.other j (.inr (by simp only [List.length_singleton]; omega))
    obtain ⟨m, hcopy, hm⟩ := ih (Nat.succ_lt_succ hlt) (by omega) hrest
    exact ⟨m, by simp only [List.length_cons, copyUp, hread, hwrite, hcopy]; rfl, hfirst.append_back hm⟩

/-- What ASSEMBLE leaves of OUT's contents m: the output at o, and also at the end of OUT where the two places are apart. -/
structure Assembled (m m₂ : Memory Byte) (o : Nat) (bs : List Byte) : Prop where
  front : BytesAt m₂ o bs
  tail  : o + bs.length ≤ Config.outSize - bs.length → BytesAt m₂ (Config.outSize - bs.length) bs
  other : ∀ i, (i < o ∨ o + bs.length ≤ i) → i < Config.outSize - bs.length ∨ Config.outSize ≤ i →
    Memory.read m₂ i = Memory.read m i

/-- The output written at the end of OUT, then copied to o. -/
theorem OutWritten.assembled (hlen : bs.length ≤ Config.outSize) (h : OutWritten m m₁ (Config.outSize - bs.length) bs)
    (hcopy : OutWritten m₁ m₂ o bs) : Assembled m m₂ o bs where
  front := hcopy.bytes
  tail hapart := h.bytes.congr fun j hj _ => hcopy.other j (.inr (hapart.trans hj))
  other j hfront htail := (hcopy.other j hfront).trans (h.other j (by omega))

end Written

/-! ## The output of DICT and of KWKWK -/

section Outputs
variable {s : State} {m₀ : Memory Byte} {n : BitVec 16} {code c i : Nat} {head : Byte} {bs bytes suffix : List Byte}
  {r : Except Fault State}

/-- r is a code's step that outputs `bytes` and goes on with SEAL of the head byte and the end of the step (R97, R122, R124). -/
def Outputs (s : State) (bytes : List Byte) (head : Byte) (code : Nat) (r : Except Fault State) : Prop :=
  ∃ m, Assembled s.out m s.o bytes ∧
    ∀ u, sealEntry head.toNat ((s.withOut m).advanceO bytes.length) = .ok u → r = endStep code u

/-- SEAL writes the low 8 bits of the head. -/
theorem sealEntry_toNat_ofNat (v : Nat) (s : State) : sealEntry (BitVec.ofNat 8 v).toNat s = sealEntry v s := by
  have hbyte : s.putSuf s.hi (BitVec.ofNat 8 v).toNat = s.putSuf s.hi v := by
    rw [State.putSuf, BitVec.ofNat_toNat, BitVec.setWidth_eq, State.putSuf]
  simp only [sealEntry, sufWrite, hbyte]

@[simp] theorem State.withOut_o (s : State) (m : Memory Byte) : (s.withOut m).o = s.o := rfl
@[simp] theorem State.withOut_withOut (s : State) (m m' : Memory Byte) : (s.withOut m).withOut m' = s.withOut m' := rfl

/-- The common part of DICT and KWKWK, where OUT already ends with the bytes that follow c's expansion. -/
theorem expandStep_outputs (code : Nat) (hstart : OutWritten s.out m₀ (i + 1) suffix)
    (hend : i + 1 + suffix.length = Config.outSize) (hbs : expansion s chainFuel c = .ok (head :: bs))
    (hroom : s.o < Config.outSize - (head :: bs ++ suffix).length) :
    Outputs s (head :: bs ++ suffix) head code (expandStep code c i (s.withOut m₀)) := by
  have hlen : (head :: bs ++ suffix).length = (head :: bs).length + suffix.length := List.length_append
  have hi : i < Config.outSize := by omega
  have hbs₀ : expansion (s.withOut m₀) chainFuel c = .ok (head :: bs) := (expansion_withOut m₀).trans hbs
  obtain ⟨v, _, m₁, hcons, hwalk⟩ := walk_of_expansion hi hbs₀
  cases hcons
  obtain ⟨top, htop⟩ : ∃ top, top = Config.outSize - (BitVec.ofNat 8 v :: bs ++ suffix).length := ⟨_, rfl⟩
  have hafter : i + 1 = top + (BitVec.ofNat 8 v :: bs).length := by omega
  have hsize : Config.outSize - top = (BitVec.ofNat 8 v :: bs ++ suffix).length := by omega
  rw [show i - bs.length = top by rw [List.length_cons] at hafter; omega, State.withOut_withOut] at hwalk
  have htail : OutWritten s.out m₁ top (BitVec.ofNat 8 v :: bs ++ suffix) :=
    (hafter ▸ hstart).append_front (walk_outWritten hafter.symm hi hbs₀ hwalk)
  obtain ⟨m₂, hcopy, hcopied⟩ := copyUp_outWritten (s := s.withOut m₁) (htop ▸ hroom) (by omega) htail.bytes
  refine ⟨m₂, (htop ▸ htail).assembled (by omega) hcopied, fun u hu => ?_⟩
  rw [sealEntry_toNat_ofNat] at hu
  simp only [expandStep, hwalk, assembleTail, hsize, State.withOut_o, hcopy, State.withOut_withOut, hu]

/-- DICT outputs exp(code): the walk starts at the end of OUT (R115, R119). -/
theorem dictStep_outputs (hbs : expansion s chainFuel code = .ok (head :: bs))
    (hroom : s.o < Config.outSize - (head :: bs).length) : Outputs s (head :: bs) head code (dictStep code s) := by
  rw [← List.append_nil (head :: bs)] at hroom ⊢
  exact expandStep_outputs (m₀ := s.out) code (outWritten_nil _ _) rfl hbs hroom

/-- KWKWK outputs exp(last) and its head byte, which HEAD finds and which ends OUT before the walk (R116, R118). -/
theorem kwkwkStep_outputs (code : Nat) (hbs : expansion s chainFuel s.last = .ok (head :: bs))
    (hroom : s.o < Config.outSize - (head :: bs ++ [head]).length) :
    Outputs s (head :: bs ++ [head]) head code (kwkwkStep code s) := by
  obtain ⟨v, _, hcons, hhead⟩ := headOf_of_expansion hbs
  cases hcons
  have hwrite : outWrite s (Config.outSize - 1) v = .ok (s.putOut (Config.outSize - 1) v) :=
    outWrite_eq_ok.mpr ⟨by decide, rfl⟩
  simp only [kwkwkStep, hhead, hwrite]
  exact expandStep_outputs code (outWritten_write _ _ _) rfl hbs hroom

/-- Outside the two places of the output OUT reads as before. -/
theorem Assembled.outByte_eq {t : State} {o : Nat} (h : Assembled s.out t.out o bytes) (hfree : t.outFree = s.outFree)
    (i : Nat) (hfront : i < o ∨ o + bytes.length ≤ i) (htail : i < Config.outSize - bytes.length ∨ Config.outSize ≤ i) :
    outByte t i = outByte s i := by
  rw [outByte, outByte, h.other i hfront htail, hfree]

/-- An output below the flush threshold stands at o and at the end of OUT, and the step goes on as a LITERAL's does (R107). -/
theorem Outputs.completes (h : Outputs s bytes head code r) (ho : s.o + bytes.length < Config.flushThreshold)
    (hhi : s.hi < s.overflow) (htable : s.lastValid = true → s.hi < Config.tableSize) :
    ∃ t, finish r = .next t ∧
      t.o = s.o + bytes.length ∧ HoldsBytes t s.o bytes ∧
      HoldsBytes t (Config.outSize - bytes.length) bytes ∧
      (∀ i, (i < s.o ∨ s.o + bytes.length ≤ i) → i < Config.outSize - bytes.length ∨ Config.outSize ≤ i →
        outByte t i = outByte s i) ∧
      Sealed s t head ∧ TrailerDone s t code ∧ t.phase = .decoding ∧
      SameConfig s t ∧ SameAcc s t ∧ SameQueue s t ∧ SameCond s t ∧ SameAgents s t ∧ SameService s t := by
  obtain ⟨m, hm, hr⟩ := h
  obtain ⟨u, t, hu, ht, hrec, hto, hqueue, hservice⟩ :=
    finishCode_completes (s := (s.withOut m).advanceO bytes.length) head.toNat code ho hhi htable
  rw [BitVec.ofNat_toNat, BitVec.setWidth_eq] at hrec
  obtain ⟨-, -, -, -, hfree⟩ := hrec.config
  have hm : Assembled s.out t.out s.o bytes := hrec.out.symm ▸ hm
  have hapart : s.o + bytes.length ≤ Config.outSize - bytes.length := by
    simp only [Config.flushThreshold] at ho
    simp only [Config.outSize]
    omega
  exact ⟨t, finish_eq_next.mpr ((hr u hu).trans ht), hto, hm.front.holdsBytes, (hm.tail hapart).holdsBytes,
    hm.outByte_eq hfree, hrec.sealed, hrec.trailer, hrec.phase, hrec.config, hrec.acc, hqueue, hrec.cond, hrec.agents,
    hservice⟩

/-- An output that reaches the flush threshold stands at o, and the READ in service is answered from it and the bytes before it
(R107, R127). -/
theorem Outputs.flushes (h : Outputs s bytes head code r) (hb : s.busy = some n)
    (hlo : Config.flushThreshold ≤ s.o + bytes.length) (ho : s.o + bytes.length ≤ Config.outSize)
    (hhi : s.hi < s.overflow) (htable : s.lastValid = true → s.hi < Config.tableSize) :
    ∃ t, finish r = .next t ∧ QueueServed s t n (s.o + bytes.length) ∧ HoldsBytes t s.o bytes ∧
      (∀ i, (i < s.o ∨ s.o + bytes.length ≤ i) → i < Config.outSize - bytes.length ∨ Config.outSize ≤ i →
        outByte t i = outByte s i) ∧
      Sealed s t head ∧ TrailerDone s t code ∧ t.phase = .decoding ∧
      SameConfig s t ∧ SameAcc s t ∧ SameCond s t ∧ SameAgents s t := by
  obtain ⟨m, hm, hr⟩ := h
  obtain ⟨u, t, hu, ht, hrec, hserved⟩ :=
    finishCode_flushes (s := (s.withOut m).advanceO bytes.length) head.toNat code hb hlo ho hhi htable
  rw [BitVec.ofNat_toNat, BitVec.setWidth_eq] at hrec
  obtain ⟨-, -, -, -, hfree⟩ := hrec.config
  have hm : Assembled s.out t.out s.o bytes := hrec.out.symm ▸ hm
  exact ⟨t, finish_eq_next.mpr ((hr u hu).trans ht), hserved, hm.front.holdsBytes, hm.outByte_eq hfree, hrec.sealed,
    hrec.trailer, hrec.phase, hrec.config, hrec.acc, hrec.cond, hrec.agents⟩

theorem length_kwkwk (head : Byte) (bs : List Byte) : (head :: bs ++ [head]).length = bs.length + 2 := by
  rw [List.length_append, List.length_cons, List.length_singleton]

end Outputs

/-- Settles O29: DICT outputs exp(code) below the threshold. -/
theorem dictCompletes : Obligations.DictCompletes := by
  intro s code head bs hbs ho hhi htable
  have hroom : s.o < Config.outSize - (head :: bs).length := by
    simp only [Config.outSize, List.length_cons]
    omega
  exact (dictStep_outputs hbs hroom).completes ho hhi htable

/-- Settles O30: DICT outputs exp(code), which takes o to the threshold. -/
theorem dictFlushes : Obligations.DictFlushes := fun _ _ _ _ _ hbs hb hlo ho hroom hhi htable =>
  (dictStep_outputs hbs hroom).flushes hb hlo ho hhi htable

/-- Settles O31: KWKWK outputs exp(last) and its head byte below the threshold. -/
theorem kwkwkCompletes : Obligations.KwkwkCompletes := by
  intro s code head bs hbs ho hhi htable
  rw [← length_kwkwk head bs] at ho ⊢
  have hroom : s.o < Config.outSize - (head :: bs ++ [head]).length := by
    simp only [Config.outSize]
    omega
  exact (kwkwkStep_outputs code.toNat hbs hroom).completes ho hhi htable

/-- Settles O32: KWKWK outputs exp(last) and its head byte, which takes o to the threshold. -/
theorem kwkwkFlushes : Obligations.KwkwkFlushes := by
  intro s code head bs n hbs hb hlo ho hroom hhi htable
  rw [← length_kwkwk head bs] at hlo ho hroom ⊢
  exact (kwkwkStep_outputs code.toNat hbs hroom).flushes hb hlo ho hhi htable

end Sys2Proof.Machine

/-! PROOFS. No step reads a byte of OUT outside the live regions before writing it (R129, I12): two states with the same live
bytes take the same steps; settles O59. -/

namespace Sys2Proof.Machine

section Scratch
variable {s s' t u : State} {code v : Nat} {r r' : Host.Outcome State Fault Refusal}

/-! ## Two states with the same live bytes -/

/-- The state with other contents of OUT, written and free. -/
def State.withScratch (s : State) (m : Memory Byte) (k : Nat) : State := { s with out := m, outFree := k }

section Fields
variable (m : Memory Byte) (k : Nat)

@[simp] theorem State.withScratch_width : (s.withScratch m k).width = s.width := rfl
@[simp] theorem State.withScratch_hi : (s.withScratch m k).hi = s.hi := rfl
@[simp] theorem State.withScratch_overflow : (s.withScratch m k).overflow = s.overflow := rfl
@[simp] theorem State.withScratch_busy : (s.withScratch m k).busy = s.busy := rfl
@[simp] theorem State.withScratch_phase : (s.withScratch m k).phase = s.phase := rfl
@[simp] theorem State.withScratch_o : (s.withScratch m k).o = s.o := rfl
@[simp] theorem State.withScratch_pendPos : (s.withScratch m k).pendPos = s.pendPos := rfl
@[simp] theorem State.withScratch_pendEnd : (s.withScratch m k).pendEnd = s.pendEnd := rfl

end Fields

/-- s' is s but for OUT, and the live bytes are written in both and the same (R129). -/
structure SameLive (s s' : State) : Prop where
  scratch : ∃ m k, s' = s.withScratch m k
  live    : ∀ i, LiveByte s i → ∃ b, Memory.read s.out i = some b ∧ Memory.read s'.out i = some b

/-- Where r goes on, r' does too, to a state with the same live bytes. -/
def SameLiveNext (r r' : Host.Outcome State Fault Refusal) : Prop :=
  ∀ t, r = .next t → ∃ t', r' = .next t' ∧ SameLive t t'

theorem SameLive.next (h : SameLive s s') : SameLiveNext (.next s) (.next s') := by
  rintro _ ⟨⟩
  exact ⟨s', rfl, h⟩

theorem sameLiveNext_fault (f : Fault) (r' : Host.Outcome State Fault Refusal) : SameLiveNext (.fault f) r' := by
  rintro _ ⟨⟩

theorem sameLiveNext_refused (f : Refusal) (r' : Host.Outcome State Fault Refusal) : SameLiveNext (.refused f) r' := by
  rintro _ ⟨⟩

/-- An update that does not look at OUT, leaves it as it is and makes no further byte of it live. -/
theorem SameLive.update (h : SameLive s s') (f : State → State)
    (hf : ∀ s m k, f (State.withScratch s m k) = (f s).withScratch m k) (hout : (f s).out = s.out)
    (hlive : ∀ i, LiveByte (f s) i → LiveByte s i) : SameLive (f s) (f s') := by
  obtain ⟨⟨m, k, rfl⟩, hsame⟩ := h
  exact ⟨⟨m, k, hf s m k⟩, fun i hi => by rw [hf, hout]; exact hsame i (hlive i hi)⟩

theorem SameLive.whenIdle_next (h : SameLive s s') (hr : SameLiveNext r r') :
    SameLiveNext (whenIdle s r) (whenIdle s' r') := by
  obtain ⟨⟨m, k, rfl⟩, -⟩ := h
  unfold whenIdle
  rw [State.withScratch_busy]
  split
  · exact sameLiveNext_refused _ _
  · exact hr

/-! ## Delivery -/

/-- A window read answers by the bytes it reads. -/
theorem outWindow_congr {p k : Nat} (h : ∀ i, p ≤ i → i < p + k → outByte t i = outByte s i) :
    outWindow t p k = outWindow s p k := by
  induction k generalizing p with
  | zero => rfl
  | succ k ih =>
    have hread : outRead t p = outRead s p := by simp only [outRead, h p le_rfl (by omega)]
    have hrest : outWindow t (p + 1) k = outWindow s (p + 1) k := ih fun i hlo hhi => h i (by omega) (by omega)
    simp only [outWindow, hread, hrest]

/-- READ is answered from the queue, whose bytes are live (R136). -/
theorem SameLive.deliver_next (h : SameLive s s') (n : BitVec 16) :
    SameLiveNext (finish (deliver n s)) (finish (deliver n s')) := by
  intro t ht
  obtain ⟨data, hdata, rfl⟩ := deliver_cases (finish_eq_next.mp ht)
  have hcount : deliverCount s n ≤ s.pendEnd - s.pendPos := Nat.min_le_right _ _
  have hlive := h.update
    (fun s => (s.takePending (deliverCount s n)).respond (.read .ok (BitVec.ofNat 16 (deliverCount s n)) data none))
    (fun _ _ _ => rfl) rfl fun i hi => hi.imp_right fun ⟨hlo, hhi⟩ => ⟨(Nat.le_add_right _ _).trans hlo, hhi⟩
  obtain ⟨⟨m, k, rfl⟩, hsame⟩ := h
  have hwindow : outWindow (s.withScratch m k) s.pendPos (deliverCount s n) = .ok data := by
    refine (outWindow_congr fun i hlo hhi => ?_).trans hdata
    obtain ⟨b, hb, hb'⟩ := hsame i (.inr ⟨hlo, by omega⟩)
    rw [outByte_of_read hb, outByte_of_read hb']
  have hcount' : deliverCount (s.withScratch m k) n = deliverCount s n := rfl
  refine ⟨_, ?_, hlive⟩
  rw [deliver, State.withScratch_pendPos, hcount', hwindow]
  rfl

theorem SameLive.readLoop_next (h : SameLive s s') (n : BitVec 16) :
    SameLiveNext (finish (readLoop n s)) (finish (readLoop n s')) := by
  have hdeliver := h.deliver_next n
  have hstored := h.update respondStored (fun _ _ _ => rfl) rfl fun _ => id
  have hstart := h.update (·.startPass n) (fun _ _ _ => rfl) rfl fun _ => id
  obtain ⟨⟨m, k, rfl⟩, -⟩ := h
  unfold readLoop
  rw [State.withScratch_pendPos, State.withScratch_pendEnd, State.withScratch_phase]
  split
  · exact hdeliver
  · split
    · exact hstored.next
    · exact hstart.next

/-- The flush makes the bytes of the pass the queue (R127). -/
theorem SameLive.endPass_next (h : SameLive s s') : SameLiveNext (finish (endPass s)) (finish (endPass s')) := by
  have hflush : SameLive s.flush s'.flush := h.update State.flush (fun _ _ _ => rfl) rfl fun i hi =>
    hi.elim (absurd · i.not_lt_zero) fun ⟨_, hlt⟩ => .inl hlt
  obtain ⟨⟨m, k, rfl⟩, -⟩ := h
  unfold endPass
  rw [State.withScratch_busy]
  split
  · exact hflush.readLoop_next _
  · exact hflush.next

theorem SameLive.terminate_next (h : SameLive s s') (c : Status) (e : Option SrcErr) :
    SameLiveNext (finish (endPass (s.terminate c e))) (finish (endPass (s'.terminate c e))) :=
  (h.update (·.terminate c e) (fun _ _ _ => rfl) rfl fun _ => id).endPass_next

theorem SameLive.flushCheck_next (h : SameLive s s') :
    SameLiveNext (finish (flushCheck s)) (finish (flushCheck s')) := by
  have hend := h.endPass_next
  have hnext := h.next
  obtain ⟨⟨m, k, rfl⟩, -⟩ := h
  unfold flushCheck
  rw [State.withScratch_o]
  split
  · exact hend
  · exact hnext

/-! ## A code's step behind its output -/

/-- SEAL does not look at OUT (R124). -/
theorem SameLive.sealed (h : SameLive s s') (hu : sealEntry v s = .ok u) :
    ∃ u', sealEntry v s' = .ok u' ∧ SameLive u u' := by
  rcases sealEntry_cases hu with ⟨hl, hhi, rfl⟩ | ⟨hl, rfl⟩
  · refine ⟨_, ?_, h.update (fun s => (s.putSuf s.hi v).putPre s.hi s.last) (fun _ _ _ => rfl) rfl fun _ => id⟩
    obtain ⟨⟨m, k, rfl⟩, -⟩ := h
    exact (sealEntry_ok (s := s.withScratch m k) fun _ => hhi).trans (congrArg Except.ok (if_pos hl))
  · refine ⟨s', ?_, h⟩
    obtain ⟨⟨m, k, rfl⟩, -⟩ := h
    exact (sealEntry_ok (s := u.withScratch m k) fun hl' => nomatch hl.symm.trans hl').trans
      (congrArg Except.ok (if_neg (hl ▸ Bool.false_ne_true)))

/-- The trailer does not look at OUT (R103). -/
theorem trailer_withScratch (code : Nat) (s : State) (m : Memory Byte) (k : Nat) :
    trailer code (s.withScratch m k) = (trailer code s).map (·.withScratch m k) := by
  have hset : ((s.withScratch m k).setLast code).bumpHi = (s.setLast code).bumpHi.withScratch m k := rfl
  unfold trailer growthCheck
  rw [hset, State.withScratch_overflow, State.withScratch_hi, State.withScratch_width]
  split
  · split
    · rfl
    · split <;> rfl
  · rfl

theorem SameLive.endStep_next (h : SameLive s s') (code : Nat) :
    SameLiveNext (finish (endStep code s)) (finish (endStep code s')) := by
  obtain ⟨⟨m, k, rfl⟩, hsame⟩ := h
  have hset : (s.withScratch m k).setDecoding = s.setDecoding.withScratch m k := rfl
  unfold endStep
  rw [hset, trailer_withScratch]
  cases hw : trailer code s.setDecoding with
  | error f => exact sameLiveNext_fault f _
  | ok w =>
    have hlive : SameLive w (w.withScratch m k) := by
      obtain ⟨_, _, _, _, _, _, -, rfl⟩ := trailer_setDecoding_frame hw
      exact ⟨⟨m, k, rfl⟩, hsame⟩
    exact hlive.flushCheck_next

/-! ## The outputs of LITERAL, DICT and KWKWK -/

/-- LITERAL makes the byte live that it writes (R99). -/
theorem SameLive.literal_next (h : SameLive s s') (b : Byte) :
    SameLiveNext (exec (.literal b) s) (exec (.literal b) s') := by
  intro t ht
  obtain ⟨ho, u, hu, he⟩ := literalStep_cases (finish_eq_next.mp ht)
  obtain ⟨⟨m, k, rfl⟩, hsame⟩ := h
  have hlive : SameLive ((s.putOut s.o b.toNat).advanceO 1) (((s.withScratch m k).putOut s.o b.toNat).advanceO 1) := by
    refine ⟨⟨_, k, rfl⟩, fun i hi => ?_⟩
    simp only [State.advanceO_out, State.putOut_out, Memory.read_write]
    split
    · exact ⟨_, rfl, rfl⟩
    · exact hsame i (hi.imp_left fun hlt => Nat.lt_of_le_of_ne (Nat.le_of_lt_succ hlt) ‹_›)
  obtain ⟨u', hu', hlive'⟩ := hlive.sealed hu
  rw [execLiteral_eq (s := s.withScratch m k) ho hu']
  exact hlive'.endStep_next _ t (finish_eq_next.mpr he)

/-- What DICT and KWKWK output is live, and the same in both states; dead bytes were only copied after the walk wrote them
(R122). -/
theorem SameLive.assembled {m m' : Memory Byte} {bs : List Byte} (h : SameLive s s') (hempty : s.pendPos = s.pendEnd)
    (hroom : s.o < Config.outSize - bs.length) (hm : Assembled s.out m s.o bs) (hm' : Assembled s'.out m' s.o bs) :
    SameLive ((s.withOut m).advanceO bs.length) ((s'.withOut m').advanceO bs.length) := by
  obtain ⟨⟨_, k, rfl⟩, hsame⟩ := h
  refine ⟨⟨m', k, rfl⟩, fun i hi => ?_⟩
  rcases hi with hlt | ⟨hlo, hhi⟩
  · rcases Nat.lt_or_ge i s.o with hold | hnew
    · obtain ⟨b, hb, hb'⟩ := hsame i (.inl hold)
      exact ⟨b, (hm.other i (.inl hold) (.inl (hold.trans hroom))).trans hb,
        (hm'.other i (.inl hold) (.inl (hold.trans hroom))).trans hb'⟩
    · obtain ⟨j, rfl⟩ := Nat.exists_eq_add_of_le hnew
      have hj : j < bs.length := Nat.lt_of_add_lt_add_left hlt
      exact ⟨bs[j], hm.front j _ (List.getElem?_eq_getElem hj), hm'.front j _ (List.getElem?_eq_getElem hj)⟩
  · exact absurd (hlo.trans_lt hhi) hempty.not_lt

theorem SameLive.outputs_next {bs : List Byte} {head : Byte} {r r' : Except Fault State} (h : SameLive s s')
    (hempty : s.pendPos = s.pendEnd) (hroom : s.o < Config.outSize - bs.length) (htable : s.hi < Config.tableSize)
    (hr : Outputs s bs head code r) (hr' : Outputs s' bs head code r') : SameLiveNext (finish r) (finish r') := by
  have ho : s'.o = s.o := by obtain ⟨⟨_, _, rfl⟩, -⟩ := h; rfl
  obtain ⟨m, hm, hstep⟩ := hr
  obtain ⟨m', hm', hstep'⟩ := hr'
  obtain ⟨u, hu⟩ : ∃ u, sealEntry head.toNat ((s.withOut m).advanceO bs.length) = .ok u :=
    ⟨_, sealEntry_ok fun _ => htable⟩
  obtain ⟨u', hu', hlive⟩ := (h.assembled hempty hroom hm (ho ▸ hm')).sealed hu
  rw [hstep u hu, hstep' u' hu']
  exact hlive.endStep_next code

/-- An expansion does not depend on OUT, free contents included. -/
theorem StreamOk.expansion_withScratch {fuel c : Nat} {bs : List Byte} (hs : StreamOk s) (hc : Chained s c)
    (m : Memory Byte) (k : Nat) (h : expansion s fuel c = .ok bs) : expansion (s.withScratch m k) fuel c = .ok bs := by
  have hsame : SameReadsBelow (c + 1) s (s.withScratch m k) := ⟨rfl, fun _ _ => ⟨rfl, rfl⟩⟩
  exact expansion_congr hsame hs.descends hc (Nat.lt_succ_self c) h

/-- A code of a chain expands to at least its head byte, and to at most 4091 bytes (R111, R121). -/
theorem StreamOk.expansion_bounded {c : Nat} (hs : StreamOk s) (hc : Chained s c) (hle : c ≤ s.hi) :
    ∃ head bs, expansion s chainFuel c = .ok (head :: bs) ∧ bs.length < 4091 := by
  obtain ⟨-, hhi, -⟩ := hs.table_lt
  obtain ⟨hclear, -⟩ := hs.clear_bounds
  obtain ⟨bs, hbs, hlen⟩ := expansion_ok hs.descends hs.readable hc (fuel := chainFuel) (hle.trans hhi.le)
  obtain ⟨head, bs, rfl⟩ := List.exists_cons_of_length_pos (expansion_length_pos hbs)
  rw [List.length_cons] at hlen
  exact ⟨head, bs, hbs, by omega⟩

theorem SameLive.dict_next {code : Code} (h : SameLive s s') (hs : MidCode s) (ho : s.o ≤ 4095)
    (hr : Recordable s code.toNat) (hn : ¬ (code.toNat = s.hi ∧ s.lastValid = true)) :
    SameLiveNext (exec (.dict code) s) (exec (.dict code) s') := by
  have hc := hs.stream.chained hr hn
  obtain ⟨head, bs, hbs, hlen⟩ := hs.stream.expansion_bounded hc hr.1
  have hroom : s.o < Config.outSize - (head :: bs).length := by
    simp only [Config.outSize, List.length_cons]
    omega
  refine h.outputs_next hs.empty hroom hs.stream.hi_lt.2 (dictStep_outputs hbs hroom) ?_
  obtain ⟨⟨m, k, rfl⟩, -⟩ := h
  exact dictStep_outputs (hs.stream.expansion_withScratch hc m k hbs) hroom

theorem SameLive.kwkwk_next (h : SameLive s s') (hs : MidCode s) (ho : s.o ≤ 4095) (hl : s.lastValid = true) (code : Code) :
    SameLiveNext (exec (.kwkwk code) s) (exec (.kwkwk code) s') := by
  have hc := hs.stream.chained_last hl
  obtain ⟨-, hlast, -⟩ := hs.stream.valid hl
  obtain ⟨head, bs, hbs, hlen⟩ := hs.stream.expansion_bounded hc hlast.le
  have hroom : s.o < Config.outSize - (head :: bs ++ [head]).length := by
    rw [length_kwkwk]
    simp only [Config.outSize]
    omega
  refine h.outputs_next hs.empty hroom hs.stream.hi_lt.2 (kwkwkStep_outputs code.toNat hbs hroom) ?_
  obtain ⟨⟨m, k, rfl⟩, -⟩ := h
  exact kwkwkStep_outputs code.toNat (hs.stream.expansion_withScratch hc m k hbs) hroom

/-! ## The steps of the block -/

/-- The meaning of a classified code (R62, R97). -/
theorem SameLive.classify_next (h : SameLive s s') (hs : MidCode s) (ho : s.o ≤ 4095) (code : Code) :
    SameLiveNext (exec (classify s.codeCtx code) s) (exec (classify s.codeCtx code) s') := by
  rcases classify_cases s.codeCtx code with
    ⟨-, hi⟩ | ⟨-, hi⟩ | ⟨-, -, hi⟩ | ⟨-, -, hk, hi⟩ | ⟨hc, hne, hle, hk, hi⟩ | ⟨-, -, -, hi⟩ <;> rw [hi]
  · exact h.literal_next _
  · exact (h.update State.clearTable (fun _ _ _ => rfl) rfl fun _ => id).next
  · exact h.terminate_next .eof none
  · exact h.kwkwk_next hs ho hk.2 code
  · exact h.dict_next hs ho ⟨hle, hc.ne', hne⟩ hk
  · exact h.terminate_next .invalidCode none

/-- One Fetch transaction (R86, R91). -/
theorem SameLive.fetchByte_next (h : SameLive s s') : SameLiveNext (fetchByte s) (fetchByte s') := by
  have hnext : s'.nextAnswer = s.nextAnswer := by obtain ⟨⟨_, _, rfl⟩, -⟩ := h; rfl
  unfold fetchByte
  rw [hnext]
  cases s.nextAnswer with
  | none => exact h.next
  | some p =>
    obtain ⟨w, rest⟩ := p
    have hans (a : Answer) : SameLive (s.answered a rest) (s'.answered a rest) :=
      h.update (·.answered a rest) (fun _ _ _ => rfl) rfl fun _ => id
    dsimp only
    cases decodeAnswer w with
    | byte b => exact ((hans (.byte b)).update (·.insertByte b) (fun _ _ _ => rfl) rfl fun _ => id).next
    | endOfInput => exact (hans .endOfInput).terminate_next .unexpectedEof none
    | err e => exact (hans (.err e)).terminate_next .sourceError (some e)
    | reservedTag => exact sameLiveNext_refused _ _

/-- INIT leaves no live byte (R133). -/
theorem SameLive.init_next (h : SameLive s s') (ord : Order) (w : BitVec 4) :
    SameLiveNext (exec (.init ord w) s) (exec (.init ord w) s') := by
  refine h.whenIdle_next ?_
  have hfail : SameLive (s.failStream.respond (.status .badLitWidth)) (s'.failStream.respond (.status .badLitWidth)) :=
    h.update (·.failStream.respond (.status .badLitWidth)) (fun _ _ _ => rfl) rfl fun i hi =>
      hi.elim (absurd · i.not_lt_zero) fun ⟨_, hlt⟩ => absurd hlt i.not_lt_zero
  obtain ⟨⟨m, k, rfl⟩, -⟩ := h
  split
  · refine SameLive.next ⟨⟨[], s.freeCtr, rfl⟩, fun i hi => ?_⟩
    exact hi.elim (absurd · i.not_lt_zero) fun ⟨_, hlt⟩ => absurd hlt i.not_lt_zero
  · exact hfail.next

/-- The meaning of a command word (R132). -/
theorem SameLive.decodeCommand_next (h : SameLive s s') (w : CmdWord) :
    SameLiveNext (exec (decodeCommand w) s) (exec (decodeCommand w) s') := by
  have hrespond (r : Response) : SameLive (s.respond r) (s'.respond r) :=
    h.update (·.respond r) (fun _ _ _ => rfl) rfl fun _ => id
  rcases decodeCommand_cases w with ⟨ord, lw, hw⟩ | ⟨n, hw⟩ | hw | hw <;> rw [hw]
  · exact h.init_next ord lw
  · refine h.whenIdle_next ?_
    have hphase : s'.phase = s.phase := by obtain ⟨⟨_, _, rfl⟩, -⟩ := h; rfl
    rw [hphase]
    split
    · exact (hrespond _).next
    · exact h.readLoop_next n
  · exact h.whenIdle_next (h.update (·.setClosed.respond (.status .ok)) (fun _ _ _ => rfl) rfl fun _ => id).next
  · exact h.whenIdle_next (hrespond _).next

/-- With the invariant every live byte is written (R26, R29). -/
theorem Inv.live_written (h : Inv s) {i : Nat} (hi : LiveByte s i) : ∃ b, Memory.read s.out i = some b := by
  rcases hi with hlt | ⟨hlo, hhi⟩
  · cases hb : s.busy with
    | none => exact absurd hlt (by rw [h.idle hb]; exact i.not_lt_zero)
    | some n => exact (h.pass (by rw [hb]; rfl)).listed i i.zero_le hlt
  · exact h.queue.listed i hlo hhi

/-- A step of the block reads live bytes only, and bytes that it has written before. -/
theorem SameLive.step_next (h : SameLive s s') (hs : Inv s) : SameLiveNext (step s) (step s') := by
  have htake (w : CmdWord) (rest : List HostAct) : SameLive (s.takeCommand w rest) (s'.takeCommand w rest) :=
    h.update (·.takeCommand w rest) (fun _ _ _ => rfl) rfl fun _ => id
  have hdrop : SameLive s.dropCode s'.dropCode := h.update State.dropCode (fun _ _ _ => rfl) rfl fun _ => id
  have hfetch := h.fetchByte_next
  have hnext := h.next
  obtain ⟨⟨m, k, rfl⟩, -⟩ := h
  rcases step_cases s with ⟨w, rest, -, hs'⟩ | ⟨hno, ⟨hb, hn, hs'⟩ | ⟨hb, hn, hs'⟩ | ⟨hb, w, rest, hh, hs'⟩ | ⟨hb, hh, hs'⟩⟩ <;>
    rw [hs']
  · exact sameLiveNext_refused _ _
  · rw [step_inService (s := s.withScratch m k) hno hb, if_pos (show needsFetch (s.withScratch m k) = true from hn)]
    exact hfetch
  · have hbits : s.width ≤ s.nBits := Nat.le_of_not_lt (of_decide_eq_false hn)
    rw [step_code (s := s.withScratch m k) hno hb hbits]
    exact hdrop.classify_next (hs.midCode_dropCode hb hbits) (hs.pass hb).o _
  · rw [step_command (s := s.withScratch m k) hb hh]
    exact (htake w rest).decodeCommand_next w
  · rw [step_idle (s := s.withScratch m k) hb hh]
    exact hnext

end Scratch

/-- Settles O59: with the invariant the live bytes are written, so the contents m agree with them as `SameLive` says. -/
theorem deadScratchNeverRead : Obligations.DeadScratchNeverRead := by
  intro s t m k hs ht hm
  have hlive : SameLive s (s.withScratch m k) := by
    refine ⟨⟨m, k, rfl⟩, fun i hi => ?_⟩
    obtain ⟨b, hb⟩ := hs.live_written hi
    exact ⟨b, hb, (hm i hi).trans hb⟩
  obtain ⟨t', ht', ⟨m', k', rfl⟩, hsame⟩ := hlive.step_next hs t ht
  refine ⟨m', k', ht', fun i hi => ?_⟩
  obtain ⟨b, hb, hb'⟩ := hsame i hi
  exact hb'.trans hb.symm

end Sys2Proof.Machine

/-! PROOFS. The commands of the stream adapter (R132, R136 to R139, R144, R146 to R148): a meaning with the block idle and with a
READ in service, each turn READ can take, and two deliveries joined; settles O12, O19, O20 and O37 to O43. -/

namespace Sys2Proof.Machine

/-! ## A command with the block idle, and over a READ in service (R132, R146) -/

section Service
variable {s : State} {k : Host.Outcome State Fault Refusal}

theorem whenIdle_of_idle (hb : s.busy = none) : whenIdle s k = k := by simp [whenIdle, hb]

theorem whenIdle_of_busy {n : BitVec 16} (hb : s.busy = some n) : whenIdle s k = .refused .overlappingCommand := by
  simp [whenIdle, hb]

/-- A response of an idle block changes only what has been observed. -/
theorem State.respond_of_idle (hb : s.busy = none) (r : Response) :
    s.respond r = { s with trace := .response r :: s.trace } := by
  rw [State.respond, ← hb]

theorem exec_decodeCommand_of_busy {n : BitVec 16} (hb : s.busy = some n) (w : CmdWord) :
    exec (decodeCommand w) s = .refused .overlappingCommand := by
  rcases decodeCommand_cases w with ⟨_, _, hw⟩ | ⟨_, hw⟩ | hw | hw <;> rw [hw] <;> exact whenIdle_of_busy hb

end Service

/-- Settles O12: `step_command`, with the taking of the word written out. -/
theorem stepRunsDecodedCommand : Obligations.StepRunsDecodedCommand := fun _ _ _ hb hh => step_command hb hh

/-- Settles O19: `step_idle`. -/
theorem idleBlockStays : Obligations.IdleBlockStays := fun _ hb hh => step_idle hb hh

/-- Settles O20: the step sees the host's mark, and each command's meaning sees the READ in service. -/
theorem overlapRefused : Obligations.OverlapRefused :=
  ⟨fun _ _ _ _ _ hh => step_overlap hh, fun _ _ w hb => exec_decodeCommand_of_busy hb w⟩

/-- Settles O41. -/
theorem closeCompletes : Obligations.CloseCompletes := fun s hb =>
  (whenIdle_of_idle hb).trans (congrArg _ (State.respond_of_idle (s := s.setClosed) hb _))

/-- Settles O42: the reserved words are those that reach the last arm of `decodeCommand`. -/
theorem reservedCompletes : Obligations.ReservedCompletes := by
  intro s w hb hw
  refine ⟨by rw [decodeCommand_reserved hw], (whenIdle_of_idle hb).trans ?_⟩
  rw [State.respond_of_idle hb]

/-! ## READ: one equation for each turn it can take (R136 to R139) -/

section Read
variable {s t : State} {n : BitVec 16}

theorem exec_read_unconfigured (hb : s.busy = none) (hu : s.phase = .unconfigured) :
    exec (.read n) s = .next (s.respond (.read .notConfigured 0#16 [] none)) :=
  (whenIdle_of_idle hb).trans (if_pos hu)

theorem exec_read_configured (hb : s.busy = none) (hu : s.phase ≠ .unconfigured) :
    exec (.read n) s = finish (readLoop n s) :=
  (whenIdle_of_idle hb).trans (if_neg hu)

theorem readLoop_pending (hq : s.pendPos < s.pendEnd) : readLoop n s = deliver n s := if_pos hq

theorem readLoop_terminal (hq : s.pendEnd ≤ s.pendPos) (ht : s.phase.terminal = true) :
    readLoop n s = .ok (respondStored s) := by
  rw [readLoop, if_neg hq.not_gt, if_pos ht]

theorem readLoop_live (hq : s.pendEnd ≤ s.pendPos) (ht : s.phase.terminal = false) :
    readLoop n s = .ok (s.startPass n) := by
  rw [readLoop, if_neg hq.not_gt, ht, if_neg Bool.false_ne_true]

end Read

/-- Settles O39. -/
theorem readBeforeInit : Obligations.ReadBeforeInit := by
  intro s n hb hu
  rw [exec_read_unconfigured hb hu, State.respond_of_idle hb]

/-- Settles O38: each of the three phases is terminal, so READ's loop reports what is stored. -/
theorem readReportsStored : Obligations.ReadReportsStored := by
  intro s n hb hq hphase
  have hu : s.phase ≠ .unconfigured := by rcases hphase with h | h | h <;> simp [h]
  have hterm : s.phase.terminal = true := by rcases hphase with h | h | h <;> rw [h] <;> rfl
  rw [exec_read_configured hb hu, readLoop_terminal hq hterm, respondStored, State.respond_of_idle hb, finish]

/-- Settles O40: neither live phase is terminal, so READ's loop starts a pass. -/
theorem readStartsPass : Obligations.ReadStartsPass := by
  intro s n hb hq hphase
  have hu : s.phase ≠ .unconfigured := by rcases hphase with h | h <;> simp [h]
  have hterm : s.phase.terminal = false := by rcases hphase with h | h <;> rw [h] <;> rfl
  rw [exec_read_configured hb hu, readLoop_live hq hterm, finish, State.startPass]

/-! ## READ's delivery, and two deliveries joined (R136, R148) -/

section Delivery
variable {s t : State} {n : BitVec 16}

/-- The `k` bytes of OUT from `p` on. -/
def outBytes (s : State) (p k : Nat) : List Byte := (List.range k).map fun j => outByte s (p + j)

theorem outBytes_add (s : State) (p j k : Nat) : outBytes s p (j + k) = outBytes s p j ++ outBytes s (p + j) k := by
  simp [outBytes, List.range_add, Nat.add_assoc]

/-- What a window read answers are the bytes of OUT there. -/
theorem eq_outBytes_of_outWindow {p k : Nat} {bs : List Byte} (h : outWindow s p k = .ok bs) : bs = outBytes s p k := by
  obtain ⟨hlen, hbytes⟩ := outWindow_eq_ok h
  refine List.ext_getElem (by simp [hlen, outBytes]) fun j hj _ => ?_
  obtain ⟨-, hb⟩ := hbytes j (hlen ▸ hj)
  rw [List.getElem?_eq_getElem hj] at hb
  simpa [outBytes] using hb

/-- The state after a delivery of the first `k` bytes of the queue (R136). -/
def State.delivered (s : State) (k : Nat) : State :=
  (s.takePending k).respond (.read .ok (BitVec.ofNat 16 k) (outBytes s s.pendPos k) none)

theorem deliveredBytes_delivered (s : State) (k : Nat) :
    deliveredBytes (s.delivered k).trace = deliveredBytes s.trace ++ outBytes s s.pendPos k := rfl

/-- A READ answered from the queue has delivered its first min(n, pending) bytes. -/
theorem exec_read_delivered (hu : s.phase ≠ .unconfigured) (hq : s.pendPos < s.pendEnd)
    (h : exec (.read n) s = .next t) : t = s.delivered (deliverCount s n) := by
  obtain ⟨hb, -⟩ := whenIdle_eq_next.mp h
  rw [exec_read_configured hb hu, readLoop_pending hq] at h
  obtain ⟨data, hdata, rfl⟩ := deliver_cases (finish_eq_next.mp h)
  rw [eq_outBytes_of_outWindow hdata, State.delivered]

/-- Two deliveries one after the other hand out, and consume, what one delivery of both lengths does. -/
theorem delivered_delivered (s : State) (j k : Nat) :
    deliveredBytes ((s.delivered j).delivered k).trace = deliveredBytes (s.delivered (j + k)).trace ∧
      ((s.delivered j).delivered k).pendPos = (s.delivered (j + k)).pendPos := by
  refine ⟨?_, Nat.add_assoc ..⟩
  have hbytes : outBytes (s.delivered j) (s.delivered j).pendPos k = outBytes s (s.pendPos + j) k := rfl
  rw [deliveredBytes_delivered, deliveredBytes_delivered, deliveredBytes_delivered, hbytes, outBytes_add,
    List.append_assoc]

end Delivery

/-- Settles O37: a queue inside OUT can be delivered, and only pend_pos and the response are new. -/
theorem readDelivers : Obligations.ReadDelivers := by
  intro s n hb hu hq hend
  have hk : deliverCount s n ≤ s.pendEnd - s.pendPos := Nat.min_le_right _ _
  obtain ⟨data, hdata⟩ : ∃ data, outWindow s s.pendPos (deliverCount s n) = .ok data :=
    outWindow_ok (show _ ≤ 8192 by omega)
  obtain ⟨hlen, -⟩ := outWindow_eq_ok hdata
  refine ⟨(s.takePending data.length).respond (.read .ok (BitVec.ofNat 16 data.length) data none), data, ?_, hlen,
    holdsBytes_of_outWindow hdata, rfl, rfl, ?_⟩
  · rw [exec_read_configured hb hu, readLoop_pending hq, deliver, hdata, hlen, finish]
  · simp [SameConfig, SameAcc, SameCond, SameTable, SameArrays, SameAgents]

/-- Settles O43: the first READ delivers all its n bytes and the second is served from the rest of the queue, so the lengths of
the two deliveries add up to that of the one. -/
theorem splitReadsConcatenate : Obligations.SplitReadsConcatenate := by
  intro s t u v n m k hu hmore hk hread hread' hone
  have hn : deliverCount s n = n.toNat := Nat.min_eq_left (by omega)
  have ht : t = s.delivered n.toNat := hn ▸ exec_read_delivered hu (by omega) hread
  subst ht
  have hsum : deliverCount s k = n.toNat + deliverCount (s.delivered n.toNat) m := by
    have hrest : deliverCount (s.delivered n.toNat) m = min m.toNat (s.pendEnd - (s.pendPos + n.toNat)) := rfl
    rw [hrest, deliverCount]
    omega
  rw [exec_read_delivered (s := s.delivered n.toNat) hu hmore hread', exec_read_delivered hu (by omega) hone, hsum]
  exact delivered_delivered s _ _

end Sys2Proof.Machine

/-! PROOFS. Terminal phases: of the commands only INIT and CLOSE write the phase and the stored condition, and CLOSE stores
CLOSED (R144, R163, R166); settles O51. -/

namespace Sys2Proof.Machine

section StoredCondition
variable {s t : State}

/-- READ's loop delivers, reports or starts a pass, and none of the three stores a condition (R136 to R138). -/
theorem readLoop_sameCond {n : BitVec 16} (h : readLoop n s = .ok t) : t.phase = s.phase ∧ SameCond s t := by
  rcases readLoop_cases h with ⟨-, hd⟩ | ⟨-, -, rfl⟩ | ⟨-, -, rfl⟩
  · obtain ⟨_, -, rfl⟩ := deliver_cases hd
    exact ⟨rfl, rfl, rfl⟩
  · exact ⟨rfl, rfl, rfl⟩
  · exact ⟨rfl, rfl, rfl⟩

/-- Every command but INIT and CLOSE keeps the phase and the stored condition, a READ before any INIT included (R139). -/
theorem exec_decodeCommand_sameCond {w : CmdWord} (hinit : ∀ ord lw, decodeCommand w ≠ .init ord lw)
    (hclose : decodeCommand w ≠ .close) (h : exec (decodeCommand w) s = .next t) : t.phase = s.phase ∧ SameCond s t := by
  rcases decodeCommand_cases w with ⟨ord, lw, hw⟩ | ⟨n, hw⟩ | hw | hw
  · exact absurd hw (hinit ord lw)
  · rw [hw] at h
    obtain ⟨-, h⟩ := whenIdle_eq_next.mp h
    split at h
    · cases h
      exact ⟨rfl, rfl, rfl⟩
    · exact readLoop_sameCond (finish_eq_next.mp h)
  · exact absurd hw hclose
  · rw [hw] at h
    obtain ⟨-, h⟩ := whenIdle_eq_next.mp h
    cases h
    exact ⟨rfl, rfl, rfl⟩

/-- CLOSE leaves the block CLOSED, whatever the phase (R144). -/
theorem exec_close_phase (h : exec .close s = .next t) : t.phase = .closed := by
  obtain ⟨-, h⟩ := whenIdle_eq_next.mp h
  cases h
  rfl

end StoredCondition

/-- Settles O51: an idle block stays as it is or serves a command, which in a terminal phase is over in its step without a
Fetch (`noFetchOutsidePass`); CLOSE stores CLOSED, and READ and the reserved words store nothing. -/
theorem terminalLeftOnlyByInit : Obligations.TerminalLeftOnlyByInit := by
  intro s t hb hterm ht hinit
  obtain ⟨hsource, hloop, -, hover⟩ := noFetchOutsidePass s t hb ht
  rcases step_cases s with ⟨_, _, -, hs⟩ | ⟨-, ⟨hsome, -⟩ | ⟨hsome, -⟩ | ⟨-, w, rest, hh, hs⟩ | ⟨-, -, hs⟩⟩
  · rw [hs] at ht; cases ht
  · rw [hb] at hsome; cases hsome
  · rw [hb] at hsome; cases hsome
  · have hexec : exec (decodeCommand w) (s.takeCommand w rest) = .next t := hs.symm.trans ht
    have hbusy : t.busy = none := hover w rest hh (.inr (.inr (.inr hterm)))
    have hkeep (hclose : decodeCommand w ≠ .close) : t.phase = s.phase ∧ SameCond s t :=
      exec_decodeCommand_sameCond (s := s.takeCommand w rest) (hinit w rest hh) hclose hexec
    refine ⟨?_, hbusy, hsource, hloop, fun hno => hkeep (hno w rest hh)⟩
    by_cases hclose : decodeCommand w = .close
    · rw [exec_close_phase (hclose ▸ hexec)]
      rfl
    · rw [(hkeep hclose).1, hterm]
  · cases hs.symm.trans ht
    exact ⟨hterm, hb, rfl, rfl, fun _ => ⟨rfl, rfl, rfl⟩⟩

end Sys2Proof.Machine

/-! PROOFS. Reset and hazards: power-on reset (R35, R171), a READ that waits on the byte source (R177), and the flood of CLEAR
codes, the one input that keeps a READ in service without output (R180); settles O18, O44 and O60. -/

namespace Sys2Proof.Machine

/-- Settles O44: the reset state lists no element of any array, so OUT is read as its free bytes. -/
theorem powerOnReset : Obligations.PowerOnReset := ⟨rfl, rfl, rfl, rfl, rfl, fun _ => ⟨rfl, rfl, rfl⟩⟩

/-- Settles O18: the step is the Fetch transaction, and without an answer that leaves the state. -/
theorem unansweredFetchWaits : Obligations.UnansweredFetchWaits := by
  intro s hh hwait
  simp only [State.waiting, Bool.and_eq_true, Option.isNone_iff_eq_none] at hwait
  obtain ⟨⟨hb, hneed⟩, hnone⟩ := hwait
  rw [step_inService hh hb, if_pos hneed, fetchByte, hnone]

/-! ## The input stream of bits, over a Fetch and over EXTRACT -/

section Stream
variable {s : State} {a : SourceWord} {rest : List SourceWord} {j k : Nat}

/-- Bit k of the bytes the source has still to give: what follows the accumulator's bits in `State.streamBit`. -/
def State.sourceBit (s : State) (k : Nat) : Option Bool :=
  match s.answerAt (k / 8) with
  | some a => if a.tag = 0#2 then (byteBits s.order a.byte)[k % 8]? else none
  | none => none

theorem streamBit_eq (s : State) (j : Nat) : s.streamBit j =
    if j < s.nBits then (accBits s.order s.bits s.nBits)[j]? else s.sourceBit (j - s.nBits) := rfl

theorem answerAt_zero (s : State) : s.answerAt 0 = s.nextAnswer.map Prod.fst := by
  unfold State.answerAt State.nextAnswer
  cases s.source <;> cases s.sourceLoop <;> simp

/-- A Fetch takes the first answer still to be given, also where the source starts over (R44). -/
theorem answerAt_answered (ho : Offers s a rest) (x : Answer) (k : Nat) :
    (s.answered x rest).answerAt k = s.answerAt (k + 1) := by
  rcases ho with hsource | ⟨hsource, hloop⟩
  · simp [State.answerAt, hsource]
  · rcases Nat.lt_or_ge k rest.length with hk | hk
    · have hmod : (k + 1) % (rest.length + 1) = k + 1 := Nat.mod_eq_of_lt (Nat.succ_lt_succ hk)
      simp [State.answerAt, hsource, hloop, hk, hmod]
    · obtain ⟨d, rfl⟩ := Nat.exists_eq_add_of_le hk
      have hmod : (rest.length + d + 1) % (rest.length + 1) = d % (rest.length + 1) := by
        rw [Nat.add_right_comm, Nat.add_mod_left]
      simp [State.answerAt, hsource, hloop, hmod]

theorem sourceBit_of_offers (ho : Offers s a rest) (ha : a.tag = 0#2) (hk : k < 8) :
    s.sourceBit k = (byteBits s.order a.byte)[k]? := by
  have hfirst : s.answerAt 0 = some a := by rw [answerAt_zero, nextAnswer_eq_some.mpr ho]; rfl
  simp [State.sourceBit, Nat.div_eq_of_lt hk, Nat.mod_eq_of_lt hk, hfirst, ha]

/-- Where the source has a first bit, its next answer is a byte. -/
theorem offers_byte_of_sourceBit (h : (s.sourceBit 0).isSome = true) : ∃ a rest, Offers s a rest ∧ a.tag = 0#2 := by
  unfold State.sourceBit at h
  rw [Nat.zero_div, answerAt_zero] at h
  cases hnext : s.nextAnswer with
  | none => simp [hnext] at h
  | some p =>
    obtain ⟨a, rest⟩ := p
    by_cases ha : a.tag = 0#2
    · exact ⟨a, rest, nextAnswer_eq_some.mp hnext, ha⟩
    · simp [hnext, ha] at h

theorem sourceBit_answered (ho : Offers s a rest) (x : Answer) (k : Nat) :
    (s.answered x rest).sourceBit k = s.sourceBit (k + 8) := by
  unfold State.sourceBit
  rw [answerAt_answered ho, Nat.add_div_right k (by decide), Nat.add_mod_right]
  rfl

/-- The Fetch of a byte moves 8 bits of the stream into the accumulator and changes none (R86 to R88). -/
theorem streamBit_insertByte (ho : Offers s a rest) (ha : a.tag = 0#2) (hn : s.nBits ≤ 24)
    (hacc : AccOk s.order s.bits s.nBits) (x : Answer) (j : Nat) :
    ((s.answered x rest).insertByte a.byte).streamBit j = s.streamBit j := by
  have hbits := insertAppendsByteBits s.order s.bits s.nBits a.byte hn hacc
  have hlen : (accBits s.order s.bits s.nBits).length = s.nBits := length_accBits _ _
  rw [streamBit_eq, streamBit_eq]
  show (if j < s.nBits + 8 then (accBits s.order (insertBits s.order s.bits s.nBits a.byte) (s.nBits + 8))[j]?
    else (s.answered x rest).sourceBit (j - (s.nBits + 8))) = _
  rw [hbits, sourceBit_answered ho]
  rcases Nat.lt_or_ge j s.nBits with hj | hj
  · rw [if_pos (by omega), if_pos hj, List.getElem?_append_left (by omega)]
  rw [if_neg hj.not_gt]
  rcases Nat.lt_or_ge j (s.nBits + 8) with hj' | hj'
  · rw [if_pos hj', List.getElem?_append_right (by omega), hlen, sourceBit_of_offers ho ha (by omega)]
  · rw [if_neg hj'.not_gt, show j - (s.nBits + 8) + 8 = j - s.nBits by omega]

/-- EXTRACT takes the first `width` bits of the stream (R89, R90). -/
theorem streamBit_dropCode (hw : s.width ≤ 12) (hwn : s.width ≤ s.nBits) (hn : s.nBits ≤ 32) (j : Nat) :
    s.dropCode.streamBit j = s.streamBit (s.width + j) := by
  obtain ⟨-, hrest⟩ := extractTakesCodeBits s.order s.bits s.nBits s.width hw hwn hn
  rw [streamBit_eq, streamBit_eq]
  show (if j < s.nBits - s.width then
      (accBits s.order (extractRest s.order s.bits s.width) (s.nBits - s.width))[j]?
    else s.sourceBit (j - (s.nBits - s.width))) = _
  rw [hrest, List.getElem?_drop, show j - (s.nBits - s.width) = s.width + j - s.nBits by omega]
  exact if_congr (by omega) rfl rfl

/-- EXTRACT's code is the one whose bits the stream begins with (R60, R89, R90). -/
theorem nextCode_eq_of_streamBit {v : Code} (hw : s.width ≤ 12) (hwn : s.width ≤ s.nBits) (hn : s.nBits ≤ 32)
    (hv : v.toNat < 2 ^ s.width) (h : ∀ j, j < s.width → s.streamBit j = (codeBits s.order s.width v)[j]?) :
    s.nextCode = v := by
  obtain ⟨hcode, -⟩ := extractTakesCodeBits s.order s.bits s.nBits s.width hw hwn hn
  refine codeBits_injective (ord := s.order) (extractCode_lt s.bits hw) hv (hcode.trans (List.ext_getElem? fun j => ?_))
  rw [List.getElem?_take]
  split
  case isTrue hj => rw [← h j hj, streamBit_eq, if_pos (hj.trans_le hwn)]
  case isFalse hj => rw [List.getElem?_eq_none (by rw [length_codeBits]; omega)]

end Stream

/-! ## The flood of CLEAR codes (R180) -/

section Flood
variable {s t : State}

/-- The flood is not over in t, and the READ of s is as far as it was: in service, without a response and an output byte. -/
structure FloodGoesOn (s t : State) : Prop where
  flooded   : Flooded t
  busy      : t.busy = s.busy
  responses : responseCount t.trace = responseCount s.trace
  o         : t.o = s.o

theorem Flooded.width_le (h : Flooded s) : s.width ≤ 9 := by
  obtain ⟨-, hl⟩ := h.litWidth
  have hw := h.width
  omega

/-- CLEAR's code fits the width right after a CLEAR, and 12 bits (R64). -/
theorem Flooded.clear_lt (h : Flooded s) : s.clear < 2 ^ s.width ∧ s.clear < 2 ^ 12 := by
  obtain ⟨-, hl⟩ := h.litWidth
  rw [h.clear, h.width]
  exact ⟨Nat.pow_lt_pow_succ (by decide), Nat.pow_lt_pow_right (by decide) (by omega)⟩

/-- While a code is incomplete the source offers a byte: the stream never ends. -/
theorem Flooded.offers_byte (h : Flooded s) (hn : s.nBits < s.width) : ∃ a rest, Offers s a rest ∧ a.tag = 0#2 := by
  have hfirst : s.streamBit s.nBits = s.sourceBit 0 := by rw [streamBit_eq, if_neg (lt_irrefl _), Nat.sub_self]
  refine offers_byte_of_sourceBit ?_
  rw [← hfirst, h.bits, Nat.mod_eq_of_lt hn, List.getElem?_eq_getElem (by rwa [length_codeBits])]
  rfl

theorem Flooded.not_waiting (h : Flooded s) : s.waiting = false := by
  rcases Nat.lt_or_ge s.nBits s.width with hn | hn
  · obtain ⟨a, rest, ho, -⟩ := h.offers_byte hn
    simp [State.waiting, nextAnswer_eq_some.mpr ho]
  · simp [State.waiting, needsFetch, hn]

/-- A Fetch in the flood (R86). -/
theorem Flooded.fetched {a : SourceWord} {rest : List SourceWord} (h : Flooded s) (hn : s.nBits < s.width)
    (ho : Offers s a rest) (ha : a.tag = 0#2) :
    FloodGoesOn s ((s.answered (.byte a.byte) rest).insertByte a.byte) := by
  have hw := h.width_le
  have hn24 : s.nBits ≤ 24 := by omega
  exact {
    busy := rfl
    responses := rfl
    o := rfl
    flooded := { h with
      acc := accOk_insertBits a.byte hn24 h.acc
      nBits := by show s.nBits + 8 ≤ s.width + 7; omega
      bits := fun j => (streamBit_insertByte ho ha hn24 h.acc _ j).trans (h.bits j) } }

theorem Flooded.nextCode_eq (h : Flooded s) (hn : s.width ≤ s.nBits) : s.nextCode.toNat = s.clear := by
  have hw := h.width_le
  have hbits := h.nBits
  obtain ⟨hfits, hlt⟩ := h.clear_lt
  have hclear : (BitVec.ofNat 12 s.clear).toNat = s.clear := by rw [BitVec.toNat_ofNat, Nat.mod_eq_of_lt hlt]
  have hcode : s.nextCode = BitVec.ofNat 12 s.clear :=
    nextCode_eq_of_streamBit (by omega) hn (by omega) (by rwa [hclear]) fun j hj => by rw [h.bits, Nat.mod_eq_of_lt hj]
  rw [hcode, hclear]

/-- A CLEAR code in the flood (R89, R90, R100): width is back where it is, and the stream goes on behind the code. -/
theorem Flooded.cleared (h : Flooded s) (hn : s.width ≤ s.nBits) : FloodGoesOn s s.dropCode.clearTable := by
  have hw := h.width_le
  have hbits := h.nBits
  have hstream : ∀ j, s.dropCode.streamBit j = (codeBits s.order s.width (BitVec.ofNat 12 s.clear))[j % s.width]? :=
    fun j => by rw [streamBit_dropCode (by omega) hn (by omega), h.bits, Nat.add_mod_left]
  exact {
    busy := rfl
    responses := rfl
    o := rfl
    flooded := {
      service := h.service
      host := h.host
      litWidth := h.litWidth
      clear := h.clear
      width := rfl
      acc := accOk_extractRest hn (by omega) h.acc
      nBits := by show s.nBits - s.width ≤ s.litWidth + 1 + 7; omega
      bits := fun j => (hstream j).trans (by rw [h.width]; rfl) } }

theorem Flooded.step_goesOn (h : Flooded s) : ∃ t, step s = .next t ∧ FloodGoesOn s t := by
  rcases Nat.lt_or_ge s.nBits s.width with hn | hn
  · obtain ⟨a, rest, ho, ha⟩ := h.offers_byte hn
    have hneed : needsFetch s = true := decide_eq_true hn
    refine ⟨_, ?_, h.fetched hn ho ha⟩
    rw [step_inService h.host h.service, if_pos hneed, fetchByte_of_byte ho ha]
  · refine ⟨_, ?_, h.cleared hn⟩
    rw [step_code h.host h.service hn, classify_clear (h.nextCode_eq hn)]
    rfl

theorem run_succ_of_step {M : Host.Core} {s t : M.State} {k : Nat} (h : M.step s = .next t) :
    M.run (k + 1) s = M.run k t := by
  rw [Host.Core.run, h]

theorem Flooded.run_goesOn (h : Flooded s) (k : Nat) : ∃ t, Host.Core.run core k s = .next t ∧ FloodGoesOn s t := by
  induction k generalizing s with
  | zero => exact ⟨s, rfl, h, rfl, rfl, rfl⟩
  | succ k ih =>
    obtain ⟨u, hu, hfirst⟩ := h.step_goesOn
    obtain ⟨t, ht, hrest⟩ := ih hfirst.flooded
    exact ⟨t, (run_succ_of_step (M := core) hu).trans ht, hrest.flooded, hrest.busy.trans hfirst.busy,
      hrest.responses.trans hfirst.responses, hrest.o.trans hfirst.o⟩

end Flood

/-! ## Every other code ends the service or advances o (R97, R107) -/

section Progress
variable {s t u : State} {code v : Nat}

/-- A pass that ends ends the service where there are bytes to deliver or a condition to report (R136, R137). -/
theorem endPass_ends (hend : 0 < s.o ∨ s.phase.terminal = true) (h : endPass s = .ok t) : t.busy = none := by
  rcases endPass_cases h with ⟨n, -, hr⟩ | ⟨hb, rfl⟩
  · rcases readLoop_cases hr with ⟨-, hd⟩ | ⟨-, -, rfl⟩ | ⟨hle, hterm, -⟩
    · obtain ⟨_, -, rfl⟩ := deliver_cases hd
      rfl
    · rfl
    · rcases hend with hpos | hend
      · exact absurd hle hpos.not_ge
      · simp [hend] at hterm
  · exact hb

theorem endPass_terminate_ends {c : Status} {e : Option SrcErr} (h : endPass (s.terminate c e) = .ok t) :
    t.busy = none := by
  refine endPass_ends (.inr ?_) h
  rw [State.terminate_phase]
  split <;> rfl

/-- A code's step from its output on, where there is an output: the flush check serves the READ or goes on. -/
theorem codeStep_progress {out : State} (ho : s.o < out.o) (hu : sealEntry v out = .ok u) (h : endStep code u = .ok t) :
    t.busy = none ∨ s.o < t.o := by
  obtain ⟨w, hw, hf⟩ := endStep_cases h
  have hwo : w.o = out.o := by
    obtain ⟨_, _, _, _, rfl⟩ := sealEntry_frame hu
    obtain ⟨_, _, _, _, _, _, -, rfl⟩ := trailer_setDecoding_frame hw
    rfl
  rcases flushCheck_cases hf with ⟨-, he⟩ | ⟨-, rfl⟩
  · exact .inl (endPass_ends (.inl (by omega)) he)
  · exact .inr (by omega)

/-- The walk writes its last byte inside OUT (R117, R119). -/
theorem walk_top_lt {fuel c i head top : Nat} (h : walk fuel c i s = .ok (head, top, t)) : top < Config.outSize := by
  induction fuel generalizing c i s with
  | zero =>
    rcases walk_cases h with ⟨-, hi, rfl, -⟩ | ⟨-, -, _, _, _, hf, -⟩
    · exact hi
    · cases hf
  | succ fuel ih =>
    rcases walk_cases h with ⟨-, hi, rfl, -⟩ | ⟨-, -, _, _, _, hf, -, hw⟩
    · exact hi
    · cases hf
      exact ih hw

/-- DICT and KWKWK write at least one byte (R115, R116, R122). -/
theorem expandStep_progress {c i : Nat} (h : expandStep code c i s = .ok t) : t.busy = none ∨ s.o < t.o := by
  obtain ⟨head, top, s₁, s₂, u, hw, hcopy, hu, he⟩ := expandStep_steps h
  have htop := walk_top_lt hw
  obtain ⟨m₁, rfl⟩ := walk_frame hw
  obtain ⟨m₂, rfl⟩ := copyUp_frame hcopy
  exact codeStep_progress (Nat.lt_add_of_pos_right (Nat.sub_pos_of_lt htop)) hu he

/-- The classes of R62 but CLEAR. -/
theorem exec_classify_progress {c : CodeCtx} {code : Code} (hne : code.toNat ≠ c.clear)
    (h : exec (classify c code) s = .next t) : t.busy = none ∨ s.o < t.o := by
  rcases classify_cases c code with
    ⟨-, hi⟩ | ⟨heq, -⟩ | ⟨-, -, hi⟩ | ⟨-, -, -, hi⟩ | ⟨-, -, -, -, hi⟩ | ⟨-, -, -, hi⟩
  case inr.inl => exact absurd heq hne
  all_goals rw [hi] at h
  · obtain ⟨-, u, hu, he⟩ := literalStep_cases (finish_eq_next.mp h)
    exact codeStep_progress (Nat.lt_succ_self s.o) hu he
  · exact .inl (endPass_terminate_ends (finish_eq_next.mp h))
  · obtain ⟨v, he⟩ := kwkwkStep_steps (finish_eq_next.mp h)
    exact expandStep_progress (s := s.putOut _ v) he
  · exact expandStep_progress (finish_eq_next.mp h)
  · exact .inl (endPass_terminate_ends (finish_eq_next.mp h))

end Progress

/-- Settles O60: each step of the flood is a Fetch or a CLEAR and keeps `Flooded`; a code of any other class writes output, and
then goes on or is flushed and served, or ends the pass with a condition. -/
theorem onlyClearFloodHangs : Obligations.OnlyClearFloodHangs := by
  refine ⟨fun s k h => ?_, fun s t n _ hb hw hne ht => ?_⟩
  · obtain ⟨t, hrun, hgoes⟩ := h.run_goesOn k
    exact ⟨t, hrun, hgoes.flooded, hgoes.flooded.not_waiting, hgoes.busy, hgoes.responses, hgoes.o⟩
  · rcases step_cases s with ⟨_, _, -, hs⟩ | ⟨hh, -⟩
    · cases hs.symm.trans ht
    · rw [step_code hh (by rw [hb]; rfl) hw] at ht
      exact exec_classify_progress (s := s.dropCode) hne ht

end Sys2Proof.Machine
